-- ==== Sys2Proof/Word.lean ====
section
/-! DEFINITION. The word types of the machine: bytes, 16-bit words, register and key numbers
(spec 00_scope.md R7, R9, R10). Everything is unsigned. -/

namespace Sys2Proof

/-- One byte: a memory cell, a general register, a timer (R7). -/
abbrev Byte := BitVec 8

/-- A 16-bit word: an instruction word, `I`, `PC`, a stack entry (R7, R80). -/
abbrev Word := BitVec 16

/-- The number of a general register, `V0` to `VF` (R21). -/
abbrev Reg := Fin 16

/-- VF, the register that instructions also write as the flag (R22). -/
abbrev vf : Reg := 15

end Sys2Proof
end

