-- ==== Sys2Proof/Config.lean ====
section
/-! DEFINITION. What is fixed for the machine: the sizes of spec 00_scope.md R7, the parameters of R8
with their defaults, and the free values (the driver's behaviour where no call of it is placed). -/

namespace Sys2Proof

/-- `MEM_SIZE`: bytes of memory (R7). -/
def memSize : Nat := 4096

/-- `PROG_BASE`: the first byte of the loaded program and the entry point (R7, R46). -/
def progBase : Nat := 0x200

/-- The longest ROM: from 0x200 to the end of memory (R222). -/
def romMax : Nat := 3584

/-- `STACK_CAP`: entries of the call stack (R7). -/
def stackCap : Nat := 16

/-- `FB_W`: columns of the framebuffer (R7). -/
def fbWidth : Nat := 64

/-- `FB_H`: rows of the framebuffer (R7). -/
def fbHeight : Nat := 32

/-- `NKEYS`: logical keys (R7). -/
def nKeys : Nat := 16

/-- The font: 16 glyphs of 5 bytes (R7). -/
def fontBytes : Nat := 80

/-- The largest legal `FONT_BASE`, so that the font ends below the program (R8). -/
def fontBaseMax : Nat := 0x1B0

/-- `TPERIOD`, the timer period: 1,000,000/60 microseconds exactly (R7, R175). -/
def tperiod : Rat := mkRat 50000 3

/-- `DECODE_FAULT_POLICY`: what the driver lets an unmatched word do (R8, R199). -/
inductive DecodeFaultPolicy where
  /-- The fault halts the core (R198). -/
  | halt
  /-- The word is skipped as a 2-byte no-op; the fault is still recorded (R199). -/
  | skip
  deriving DecidableEq, Repr

/-- The parameters of a run (R8), handed over by Reset and fixed until the next Reset (R38, R180). -/
structure Params where
  /-- `FONT_BASE`: where the font lies. -/
  fontBase : Nat
  /-- `FONT`: the 80 font bytes, glyph g at bytes 5g to 5g+4. -/
  font : List Byte
  /-- `IPERIOD`: the instruction period in microseconds. -/
  iperiod : Rat
  /-- `DECODE_FAULT_POLICY`. -/
  policy : DecodeFaultPolicy
  deriving DecidableEq, Repr

/-- The customary glyphs (spec 93 G2). PRESUMED, see notes/assumptions/2.md. -/
def Config.defaultFont : List Byte :=
  [0xF0, 0x90, 0x90, 0x90, 0xF0,  0x20, 0x60, 0x20, 0x20, 0x70,
   0xF0, 0x10, 0xF0, 0x80, 0xF0,  0xF0, 0x10, 0xF0, 0x10, 0xF0,
   0x90, 0x90, 0xF0, 0x10, 0x10,  0xF0, 0x80, 0xF0, 0x10, 0xF0,
   0xF0, 0x80, 0xF0, 0x90, 0xF0,  0xF0, 0x10, 0x20, 0x40, 0x40] ++
  [0xF0, 0x90, 0xF0, 0x90, 0xF0,  0xF0, 0x90, 0xF0, 0x10, 0xF0,
   0xF0, 0x90, 0xF0, 0x90, 0x90,  0xE0, 0x90, 0xE0, 0x90, 0xE0,
   0xF0, 0x80, 0x80, 0x80, 0xF0,  0xE0, 0x90, 0x90, 0x90, 0xE0,
   0xF0, 0x80, 0xF0, 0x80, 0xF0,  0xF0, 0x80, 0xF0, 0x80, 0x80]

/-- The parameters `State.reset` is built with: the defaults of R8, and policy `halt`, for which R8
gives no default (notes/assumptions/1.md to 4.md). No statement rests on them: `Params` is a field
of State. -/
def Config.defaultParams : Params where
  fontBase := 0x050
  font := Config.defaultFont
  iperiod := mkRat 10000 7
  policy := .halt

/-- FREE VALUE: the elapsed time of the n-th driver call that nothing has placed, as a numerator
and a denominator less one (any non-negative rational, R181). See notes/assumptions/6.md. -/
opaque Config.freeElapsed : Nat → Nat × Nat

/-- FREE VALUE: the key snapshot of that call (any 16 booleans, R41). See notes/assumptions/6.md. -/
opaque Config.freeKeys : Nat → BitVec 16

/-- FREE VALUE: the byte drawn for that call (any value, R166). See notes/assumptions/7.md. -/
opaque Config.freeRnd : Nat → Byte

end Sys2Proof
end

