-- ==== Sys2Proof/Syntax.lean ====
section
/-! DEFINITION. The instructions, one constructor per row of spec/opcode_table.json (30_encoding.md
R86), and the two transactions a driver may call (46_cycle_scheduler_timers.md R180).

The operand types are the fields of R81 and R83: a register number is 0 to 15, `NN` a byte, `NNN`
twelve bits, `N` a row count 0 to 15. Nibbles the decoder ignores (R85) are no operands. -/

namespace Sys2Proof

/-- The 34 instructions, in the order of R86. -/
inductive Instr where
  /-- 00E0, clear the framebuffer (R150). -/
  | cls
  /-- 00EE, return from subroutine (R100). -/
  | ret
  /-- 1NNN, jump (R101). -/
  | jp (nnn : BitVec 12)
  /-- 2NNN, call subroutine (R102). -/
  | call (nnn : BitVec 12)
  /-- 3XNN, skip if `V[X] = NN` (R110). -/
  | seImm (x : Reg) (nn : Byte)
  /-- 4XNN, skip if `V[X] ≠ NN` (R111). -/
  | sneImm (x : Reg) (nn : Byte)
  /-- 5XY0, skip if `V[X] = V[Y]` (R112). -/
  | seReg (x y : Reg)
  /-- 6XNN, load immediate (R120). -/
  | ldImm (x : Reg) (nn : Byte)
  /-- 7XNN, add immediate without a flag (R121). -/
  | addImm (x : Reg) (nn : Byte)
  /-- 8XY0, copy register (R122). -/
  | ldReg (x y : Reg)
  /-- 8XY1, bitwise OR (R123). -/
  | orReg (x y : Reg)
  /-- 8XY2, bitwise AND (R124). -/
  | andReg (x y : Reg)
  /-- 8XY3, bitwise exclusive OR (R125). -/
  | xorReg (x y : Reg)
  /-- 8XY4, add with carry out (R126). -/
  | addReg (x y : Reg)
  /-- 8XY5, subtract with not-borrow out (R127). -/
  | sub (x y : Reg)
  /-- 8XY6, shift right by one (R128). -/
  | shr (x : Reg)
  /-- 8XY7, reverse subtract with not-borrow out (R129). -/
  | subn (x y : Reg)
  /-- 8XYE, shift left by one (R130). -/
  | shl (x : Reg)
  /-- 9XY0, skip if `V[X] ≠ V[Y]` (R113). -/
  | sneReg (x y : Reg)
  /-- ANNN, load the index register (R140). -/
  | ldI (nnn : BitVec 12)
  /-- BNNN, jump to `NNN + V[0]` (R103). -/
  | jpV0 (nnn : BitVec 12)
  /-- CXNN, random byte under a mask (R166). -/
  | rnd (x : Reg) (nn : Byte)
  /-- DXYN, draw a sprite of N rows (R151). -/
  | drw (x y : Reg) (n : BitVec 4)
  /-- EX9E, skip if the key `V[X]` is pressed (R160). -/
  | skp (x : Reg)
  /-- EXA1, skip if the key `V[X]` is not pressed (R161). -/
  | sknp (x : Reg)
  /-- FX07, read the delay timer (R163). -/
  | ldVxDT (x : Reg)
  /-- FX15, set the delay timer (R164). -/
  | ldDTVx (x : Reg)
  /-- FX18, set the sound timer (R165). -/
  | ldSTVx (x : Reg)
  /-- FX0A, wait for a key (R162). -/
  | ldVxK (x : Reg)
  /-- FX1E, add to the index register with carry out of 16 bits (R141). -/
  | addI (x : Reg)
  /-- FX29, point `I` at a font glyph (R142). -/
  | ldF (x : Reg)
  /-- FX33, store three decimal digits (R143). -/
  | ldB (x : Reg)
  /-- FX55, store `V[0]` to `V[X]` at `I` (R144). -/
  | ldMemVx (x : Reg)
  /-- FX65, load `V[0]` to `V[X]` from `I` (R145). -/
  | ldVxMem (x : Reg)
  deriving DecidableEq, Repr

/-- What a driver may ask of the core (R40, R180), with the arguments of R41. The types leave room
for the calls R181 and R8 put outside the interface, so that the model can refuse them by name. -/
inductive DriverCall where
  /-- Advance: elapsed microseconds, the key snapshot (entry k is logical key k), the byte drawn for
  this call (R176). -/
  | advance (elapsed : Rat) (keys : List Bool) (rnd : Byte)
  /-- Reset: the ROM bytes and the parameters of the run that begins (R220, R180). -/
  | reset (rom : List Byte) (params : Params)
  deriving DecidableEq, Repr

end Sys2Proof
end

