-- ==== Sys2Proof/WellFormed.lean ====
section
/-! DEFINITION. The checks on what enters the machine: parameters (00_scope.md R8), driver calls
(46_cycle_scheduler_timers.md R181), and instruction words in the form an assembler must emit
(30_encoding.md R85). An `Instr` needs no check of its own: its operand types hold exactly the
values its fields can (R81, R83), so every term of it is well-formed. -/

namespace Sys2Proof

/-- The constraints of R8 on a run's parameters: `FONT_BASE` at most 0x1B0, 80 font bytes, a
positive instruction period. -/
def Params.legal (p : Params) : Bool :=
  decide (p.fontBase ≤ fontBaseMax) && decide (p.font.length = fontBytes) && decide (0 < p.iperiod.num)

/-- R181: elapsed time is not negative. -/
def elapsedLegal (elapsed : Rat) : Bool := decide (0 ≤ elapsed.num)

/-- R181: a key snapshot has exactly 16 entries. -/
def keysLegal (keys : List Bool) : Bool := decide (keys.length = nKeys)

/-- A call inside the interface (R180, R181, R8). A ROM that is too long is inside it: Reset then
answers ROMTooLarge (R222). -/
def DriverCall.legal : DriverCall → Bool
  | .advance elapsed keys _ => elapsedLegal elapsed && keysLegal keys
  | .reset _ params => params.legal

/-- The nibble of each instruction that its pattern does not name (R85, the `-` of R86), as a mask. -/
def Instr.ignoredBits : Instr → Word
  | .cls | .ret => 0x0F00
  | .seReg _ _ | .sneReg _ _ => 0x000F
  | .shr _ | .shl _ => 0x00F0
  | .jp _ | .call _ | .seImm _ _ | .sneImm _ _ | .ldImm _ _ | .addImm _ _ | .ldReg _ _ | .orReg _ _
  | .andReg _ _ | .xorReg _ _ | .addReg _ _ | .sub _ _ | .subn _ _ | .ldI _ | .jpV0 _ | .rnd _ _
  | .drw _ _ _ | .skp _ | .sknp _ | .ldVxDT _ | .ldDTVx _ | .ldSTVx _ | .ldVxK _ | .addI _ | .ldF _
  | .ldB _ | .ldMemVx _ | .ldVxMem _ => 0

/-- A word in the canonical encoding of the instruction it stands for: the ignored nibble is zero
(R85). -/
def canonicalFor (i : Instr) (w : Word) : Bool := w &&& i.ignoredBits == 0

end Sys2Proof
end

