-- ==== Sys2Proof/Decode.lean ====
section
/-! DEFINITION. From bytes to an instruction or a named refusal (30_encoding.md R80 to R88), the
encoder of the canonical words, and the opcode table of R86 as masks and matches. -/

namespace Sys2Proof

/-- Why bytes are no instruction: the four sets of unmatched words of R87, or fewer than the two
bytes every instruction has (R80; fetch never hands over fewer). -/
inductive DecodeError where
  /-- `0XNN` with `NN` neither E0 nor EE. -/
  | unmatched0
  /-- `8XYN` with `N` in 8 to D or F. -/
  | unmatched8
  /-- `EXNN` with `NN` neither 9E nor A1. -/
  | unmatchedE
  /-- `FXNN` with `NN` none of the nine selectors. -/
  | unmatchedF
  /-- Fewer than two bytes. -/
  | truncated
  deriving DecidableEq, Repr

/-- `C`, the instruction class, bits 15:12 (R81). -/
def fieldC (w : Word) : BitVec 4 := w.extractLsb' 12 4

/-- `X`, bits 11:8 (R81). -/
def fieldX (w : Word) : Reg := (w.extractLsb' 8 4).toFin

/-- `Y`, bits 7:4 (R81). -/
def fieldY (w : Word) : Reg := (w.extractLsb' 4 4).toFin

/-- `N`, bits 3:0 (R81). -/
def fieldN (w : Word) : BitVec 4 := w.extractLsb' 0 4

/-- `NN`, bits 7:0 (R81). -/
def fieldNN (w : Word) : Byte := w.extractLsb' 0 8

/-- `NNN`, bits 11:0 (R81). -/
def fieldNNN (w : Word) : BitVec 12 := w.extractLsb' 0 12

/-- Class 0: the byte `NN` selects (R84). -/
def decodeClass0 (w : Word) : Except DecodeError Instr :=
  match (fieldNN w).toNat with
  | 0xE0 => .ok .cls
  | 0xEE => .ok .ret
  | _ => .error .unmatched0

/-- Class 8: the nibble `N` selects (R84). -/
def decodeClass8 (w : Word) : Except DecodeError Instr :=
  match (fieldN w).toNat with
  | 0x0 => .ok (.ldReg (fieldX w) (fieldY w))
  | 0x1 => .ok (.orReg (fieldX w) (fieldY w))
  | 0x2 => .ok (.andReg (fieldX w) (fieldY w))
  | 0x3 => .ok (.xorReg (fieldX w) (fieldY w))
  | 0x4 => .ok (.addReg (fieldX w) (fieldY w))
  | 0x5 => .ok (.sub (fieldX w) (fieldY w))
  | 0x6 => .ok (.shr (fieldX w))
  | 0x7 => .ok (.subn (fieldX w) (fieldY w))
  | 0xE => .ok (.shl (fieldX w))
  | _ => .error .unmatched8

/-- Class E: the byte `NN` selects (R84). -/
def decodeClassE (w : Word) : Except DecodeError Instr :=
  match (fieldNN w).toNat with
  | 0x9E => .ok (.skp (fieldX w))
  | 0xA1 => .ok (.sknp (fieldX w))
  | _ => .error .unmatchedE

/-- Class F: the byte `NN` selects (R84). -/
def decodeClassF (w : Word) : Except DecodeError Instr :=
  match (fieldNN w).toNat with
  | 0x07 => .ok (.ldVxDT (fieldX w))
  | 0x0A => .ok (.ldVxK (fieldX w))
  | 0x15 => .ok (.ldDTVx (fieldX w))
  | 0x18 => .ok (.ldSTVx (fieldX w))
  | 0x1E => .ok (.addI (fieldX w))
  | 0x29 => .ok (.ldF (fieldX w))
  | 0x33 => .ok (.ldB (fieldX w))
  | 0x55 => .ok (.ldMemVx (fieldX w))
  | 0x65 => .ok (.ldVxMem (fieldX w))
  | _ => .error .unmatchedF

/-- The decoder of R84: the class first, and a selector where the class alone does not decide. The
last arm is class F, the only one the fifteen above leave of a 4-bit field. -/
def decodeWord (w : Word) : Except DecodeError Instr :=
  match (fieldC w).toNat with
  | 0x0 => decodeClass0 w
  | 0x1 => .ok (.jp (fieldNNN w))
  | 0x2 => .ok (.call (fieldNNN w))
  | 0x3 => .ok (.seImm (fieldX w) (fieldNN w))
  | 0x4 => .ok (.sneImm (fieldX w) (fieldNN w))
  | 0x5 => .ok (.seReg (fieldX w) (fieldY w))
  | 0x6 => .ok (.ldImm (fieldX w) (fieldNN w))
  | 0x7 => .ok (.addImm (fieldX w) (fieldNN w))
  | 0x8 => decodeClass8 w
  | 0x9 => .ok (.sneReg (fieldX w) (fieldY w))
  | 0xA => .ok (.ldI (fieldNNN w))
  | 0xB => .ok (.jpV0 (fieldNNN w))
  | 0xC => .ok (.rnd (fieldX w) (fieldNN w))
  | 0xD => .ok (.drw (fieldX w) (fieldY w) (fieldN w))
  | 0xE => decodeClassE w
  | _ => decodeClassF w

/-- The big-endian word of two bytes: the byte at the lower address is bits 15:8 (20_memory.md R54). -/
def wordOfBytes (hi lo : Byte) : Word := hi ++ lo

/-- The two bytes of a word, the lower address first (R54). -/
def bytesOfWord (w : Word) : List Byte := [w.extractLsb' 8 8, w.extractLsb' 0 8]

/-- Decoding bytes: every instruction is exactly the first two of them (R80). Answers the
instruction and the bytes after it. -/
def decode : List Byte → Except DecodeError (Instr × List Byte)
  | hi :: lo :: rest =>
    match decodeWord (wordOfBytes hi lo) with
    | .ok i => .ok (i, rest)
    | .error e => .error e
  | [_] | [] => .error .truncated

/-- The instruction the decoder reads from a table row's word. The table numbers bit 0 as the least
significant bit of the one 16-bit instruction word (R81), which lies big-endian in memory (R54). -/
def decodeTableWord (nbits w : Nat) : Option Instr :=
  match decode (bytesOfWord (BitVec.ofNat 16 (w % 2 ^ nbits))) with
  | .ok (i, _) => some i
  | .error _ => none

/-! ### The encoder, from the patterns of R82 and R86 -/

/-- Formats `A`: class and address. -/
def encodeA (c : BitVec 4) (nnn : BitVec 12) : Word := c ++ nnn

/-- Format `RI`, and `R`, `Z` with a fixed low byte: class, `X`, low byte. -/
def encodeRI (c : BitVec 4) (x : Reg) (nn : Byte) : Word := c ++ (BitVec.ofFin x : BitVec 4) ++ nn

/-- Formats `RR` and `RRN`: class, `X`, `Y`, low nibble. -/
def encodeRR (c : BitVec 4) (x y : Reg) (n : BitVec 4) : Word :=
  c ++ (BitVec.ofFin x : BitVec 4) ++ (BitVec.ofFin y : BitVec 4) ++ n

/-- The canonical word of an instruction: ignored nibbles are zero (R85, R86). -/
def encodeWord : Instr → Word
  | .cls => encodeRI 0x0 0 0xE0
  | .ret => encodeRI 0x0 0 0xEE
  | .jp nnn => encodeA 0x1 nnn
  | .call nnn => encodeA 0x2 nnn
  | .seImm x nn => encodeRI 0x3 x nn
  | .sneImm x nn => encodeRI 0x4 x nn
  | .seReg x y => encodeRR 0x5 x y 0x0
  | .ldImm x nn => encodeRI 0x6 x nn
  | .addImm x nn => encodeRI 0x7 x nn
  | .ldReg x y => encodeRR 0x8 x y 0x0
  | .orReg x y => encodeRR 0x8 x y 0x1
  | .andReg x y => encodeRR 0x8 x y 0x2
  | .xorReg x y => encodeRR 0x8 x y 0x3
  | .addReg x y => encodeRR 0x8 x y 0x4
  | .sub x y => encodeRR 0x8 x y 0x5
  | .shr x => encodeRR 0x8 x 0 0x6
  | .subn x y => encodeRR 0x8 x y 0x7
  | .shl x => encodeRR 0x8 x 0 0xE
  | .sneReg x y => encodeRR 0x9 x y 0x0
  | .ldI nnn => encodeA 0xA nnn
  | .jpV0 nnn => encodeA 0xB nnn
  | .rnd x nn => encodeRI 0xC x nn
  | .drw x y n => encodeRR 0xD x y n
  | .skp x => encodeRI 0xE x 0x9E
  | .sknp x => encodeRI 0xE x 0xA1
  | .ldVxDT x => encodeRI 0xF x 0x07
  | .ldDTVx x => encodeRI 0xF x 0x15
  | .ldSTVx x => encodeRI 0xF x 0x18
  | .ldVxK x => encodeRI 0xF x 0x0A
  | .addI x => encodeRI 0xF x 0x1E
  | .ldF x => encodeRI 0xF x 0x29
  | .ldB x => encodeRI 0xF x 0x33
  | .ldMemVx x => encodeRI 0xF x 0x55
  | .ldVxMem x => encodeRI 0xF x 0x65

/-- The bytes of an instruction as they lie in memory. -/
def encode (i : Instr) : List Byte := bytesOfWord (encodeWord i)

/-! ### The opcode table of R86, transcribed on its own and not used by the decoder -/

/-- A row of R86: a word selects it when `w &&& mask = pattern`. -/
structure OpcodeRow where
  mask : Word
  pattern : Word
  deriving DecidableEq, Repr

/-- R86: a word selects a row iff `W & mask = match`. -/
def OpcodeRow.selects (r : OpcodeRow) (w : Word) : Bool := w &&& r.mask == r.pattern

/-- The row of R86 an instruction stands in. -/
def Instr.row : Instr → OpcodeRow
  | .cls => ⟨0xF0FF, 0x00E0⟩
  | .ret => ⟨0xF0FF, 0x00EE⟩
  | .jp _ => ⟨0xF000, 0x1000⟩
  | .call _ => ⟨0xF000, 0x2000⟩
  | .seImm _ _ => ⟨0xF000, 0x3000⟩
  | .sneImm _ _ => ⟨0xF000, 0x4000⟩
  | .seReg _ _ => ⟨0xF000, 0x5000⟩
  | .ldImm _ _ => ⟨0xF000, 0x6000⟩
  | .addImm _ _ => ⟨0xF000, 0x7000⟩
  | .ldReg _ _ => ⟨0xF00F, 0x8000⟩
  | .orReg _ _ => ⟨0xF00F, 0x8001⟩
  | .andReg _ _ => ⟨0xF00F, 0x8002⟩
  | .xorReg _ _ => ⟨0xF00F, 0x8003⟩
  | .addReg _ _ => ⟨0xF00F, 0x8004⟩
  | .sub _ _ => ⟨0xF00F, 0x8005⟩
  | .shr _ => ⟨0xF00F, 0x8006⟩
  | .subn _ _ => ⟨0xF00F, 0x8007⟩
  | .shl _ => ⟨0xF00F, 0x800E⟩
  | .sneReg _ _ => ⟨0xF000, 0x9000⟩
  | .ldI _ => ⟨0xF000, 0xA000⟩
  | .jpV0 _ => ⟨0xF000, 0xB000⟩
  | .rnd _ _ => ⟨0xF000, 0xC000⟩
  | .drw _ _ _ => ⟨0xF000, 0xD000⟩
  | .skp _ => ⟨0xF0FF, 0xE09E⟩
  | .sknp _ => ⟨0xF0FF, 0xE0A1⟩
  | .ldVxDT _ => ⟨0xF0FF, 0xF007⟩
  | .ldDTVx _ => ⟨0xF0FF, 0xF015⟩
  | .ldSTVx _ => ⟨0xF0FF, 0xF018⟩
  | .ldVxK _ => ⟨0xF0FF, 0xF00A⟩
  | .addI _ => ⟨0xF0FF, 0xF01E⟩
  | .ldF _ => ⟨0xF0FF, 0xF029⟩
  | .ldB _ => ⟨0xF0FF, 0xF033⟩
  | .ldMemVx _ => ⟨0xF0FF, 0xF055⟩
  | .ldVxMem _ => ⟨0xF0FF, 0xF065⟩

/-- One instruction of every row, in the order of R86, so that the table can be listed. -/
def rowRepresentatives : List Instr :=
  [.cls, .ret, .jp 0, .call 0, .seImm 0 0, .sneImm 0 0, .seReg 0 0, .ldImm 0 0, .addImm 0 0,
   .ldReg 0 0, .orReg 0 0, .andReg 0 0, .xorReg 0 0, .addReg 0 0, .sub 0 0, .shr 0, .subn 0 0] ++
  [.shl 0, .sneReg 0 0, .ldI 0, .jpV0 0, .rnd 0 0, .drw 0 0 0, .skp 0, .sknp 0, .ldVxDT 0,
   .ldDTVx 0, .ldSTVx 0, .ldVxK 0, .addI 0, .ldF 0, .ldB 0, .ldMemVx 0, .ldVxMem 0]

/-- The 34 rows of R86. -/
def opcodeTable : List OpcodeRow := rowRepresentatives.map Instr.row

end Sys2Proof
end

