-- ==== Sys2Proof/Machine/State.lean ====
section
/-! DEFINITION. The state of the core (10_state.md R20) with the parameters of the run (00_scope.md
R8), the outputs of the last call (R42) and the driver's calls still to come, as plain data; the
faults of 60_exceptions.md R190; the refusals; the state after reset (R45). -/

namespace Sys2Proof.Machine

/-- The kind of access an AddressFault reports (R57, R190). -/
inductive AccessKind where
  | fetch
  | data
  deriving DecidableEq, Repr

/-- The six faults of R190 with the information recorded; `a` is the address of the instruction.
They are reported in `State.fault` and recorded in `State.faults`: the machine goes on to a next
state that the spec describes (R196 to R199), so NO step ends in the host's fault outcome, and a
constructor is raised where its docstring says. SAFE: nothing is left out by it. -/
inductive Fault where
  /-- Code 1, raised by the instruction cycle on a word that matches no row (R191). -/
  | decode (w a : Word)
  /-- Code 2, raised by CALL at depth 16 (R192). -/
  | stackOverflow (a : Word)
  /-- Code 3, raised by RET at depth 0 (R193). -/
  | stackUnderflow (a : Word)
  /-- Code 4, raised by Reset on a ROM longer than 3584 bytes (R222). -/
  | romTooLarge (length : Nat)
  /-- Code 5, raised by fetch and by DRW, LD B, LD [I] and LD Vx,[I] on a range outside memory; `addr`
  is the lowest address out of range (R57, R194). -/
  | address (kind : AccessKind) (addr : Nat) (a : Word)
  /-- Code 6, raised by SKP and SKNP on a key number above 15 (R195). -/
  | keyRange (value : Byte) (a : Word)
  deriving DecidableEq, Repr

/-- Why a step has no meaning. Every one but the first is a driver call outside the interface, which
the spec says the model refuses. SAFE, all of them: the machine stops where the spec gives no
behaviour. -/
inductive Refusal where
  /-- An instruction without a meaning; no arm of `exec` answers it. -/
  | notModelled (mnemonic : String)
  /-- Raised by an Advance call after a failed Reset (70_reset_and_hazards.md R222). -/
  | advanceAfterFailedReset
  /-- Raised by an Advance call with negative elapsed time (R181). -/
  | negativeElapsed
  /-- Raised by an Advance call whose snapshot has not exactly 16 keys (R181). -/
  | badKeySnapshot
  /-- Raised by a Reset call whose parameters break a constraint of R8. -/
  | illegalParameters
  deriving DecidableEq, Repr

/-- Memory: the bytes that differ from the initial image, by strictly rising address
(20_memory.md R50; `Memory.wf` in Machine/Ops.lean states the form). -/
abbrev Memory := List Host.Cell

/-- The state of the core. -/
structure State where
  /-- `MEM` (R50), relative to the image Reset makes of font and zeros (R51). -/
  mem : Memory
  /-- `V[0]` to `V[15]` (R21). -/
  v : Vector Byte 16
  /-- `I` (R23). -/
  i : Word
  /-- `PC` (R24). -/
  pc : Word
  /-- `STACK[0]` to `STACK[15]` (R26). -/
  stack : Vector Word 16
  /-- `SP`, the stack depth 0 to 16 (R26). -/
  sp : Fin 17
  /-- `FB`: row y is the y-th entry, and bit x of a row is column x (R30). -/
  fb : Vector (BitVec 64) 32
  /-- `DT` (R32). -/
  dt : Byte
  /-- `ST` (R32). -/
  st : Byte
  /-- `KEYS`: bit k is logical key k (R34, R37). -/
  keys : BitVec 16
  /-- `IACC`, microseconds (R35). -/
  iacc : Rat
  /-- `TACC`, microseconds (R35). -/
  tacc : Rat
  /-- `HALT` (R36). -/
  halt : Bool
  /-- `FAULTS`: bit c-1 is set once fault code c was raised (R36). -/
  faults : BitVec 6
  /-- The parameters of this run (00_scope.md R8). -/
  params : Params
  /-- Output `frame_ready` of the last call (R42). -/
  frameReady : Bool
  /-- Output `fault` of the last call (R42); inside a call, the fault its instruction raised. -/
  fault : Option Fault
  /-- MODEL: the last Reset succeeded (R222). -/
  ready : Bool
  /-- MODEL: the byte drawn for this call (R41, R166), a free value. -/
  rnd : Byte
  /-- MODEL: driver calls placed and not yet taken, oldest first (R180). -/
  inbox : List DriverCall
  /-- MODEL: the index of the next free driver call, taken when `inbox` is empty. -/
  calls : Nat
  deriving DecidableEq, Repr

/-- The state after a successful Reset with the empty ROM and the parameters of
`Config.defaultParams` (R45; R220): the base state of 95_test_vectors.md. The stack entries are
unspecified there (DESIGN CHOICE 0, notes/assumptions/8.md). -/
def State.reset : State where
  mem := []
  v := Vector.replicate 16 0
  i := 0
  pc := 0x200
  stack := Vector.replicate 16 0
  sp := 0
  fb := Vector.replicate 32 0
  dt := 0
  st := 0
  keys := 0
  iacc := 0
  tacc := 0
  halt := false
  faults := 0
  params := Config.defaultParams
  frameReady := false
  fault := none
  ready := true
  rnd := 0
  inbox := []
  calls := 0

end Sys2Proof.Machine
end

