-- ==== Sys2Proof/Machine/Ops.lean ====
section
/-! DEFINITION. The named operations over memory, registers, stack, framebuffer and faults that the
instruction meanings share (10_state.md, 20_memory.md, 60_exceptions.md), and Reset
(70_reset_and_hazards.md R220). -/

namespace Sys2Proof.Machine

/-! ### Memory (20_memory.md) -/

/-- What an address holds before anything is written: a font byte or 0 (R45, R51, R220). This is
what an unlisted address reads as. -/
def initialByte (p : Params) (a : Nat) : Byte :=
  if p.fontBase ≤ a ∧ a < p.fontBase + fontBytes then p.font.getD (a - p.fontBase) 0 else 0

/-- The byte at an address (R52). Callers test the range first (R56). -/
def Memory.read (p : Params) (m : Memory) (a : Nat) : Byte :=
  match m with
  | [] => initialByte p a
  | (b, w) :: rest => if a = b then w else Memory.read p rest a

/-- The canonical list with `v` at `a`: in address order, and without an entry for an address that
holds its initial byte. -/
def Memory.put (p : Params) (m : Memory) (a : Nat) (v : Byte) : Memory :=
  match m with
  | [] => if v = initialByte p a then [] else [(a, v)]
  | (b, w) :: rest =>
    if a < b then (if v = initialByte p a then (b, w) :: rest else (a, v) :: (b, w) :: rest)
    else if a = b then (if v = initialByte p a then rest else (a, v) :: rest)
    else (b, w) :: Memory.put p rest a v

/-- Write one byte (R53). Callers test the range first (R56); outside memory nothing is written. -/
def Memory.write (p : Params) (m : Memory) (a : Nat) (v : Byte) : Memory :=
  if a < memSize then Memory.put p m a v else m

/-- Write bytes at ascending addresses from `a` (R58). -/
def Memory.writeBytes (p : Params) (m : Memory) (a : Nat) : List Byte → Memory
  | [] => m
  | v :: vs => Memory.writeBytes p (Memory.write p m a v) (a + 1) vs

/-- The memory that holds the given bytes from `a` on and the initial image elsewhere (R220). -/
def Memory.ofBytes (p : Params) (a : Nat) : List Byte → Memory
  | [] => []
  | v :: vs =>
    if v = initialByte p a then Memory.ofBytes p (a + 1) vs
    else (a, v) :: Memory.ofBytes p (a + 1) vs

/-- Addresses strictly rise, from `lo` on. -/
def Memory.risingFrom (lo : Nat) : Memory → Bool
  | [] => true
  | (a, _) :: rest => decide (lo ≤ a) && Memory.risingFrom (a + 1) rest

/-- An entry says something: its address exists and its byte is not the initial one. -/
def Memory.cellOk (p : Params) (c : Host.Cell) : Bool :=
  decide (c.1 < memSize) && decide (c.2 ≠ initialByte p c.1)

/-- The canonical form of memory, so that equal memories are equal lists. -/
def Memory.wf (p : Params) (m : Memory) : Bool :=
  Memory.risingFrom 0 m && m.all (Memory.cellOk p)

/-- `MEM[a]` (R52). -/
def State.readByte (s : State) (a : Nat) : Byte := Memory.read s.params s.mem a

/-- The n bytes from `a` on (R58). -/
def State.readBytes (s : State) (a n : Nat) : List Byte :=
  (List.range n).map fun k => s.readByte (a + k)

/-- Write bytes from `a` on (R53, R58). -/
def State.writeBytes (s : State) (a : Nat) (bs : List Byte) : State :=
  { s with mem := Memory.writeBytes s.params s.mem a bs }

/-- n bytes from `a` on lie inside memory, in unbounded integers; no bytes at all always do (R57). -/
def inMemory (a n : Nat) : Bool := decide (n = 0 ∨ a + n ≤ memSize)

/-- The lowest address out of range of an access that starts at `a` and leaves memory (R57). -/
def firstBadAddress (a : Nat) : Nat := max a memSize

/-! ### Registers (10_state.md) -/

/-- `V[x]` (R21). -/
def State.getV (s : State) (x : Reg) : Byte := s.v[x.val]

/-- `V[x] <- b` (R21). -/
def State.setV (s : State) (x : Reg) (b : Byte) : State := { s with v := s.v.set x.val b }

/-- Write a result to `V[x]` and then the flag to VF, so that VF holds the flag also when x is F
(00_scope.md R12, 42_alu.md). -/
def State.setVThenFlag (s : State) (x : Reg) (b flag : Byte) : State := (s.setV x b).setV vf flag

/-- `V[0]` to `V[x]` from a list of bytes, entry k to `V[k]`; the others keep their values (R145). -/
def State.loadV (s : State) (x : Reg) (bs : List Byte) : State :=
  { s with v := Vector.ofFn fun k : Fin 16 => if k ≤ x then bs.getD k.val 0 else s.getV k }

/-- The values of `V[0]` to `V[x]` (R144). -/
def State.firstV (s : State) (x : Reg) : List Byte := s.v.toList.take (x.val + 1)

/-- `I <- w` (R23). -/
def State.setI (s : State) (w : Word) : State := { s with i := w }

/-- `pc <- w` (R24). -/
def State.setPc (s : State) (w : Word) : State := { s with pc := w }

/-- `DT <- b` (R32). -/
def State.setDT (s : State) (b : Byte) : State := { s with dt := b }

/-- `ST <- b` (R32). -/
def State.setST (s : State) (b : Byte) : State := { s with st := b }

/-- The tone output, a standing output (R43). -/
def State.tone (s : State) : Bool := s.st != 0

/-- The address the executing instruction was fetched from: `PC` has been advanced by 2 (R170). -/
def State.instrAddr (s : State) : Word := s.pc - 2

/-- Advance `PC` by one more instruction width, the effect of a skip (00_scope.md R13). -/
def State.skipNext (s : State) : State := s.setPc (s.pc + 2)

/-- Undo the fetch's advance, so that the same instruction is fetched again (R162). -/
def State.rewind (s : State) : State := s.setPc (s.pc - 2)

/-! ### The call stack (10_state.md R26 to R28) -/

/-- `Push(addr)`: none when the depth is already 16 (R27). -/
def State.push (s : State) (addr : Word) : Option State :=
  if h : s.sp.val < 16 then
    some { s with stack := s.stack.set s.sp.val addr, sp := ⟨s.sp.val + 1, by omega⟩ }
  else none

/-- `Pop()`: the stored value and the state one level up; none when the depth is 0. The popped
entry keeps its contents (R28). -/
def State.pop (s : State) : Option (Word × State) :=
  if h : 0 < s.sp.val then
    some (s.stack[s.sp.val - 1], { s with sp := ⟨s.sp.val - 1, by omega⟩ })
  else none

/-! ### The framebuffer (10_state.md R30, R31; 44_display.md) -/

/-- The cell in row y and column x, false outside the grid (R30). -/
def State.pixel (s : State) (y x : Nat) : Bool :=
  if h : y < 32 then s.fb[y].getLsbD x else false

/-- Every cell false (R150). -/
def State.clearFb (s : State) : State := { s with fb := Vector.replicate 32 0 }

/-- One sprite byte laid into a framebuffer row with its leftmost pixel, bit 7, at column `x0`;
columns past 63 are dropped (R151). -/
def spriteRow (x0 : Nat) (b : Byte) : BitVec 64 := (b.reverse.setWidth 64) <<< x0

/-- The cells of framebuffer row y that the sprite toggles: sprite row r lies in row `y0 + r`, and
rows past the bottom edge meet no y (R151). -/
def spriteMask (rows : List Byte) (x0 y0 y : Nat) : BitVec 64 :=
  if y < y0 then 0
  else
    match rows[y - y0]? with
    | some b => spriteRow x0 b
    | none => 0

/-- Some toggled cell is on before the draw: the collision of R151. Within one draw a cell is
toggled at most once, so "flips from on to off" is "was on and is toggled". -/
def State.spriteCollides (s : State) (rows : List Byte) (x0 y0 : Nat) : Bool :=
  (List.finRange 32).any fun y => s.fb[y.val] &&& spriteMask rows x0 y0 y.val != 0

/-- XOR the sprite onto the framebuffer (R151). -/
def State.xorSprite (s : State) (rows : List Byte) (x0 y0 : Nat) : State :=
  { s with fb := Vector.ofFn fun y : Fin 32 => s.fb[y.val] ^^^ spriteMask rows x0 y0 y.val }

/-! ### Faults (60_exceptions.md) -/

/-- The numeric code of a fault (R190). -/
def Fault.code : Fault → Nat
  | .decode _ _ => 1
  | .stackOverflow _ => 2
  | .stackUnderflow _ => 3
  | .romTooLarge _ => 4
  | .address _ _ _ => 5
  | .keyRange _ _ => 6

/-- Whether a fault halts the core (R190, R198, R199). ROMTooLarge never arises in an Advance call
(R222); Reset has its own failure. -/
def Fault.halting (policy : DecodeFaultPolicy) : Fault → Bool
  | .decode _ _ => policy == .halt
  | .stackOverflow _ | .stackUnderflow _ | .address _ _ _ | .keyRange _ _ => true
  | .romTooLarge _ => false

/-- `raise F(info)`: the instruction cycle ends at once and reports the fault; nothing else of the
state changes (R196, R197). `FAULTS` and `HALT` are Advance's to set (R171), see `takeFault`. -/
def raise (f : Fault) (s : State) : Host.Outcome State Fault Refusal :=
  .next { s with fault := some f }

/-- TAKING A FAULT, the one operation for all of them: Advance sets the sticky bit of the fault the
instruction cycle reported and, if it is halting, `HALT` (R176, R196, R198). There is no handler,
no saved pc and no return (R204). -/
def takeFault (s : State) : State :=
  match s.fault with
  | none => s
  | some f =>
    { s with
      faults := s.faults ||| (1#6 <<< (f.code - 1))
      halt := s.halt || f.halting s.params.policy }

/-- Run a data access on the n bytes at `I` if the whole range lies in memory, else raise
AddressFault before anything is read or written (R57). -/
def withDataRange (n : Nat) (s : State) (access : State → State) : Host.Outcome State Fault Refusal :=
  if inMemory s.i.toNat n then .next (access s)
  else raise (.address .data (firstBadAddress s.i.toNat) s.instrAddr) s

/-! ### Reset (70_reset_and_hazards.md) -/

/-- Reset: every field at its reset value, the parameters of the new run, the ROM from 0x200 on.
A ROM that is too long is reported before anything is written, and the core is not ready for
Advance (R220, R222). The driver's own fields stand. -/
def resetCore (rom : List Byte) (p : Params) (s : State) : State :=
  if romMax < rom.length then
    { s with fault := some (.romTooLarge rom.length), frameReady := false, ready := false }
  else
    { State.reset with
      params := p
      mem := Memory.ofBytes p progBase rom
      inbox := s.inbox
      calls := s.calls }

end Sys2Proof.Machine
end

