-- ==== Sys2Proof/Machine/Clock.lean ====
section
/-! DEFINITION. The clocks (46_cycle_scheduler_timers.md): exact rational microseconds, the two
accumulators and the timer tick. The rational operations are spelled out over numerators and
denominators so that they compute under evaluation; Laws/Clock.lean proves them equal to the
library's. -/

namespace Sys2Proof.Machine

/-- `a + b`. -/
def usAdd (a b : Rat) : Rat := mkRat (a.num * b.den + b.num * a.den) (a.den * b.den)

/-- `a - b`. -/
def usSub (a b : Rat) : Rat := mkRat (a.num * b.den - b.num * a.den) (a.den * b.den)

/-- `a ≤ b`. -/
def usLe (a b : Rat) : Bool := decide (a.num * b.den ≤ b.num * a.den)

/-- `q mod p = q − p·floor(q / p)`, for positive p (R175). -/
def usMod (q p : Rat) : Rat :=
  mkRat (q.num * p.den - (q.num * p.den) / (q.den * p.num) * (p.num * q.den)) (q.den * p.den)

/-- "Reaches": greater than or equal (R176). -/
def reaches (acc period : Rat) : Bool := usLe period acc

/-- `tick()` of one timer: decrement if nonzero (R173). -/
def tickTimer (b : Byte) : Byte := if b = 0 then 0 else b - 1

/-- TimerTick: both timers together, nothing else (R173). -/
def timerTick (s : State) : State := { s with dt := tickTimer s.dt, st := tickTimer s.st }

/-- The 16-bit key latch of a snapshot: entry k is bit k (R34, R37). -/
def keyBits : List Bool → BitVec 16
  | [] => 0
  | b :: bs => (keyBits bs <<< 1) ||| (if b then 1 else 0)

/-- The snapshot that a key latch holds. -/
def keyList (keys : BitVec 16) : List Bool := (List.range nKeys).map fun k => keys.getLsbD k

/-- The first lines of Advance: the keys are copied in, the draw of this call is at hand, the
elapsed time is added to both accumulators, no fault is reported yet (R176). -/
def latchCall (elapsed : Rat) (keys : List Bool) (rnd : Byte) (s : State) : State :=
  { s with
    keys := keyBits keys
    rnd := rnd
    iacc := usAdd s.iacc elapsed
    tacc := usAdd s.tacc elapsed
    fault := none
    frameReady := false }

/-- `IACC <- IACC mod IPERIOD` (R176). -/
def drainIacc (s : State) : State := { s with iacc := usMod s.iacc s.params.iperiod }

/-- The timer part of Advance: at most one tick, the backlog dropped, frame-ready exactly when a
tick was made (R176, R177, R178). -/
def timerPart (s : State) : State :=
  if reaches s.tacc tperiod then
    { timerTick s with tacc := usMod s.tacc tperiod, frameReady := true }
  else { s with frameReady := false }

end Sys2Proof.Machine
end

