-- ==== Sys2Proof/Machine/Operands.lean ====
section
/-! DEFINITION. The operand forms (30_encoding.md R83 and the operand clauses of the instruction
rules): immediates, register operands, key numbers, glyph addresses, sprite origins, digits. -/

namespace Sys2Proof.Machine

/-- `NNN` zero-extended to 16 bits (R83). -/
def addr12 (nnn : BitVec 12) : Word := nnn.setWidth 16

/-- A register zero-extended to 16 bits (R103, R141). -/
def State.getV16 (s : State) (x : Reg) : Word := (s.getV x).setWidth 16

/-- The target of BNNN: `NNN + V[0]`, not reduced to 12 bits (R103). -/
def State.offsetTarget (s : State) (nnn : BitVec 12) : Word := addr12 nnn + s.getV16 0

/-- Whether the key of a number 0 to 15 is down in the snapshot (R34). -/
def State.keyDown (s : State) (k : Nat) : Bool := s.keys.getLsbD k

/-- The lowest pressed key (R162). -/
def State.lowestKey (s : State) : Option Reg := (List.finRange 16).find? fun k => s.keyDown k.val

/-- `FONT_BASE + 5·(x & 0x0F)` (R142). -/
def State.glyphAddr (s : State) (b : Byte) : Word :=
  BitVec.ofNat 16 (s.params.fontBase + 5 * (b &&& 0x0F).toNat)

/-- The hundreds, tens and ones digit of a byte (R143). -/
def decimalDigits (b : Byte) : List Byte := [b / 100, b / 10 % 10, b % 10]

/-- The column a draw starts at: the origin wraps (R151). -/
def State.originX (s : State) (x : Reg) : Nat := (s.getV x).toNat % fbWidth

/-- The row a draw starts at: the origin wraps (R151). -/
def State.originY (s : State) (y : Reg) : Nat := (s.getV y).toNat % fbHeight

/-- The n sprite bytes at `I` (R151). -/
def State.sprite (s : State) (n : BitVec 4) : List Byte := s.readBytes s.i.toNat n.toNat

end Sys2Proof.Machine
end

