-- ==== Sys2Proof/Machine/Flags.lean ====
section
/-! DEFINITION. Every value that VF receives as a flag (10_state.md R22). -/

namespace Sys2Proof.Machine

/-- A flag as the byte VF holds: 1 or 0. -/
def flagByte (b : Bool) : Byte := if b then 1 else 0

/-- 8XY4: the sum passes 255 (R126). -/
def carryFlag (x y : Byte) : Byte := flagByte (decide (255 < x.toNat + y.toNat))

/-- 8XY5 and, with the operands exchanged, 8XY7: no borrow, equality included (R127, R129). -/
def notBorrowFlag (x y : Byte) : Byte := flagByte (decide (y.toNat ≤ x.toNat))

/-- 8XY6: the bit shifted out to the right (R128). -/
def lowBitFlag (x : Byte) : Byte := flagByte (x.getLsbD 0)

/-- 8XYE: the bit shifted out to the left (R130). -/
def highBitFlag (x : Byte) : Byte := flagByte (x.getLsbD 7)

/-- FX1E: the sum passes 65535 (R141). -/
def indexCarryFlag (i : Word) (x : Byte) : Byte := flagByte (decide (65535 < i.toNat + x.toNat))

/-- DXYN: a pixel goes from on to off (R151). -/
def collisionFlag (s : State) (rows : List Byte) (x0 y0 : Nat) : Byte :=
  flagByte (s.spriteCollides rows x0 y0)

end Sys2Proof.Machine
end

