-- ==== Sys2Proof/Machine/Alu.lean ====
section
/-! DEFINITION. Register load and arithmetic (42_alu.md). Operands are read before any write, the
result is written first and VF last (00_scope.md R12). -/

namespace Sys2Proof.Machine

/-- 6XNN (R120). -/
def execLdImm (x : Reg) (nn : Byte) (s : State) : Host.Outcome State Fault Refusal :=
  .next (s.setV x nn)

/-- 7XNN: wraps, VF is not a flag here (R121). -/
def execAddImm (x : Reg) (nn : Byte) (s : State) : Host.Outcome State Fault Refusal :=
  .next (s.setV x (s.getV x + nn))

/-- 8XY0 (R122). -/
def execLdReg (x y : Reg) (s : State) : Host.Outcome State Fault Refusal :=
  .next (s.setV x (s.getV y))

/-- 8XY1 (R123). -/
def execOrReg (x y : Reg) (s : State) : Host.Outcome State Fault Refusal :=
  .next (s.setV x (s.getV x ||| s.getV y))

/-- 8XY2 (R124). -/
def execAndReg (x y : Reg) (s : State) : Host.Outcome State Fault Refusal :=
  .next (s.setV x (s.getV x &&& s.getV y))

/-- 8XY3 (R125). -/
def execXorReg (x y : Reg) (s : State) : Host.Outcome State Fault Refusal :=
  .next (s.setV x (s.getV x ^^^ s.getV y))

/-- 8XY4 (R126). -/
def execAddReg (x y : Reg) (s : State) : Host.Outcome State Fault Refusal :=
  .next (s.setVThenFlag x (s.getV x + s.getV y) (carryFlag (s.getV x) (s.getV y)))

/-- 8XY5 (R127). -/
def execSub (x y : Reg) (s : State) : Host.Outcome State Fault Refusal :=
  .next (s.setVThenFlag x (s.getV x - s.getV y) (notBorrowFlag (s.getV x) (s.getV y)))

/-- 8XY6: shifts `V[X]` in place (R128). -/
def execShr (x : Reg) (s : State) : Host.Outcome State Fault Refusal :=
  .next (s.setVThenFlag x (s.getV x >>> 1) (lowBitFlag (s.getV x)))

/-- 8XY7 (R129). -/
def execSubn (x y : Reg) (s : State) : Host.Outcome State Fault Refusal :=
  .next (s.setVThenFlag x (s.getV y - s.getV x) (notBorrowFlag (s.getV y) (s.getV x)))

/-- 8XYE: shifts `V[X]` in place (R130). -/
def execShl (x : Reg) (s : State) : Host.Outcome State Fault Refusal :=
  .next (s.setVThenFlag x (s.getV x <<< 1) (highBitFlag (s.getV x)))

end Sys2Proof.Machine
end

