-- ==== Sys2Proof/Machine/Display.lean ====
section
/-! DEFINITION. The framebuffer instructions (44_display.md). -/

namespace Sys2Proof.Machine

/-- 00E0 (R150). -/
def execCls (s : State) : Host.Outcome State Fault Refusal := .next s.clearFb

/-- The drawing of R151 once the range is known to be good: all N bytes and both coordinates are
read first, VF is written last. -/
def drawSprite (x y : Reg) (n : BitVec 4) (s : State) : State :=
  (s.xorSprite (s.sprite n) (s.originX x) (s.originY y)).setV vf
    (collisionFlag s (s.sprite n) (s.originX x) (s.originY y))

/-- DXYN (R151). The range test covers all N bytes, of clipped rows too; N = 0 reads nothing. -/
def execDrw (x y : Reg) (n : BitVec 4) (s : State) : Host.Outcome State Fault Refusal :=
  withDataRange n.toNat s (drawSprite x y n)

end Sys2Proof.Machine
end

