-- ==== Sys2Proof/Machine/Flow.lean ====
section
/-! DEFINITION. Control transfer (40_flow.md). `PC` is already past the instruction (R170). -/

namespace Sys2Proof.Machine

/-- 00EE (R100). -/
def execRet (s : State) : Host.Outcome State Fault Refusal :=
  match s.pop with
  | none => raise (.stackUnderflow s.instrAddr) s
  | some (addr, s') => .next (s'.setPc addr)

/-- 1NNN (R101). -/
def execJp (nnn : BitVec 12) (s : State) : Host.Outcome State Fault Refusal :=
  .next (s.setPc (addr12 nnn))

/-- 2NNN: pushes the address after the call (R102). -/
def execCall (nnn : BitVec 12) (s : State) : Host.Outcome State Fault Refusal :=
  match s.push s.pc with
  | none => raise (.stackOverflow s.instrAddr) s
  | some s' => .next (s'.setPc (addr12 nnn))

/-- BNNN (R103). -/
def execJpV0 (nnn : BitVec 12) (s : State) : Host.Outcome State Fault Refusal :=
  .next (s.setPc (s.offsetTarget nnn))

end Sys2Proof.Machine
end

