-- ==== Sys2Proof/Machine/IndexMemory.lean ====
section
/-! DEFINITION. The index register and memory transfer (43_index_memory.md). -/

namespace Sys2Proof.Machine

/-- ANNN (R140). -/
def execLdI (nnn : BitVec 12) (s : State) : Host.Outcome State Fault Refusal :=
  .next (s.setI (addr12 nnn))

/-- FX1E: VF is the carry out of 16 bits, always written, after the sum (R141). -/
def execAddI (x : Reg) (s : State) : Host.Outcome State Fault Refusal :=
  .next ((s.setI (s.i + s.getV16 x)).setV vf (indexCarryFlag s.i (s.getV x)))

/-- FX29 (R142). -/
def execLdF (x : Reg) (s : State) : Host.Outcome State Fault Refusal :=
  .next (s.setI (s.glyphAddr (s.getV x)))

/-- FX33 (R143). -/
def execLdB (x : Reg) (s : State) : Host.Outcome State Fault Refusal :=
  withDataRange 3 s fun s => s.writeBytes s.i.toNat (decimalDigits (s.getV x))

/-- FX55: `I` is unchanged (R144). -/
def execLdMemVx (x : Reg) (s : State) : Host.Outcome State Fault Refusal :=
  withDataRange (x.val + 1) s fun s => s.writeBytes s.i.toNat (s.firstV x)

/-- FX65: `I` is unchanged (R145). -/
def execLdVxMem (x : Reg) (s : State) : Host.Outcome State Fault Refusal :=
  withDataRange (x.val + 1) s fun s => s.loadV x (s.readBytes s.i.toNat (x.val + 1))

end Sys2Proof.Machine
end

