-- ==== Sys2Proof/Machine/Skip.lean ====
section
/-! DEFINITION. Conditional skips on registers (41_skip.md). -/

namespace Sys2Proof.Machine

/-- A skip: past the next instruction if the condition holds, else on (41_skip.md). -/
def skipIf (cond : Bool) (s : State) : Host.Outcome State Fault Refusal :=
  .next (if cond then s.skipNext else s)

/-- 3XNN (R110). -/
def execSeImm (x : Reg) (nn : Byte) (s : State) : Host.Outcome State Fault Refusal :=
  skipIf (s.getV x == nn) s

/-- 4XNN (R111). -/
def execSneImm (x : Reg) (nn : Byte) (s : State) : Host.Outcome State Fault Refusal :=
  skipIf (s.getV x != nn) s

/-- 5XY0 (R112). -/
def execSeReg (x y : Reg) (s : State) : Host.Outcome State Fault Refusal :=
  skipIf (s.getV x == s.getV y) s

/-- 9XY0 (R113). -/
def execSneReg (x y : Reg) (s : State) : Host.Outcome State Fault Refusal :=
  skipIf (s.getV x != s.getV y) s

end Sys2Proof.Machine
end

