-- ==== Sys2Proof/Machine/KeysTimersRandom.lean ====
section
/-! DEFINITION. Keys, timers and the random source (45_keys_timers_random.md). -/

namespace Sys2Proof.Machine

/-- EX9E and EXA1: skip if the key numbered by `V[X]` is (not) down; a number above 15 is a
KeyRangeFault (R160, R161, R195). -/
def skipIfKey (down : Bool) (x : Reg) (s : State) : Host.Outcome State Fault Refusal :=
  if 15 < (s.getV x).toNat then raise (.keyRange (s.getV x) s.instrAddr) s
  else skipIf (s.keyDown (s.getV x).toNat == down) s

/-- EX9E (R160). -/
def execSkp (x : Reg) (s : State) : Host.Outcome State Fault Refusal := skipIfKey true x s

/-- EXA1 (R161). -/
def execSknp (x : Reg) (s : State) : Host.Outcome State Fault Refusal := skipIfKey false x s

/-- FX0A: the lowest pressed key, or retry (R162). -/
def execLdVxK (x : Reg) (s : State) : Host.Outcome State Fault Refusal :=
  match s.lowestKey with
  | some k => .next (s.setV x (BitVec.ofNat 8 k.val))
  | none => .next s.rewind

/-- FX07 (R163). -/
def execLdVxDT (x : Reg) (s : State) : Host.Outcome State Fault Refusal := .next (s.setV x s.dt)

/-- FX15 (R164). -/
def execLdDTVx (x : Reg) (s : State) : Host.Outcome State Fault Refusal := .next (s.setDT (s.getV x))

/-- FX18 (R165). -/
def execLdSTVx (x : Reg) (s : State) : Host.Outcome State Fault Refusal := .next (s.setST (s.getV x))

/-- CXNN: the byte drawn for this call, a free value, under the mask (R166). -/
def execRnd (x : Reg) (nn : Byte) (s : State) : Host.Outcome State Fault Refusal :=
  .next (s.setV x (s.rnd &&& nn))

end Sys2Proof.Machine
end

