-- ==== Sys2Proof/Machine/Cycle.lean ====
section
/-! DEFINITION. The instruction cycle, the Advance transaction and the driver's side
(46_cycle_scheduler_timers.md R170, R176, R180). -/

namespace Sys2Proof.Machine

/-- The two bytes at `PC`, or nothing when one of them lies outside memory (R54, R57). -/
def fetch (s : State) : Option (List Byte) :=
  if s.pc.toNat + 2 ≤ memSize then some (s.readBytes s.pc.toNat 2) else none

/-- The instruction word fetched bytes make, for the DecodeFault's information (R54, R190). -/
def fetchedWord (bytes : List Byte) : Word := wordOfBytes (bytes.getD 0 0) (bytes.getD 1 0)

/-- One instruction cycle (R170): fetch, advance `PC`, decode, execute. A fault it raises stands in
`State.fault` (R171). -/
def instructionCycle (s : State) : Host.Outcome State Fault Refusal :=
  match fetch s with
  | none => raise (.address .fetch s.pc.toNat s.pc) s
  | some bytes =>
    match decode bytes with
    | .error _ => raise (.decode (fetchedWord bytes) s.pc) (s.setPc (s.pc + 2))
    | .ok (i, _) => exec i (s.setPc (s.pc + 2))

/-- What follows the instruction cycle in the same call: a fault is taken; a halting one ends the
call, else the accumulator is drained and the timer part runs (R176, R198). -/
def afterInstruction (s : State) : State :=
  let s := takeFault s
  if s.halt then s else timerPart (drainIacc s)

/-- The body of Advance on a core that is not halted (R176). -/
def advanceRunning (elapsed : Rat) (keys : List Bool) (rnd : Byte) (s : State) :
    Host.Outcome State Fault Refusal :=
  let s := latchCall elapsed keys rnd s
  if reaches s.iacc s.params.iperiod then
    match instructionCycle s with
    | .next s' => .next (afterInstruction s')
    | .fault f => .fault f
    | .refused r => .refused r
  else .next (timerPart s)

/-- Advance (R176). A halted core changes nothing and answers (false, none) (R198); the calls of
R181 and R222 that have no meaning are refused by name. -/
def advance (elapsed : Rat) (keys : List Bool) (rnd : Byte) (s : State) :
    Host.Outcome State Fault Refusal :=
  if !s.ready then .refused .advanceAfterFailedReset
  else if !elapsedLegal elapsed then .refused .negativeElapsed
  else if !keysLegal keys then .refused .badKeySnapshot
  else if s.halt then .next { s with frameReady := false, fault := none }
  else advanceRunning elapsed keys rnd s

/-- One transaction (R180). -/
def runCall (c : DriverCall) (s : State) : Host.Outcome State Fault Refusal :=
  match c with
  | .advance elapsed keys rnd => advance elapsed keys rnd s
  | .reset rom params =>
    if params.legal then .next (resetCore rom params s) else .refused .illegalParameters

/-- The n-th call of the free driver: an Advance with any elapsed time, keys and draw
(notes/assumptions/6.md). -/
def freeCall (n : Nat) : DriverCall :=
  .advance (mkRat (Config.freeElapsed n).1 ((Config.freeElapsed n).2 + 1))
    (keyList (Config.freeKeys n)) (Config.freeRnd n)

/-- The driver's next call, and the state with that call taken. -/
def takeCall (s : State) : DriverCall × State :=
  match s.inbox with
  | c :: rest => (c, { s with inbox := rest })
  | [] => (freeCall s.calls, { s with calls := s.calls + 1 })

/-- One step: the driver's next call, run to its end (R59, R180). -/
def runNextCall (s : State) : Host.Outcome State Fault Refusal :=
  runCall (takeCall s).1 (takeCall s).2

/-- A legal Advance call that makes an instruction cycle due, with the keys and the draw the state
already holds: the least elapsed time that reaches the period (R176). -/
def dueCall (s : State) : DriverCall :=
  let gap := usSub s.params.iperiod s.iacc
  .advance (if usLe 0 gap then gap else 0) (keyList s.keys) s.rnd

/-- The state in which the very next step fetches and runs the instruction of the given bytes:
they lie at `PC` (at 0x200 where `PC` is not an address fetch can use), the core is ready and not
halted, and the driver's next call is due (R170, R176). -/
def placeInstruction (bytes : List Byte) (s : State) : State :=
  let s := if s.pc.toNat + 2 ≤ memSize then s else s.setPc 0x200
  { s.writeBytes s.pc.toNat bytes with
    halt := false
    ready := true
    inbox := dueCall s :: s.inbox }

end Sys2Proof.Machine
end

