-- ==== Sys2Proof/Machine/Step.lean ====
section
/-! DEFINITION. One step of the machine is one transaction of the driver
(46_cycle_scheduler_timers.md R180), and the placing of one instruction for the next step. -/

namespace Sys2Proof.Machine

/-- One driver call, run to its end. -/
def step (s : State) : Host.Outcome State Fault Refusal := runNextCall s

/-- `s` with the instruction of a table row's word stored where the next step fetches, and a driver
call placed that makes that step run it. The word is laid out big-endian (20_memory.md R54). -/
def State.withFetchWord (s : State) (nbits w : Nat) : State :=
  placeInstruction (bytesOfWord (BitVec.ofNat 16 (w % 2 ^ nbits))) s

end Sys2Proof.Machine
end

