-- ==== Sys2Proof/Laws/Decode.lean ====
section
/-! SUPPORT. The fields of the encoder's words are the operands they were made of. -/

namespace Sys2Proof

/-- Appending bits on the right is multiplying and adding. -/
theorem toNat_append_add {m n : Nat} (a : BitVec m) (b : BitVec n) :
    (a ++ b).toNat = a.toNat * 2 ^ n + b.toNat := by
  rw [BitVec.toNat_append, ← Nat.shiftLeft_add_eq_or_of_lt b.isLt, Nat.shiftLeft_eq]

/-- Format `RI` as a number. -/
theorem encodeRI_toNat (c : BitVec 4) (x : Reg) (nn : Byte) :
    (encodeRI c x nn).toNat = c.toNat * 4096 + x.val * 256 + nn.toNat := by
  simp only [encodeRI, toNat_append_add, BitVec.toNat_ofFin]
  omega

/-- Format `RR` as a number. -/
theorem encodeRR_toNat (c : BitVec 4) (x y : Reg) (n : BitVec 4) :
    (encodeRR c x y n).toNat = c.toNat * 4096 + x.val * 256 + y.val * 16 + n.toNat := by
  simp only [encodeRR, toNat_append_add, BitVec.toNat_ofFin]
  omega

/-- Format `A` as a number. -/
theorem encodeA_toNat (c : BitVec 4) (nnn : BitVec 12) :
    (encodeA c nnn).toNat = c.toNat * 4096 + nnn.toNat := by
  simp only [encodeA, toNat_append_add]
  omega

theorem fieldC_toNat (w : Word) : (fieldC w).toNat = w.toNat / 4096 := by
  have := w.isLt
  simp only [fieldC, BitVec.extractLsb'_toNat, Nat.shiftRight_eq_div_pow]
  omega

theorem fieldX_val (w : Word) : (fieldX w).val = w.toNat / 256 % 16 := by
  simp only [fieldX, BitVec.val_toFin, BitVec.extractLsb'_toNat, Nat.shiftRight_eq_div_pow]

theorem fieldY_val (w : Word) : (fieldY w).val = w.toNat / 16 % 16 := by
  simp only [fieldY, BitVec.val_toFin, BitVec.extractLsb'_toNat, Nat.shiftRight_eq_div_pow]

theorem fieldN_toNat (w : Word) : (fieldN w).toNat = w.toNat % 16 := by
  simp [fieldN]

theorem fieldNN_toNat (w : Word) : (fieldNN w).toNat = w.toNat % 256 := by
  simp [fieldNN]

theorem fieldNNN_toNat (w : Word) : (fieldNNN w).toNat = w.toNat % 4096 := by
  simp [fieldNNN]

/-- The class of a word of format `RI`. -/
@[simp] theorem fieldC_encodeRI (c : BitVec 4) (x : Reg) (nn : Byte) :
    fieldC (encodeRI c x nn) = c := by
  have := x.isLt
  have := nn.isLt
  apply BitVec.eq_of_toNat_eq
  rw [fieldC_toNat, encodeRI_toNat]
  omega

@[simp] theorem fieldX_encodeRI (c : BitVec 4) (x : Reg) (nn : Byte) :
    fieldX (encodeRI c x nn) = x := by
  have := nn.isLt
  have := x.isLt
  apply Fin.ext
  rw [fieldX_val, encodeRI_toNat]
  omega

@[simp] theorem fieldNN_encodeRI (c : BitVec 4) (x : Reg) (nn : Byte) :
    fieldNN (encodeRI c x nn) = nn := by
  have := nn.isLt
  apply BitVec.eq_of_toNat_eq
  rw [fieldNN_toNat, encodeRI_toNat]
  omega

/-- The class of a word of format `RR`. -/
@[simp] theorem fieldC_encodeRR (c : BitVec 4) (x y : Reg) (n : BitVec 4) :
    fieldC (encodeRR c x y n) = c := by
  have := x.isLt
  have := y.isLt
  have := n.isLt
  apply BitVec.eq_of_toNat_eq
  rw [fieldC_toNat, encodeRR_toNat]
  omega

@[simp] theorem fieldX_encodeRR (c : BitVec 4) (x y : Reg) (n : BitVec 4) :
    fieldX (encodeRR c x y n) = x := by
  have := x.isLt
  have := y.isLt
  have := n.isLt
  apply Fin.ext
  rw [fieldX_val, encodeRR_toNat]
  omega

@[simp] theorem fieldY_encodeRR (c : BitVec 4) (x y : Reg) (n : BitVec 4) :
    fieldY (encodeRR c x y n) = y := by
  have := y.isLt
  have := n.isLt
  apply Fin.ext
  rw [fieldY_val, encodeRR_toNat]
  omega

@[simp] theorem fieldN_encodeRR (c : BitVec 4) (x y : Reg) (n : BitVec 4) :
    fieldN (encodeRR c x y n) = n := by
  have := n.isLt
  apply BitVec.eq_of_toNat_eq
  rw [fieldN_toNat, encodeRR_toNat]
  omega

/-- The class of a word of format `A`. -/
@[simp] theorem fieldC_encodeA (c : BitVec 4) (nnn : BitVec 12) : fieldC (encodeA c nnn) = c := by
  have := nnn.isLt
  apply BitVec.eq_of_toNat_eq
  rw [fieldC_toNat, encodeA_toNat]
  omega

@[simp] theorem fieldNNN_encodeA (c : BitVec 4) (nnn : BitVec 12) :
    fieldNNN (encodeA c nnn) = nnn := by
  have := nnn.isLt
  apply BitVec.eq_of_toNat_eq
  rw [fieldNNN_toNat, encodeA_toNat]
  omega

/-- Bytes read back as the word they were cut from (R54). -/
@[simp] theorem wordOfBytes_bytesOfWord (w : Word) :
    wordOfBytes (w.extractLsb' 8 8) (w.extractLsb' 0 8) = w := by
  apply BitVec.eq_of_toNat_eq
  have := w.isLt
  simp only [wordOfBytes, toNat_append_add, BitVec.extractLsb'_toNat, Nat.shiftRight_eq_div_pow]
  omega

/-- Decoding the bytes of a word is decoding the word. -/
theorem decode_bytesOfWord (w : Word) (rest : List Byte) :
    decode (bytesOfWord w ++ rest) =
      match decodeWord w with
      | .ok i => .ok (i, rest)
      | .error e => .error e := by
  cases h : decodeWord w <;>
    simp only [bytesOfWord, List.cons_append, List.nil_append, decode, wordOfBytes_bytesOfWord, h]

/-- Masking works part by part. -/
theorem append_and {m n : Nat} (a c : BitVec m) (b d : BitVec n) :
    (a ++ b) &&& (c ++ d) = (a &&& c) ++ (b &&& d) := by
  apply BitVec.eq_of_getLsbD_eq
  intro k _
  by_cases h : k < n <;> simp [BitVec.getLsbD_append, h]

/-- Masking a word of format `RI` with a mask over class and low byte. -/
theorem encodeRI_and (c mc : BitVec 4) (x : Reg) (nn mn : Byte) :
    encodeRI c x nn &&& encodeRI mc 0 mn = encodeRI (c &&& mc) 0 (nn &&& mn) := by
  have h : (BitVec.ofFin x : BitVec 4) &&& BitVec.ofFin 0 = BitVec.ofFin 0 := BitVec.and_zero
  show (c ++ (BitVec.ofFin x : BitVec 4) ++ nn) &&& (mc ++ (BitVec.ofFin 0 : BitVec 4) ++ mn) = _
  simp only [append_and, h]
  rfl

/-- Masking a word of format `RI` with a mask over the class. -/
theorem encodeRI_and_class (c mc : BitVec 4) (x : Reg) (nn : Byte) :
    encodeRI c x nn &&& encodeRI mc 0 0 = encodeRI (c &&& mc) 0 0 :=
  (encodeRI_and c mc x nn 0).trans (congrArg _ BitVec.and_zero)

/-- Masking a word of format `RI` with a mask over `X`. -/
theorem encodeRI_and_X (c : BitVec 4) (x : Reg) (nn : Byte) :
    encodeRI c x nn &&& encodeRI 0 15 0 = encodeRI 0 x 0 := by
  have h : (BitVec.ofFin x : BitVec 4) &&& BitVec.ofFin 15 = BitVec.ofFin x := BitVec.and_allOnes
  show (c ++ (BitVec.ofFin x : BitVec 4) ++ nn) &&& (0#4 ++ (BitVec.ofFin 15 : BitVec 4) ++ 0#8) = _
  simp only [append_and, h, BitVec.and_zero]
  rfl

/-- Masking a word of format `RR` with a mask over class and low nibble. -/
theorem encodeRR_and (c mc : BitVec 4) (x y : Reg) (n mn : BitVec 4) :
    encodeRR c x y n &&& encodeRR mc 0 0 mn = encodeRR (c &&& mc) 0 0 (n &&& mn) := by
  have h (x : Reg) : (BitVec.ofFin x : BitVec 4) &&& BitVec.ofFin 0 = BitVec.ofFin 0 :=
    BitVec.and_zero
  show (c ++ (BitVec.ofFin x : BitVec 4) ++ (BitVec.ofFin y : BitVec 4) ++ n : BitVec (4 + 4 + 4 + 4)) &&&
    (mc ++ (BitVec.ofFin 0 : BitVec 4) ++ (BitVec.ofFin 0 : BitVec 4) ++ mn : BitVec (4 + 4 + 4 + 4)) = _
  simp only [append_and, h]
  rfl

/-- Masking a word of format `RR` with a mask over the class. -/
theorem encodeRR_and_class (c mc : BitVec 4) (x y : Reg) (n : BitVec 4) :
    encodeRR c x y n &&& encodeRR mc 0 0 0 = encodeRR (c &&& mc) 0 0 0 :=
  (encodeRR_and c mc x y n 0).trans (congrArg _ BitVec.and_zero)

/-- Masking a word of format `RR` with a mask over `Y`. -/
theorem encodeRR_and_Y (c : BitVec 4) (x y : Reg) (n : BitVec 4) :
    encodeRR c x y n &&& encodeRR 0 0 15 0 = encodeRR 0 0 y 0 := by
  have h : (BitVec.ofFin y : BitVec 4) &&& BitVec.ofFin 15 = BitVec.ofFin y := BitVec.and_allOnes
  have h0 : (BitVec.ofFin x : BitVec 4) &&& BitVec.ofFin 0 = BitVec.ofFin 0 := BitVec.and_zero
  show (c ++ (BitVec.ofFin x : BitVec 4) ++ (BitVec.ofFin y : BitVec 4) ++ n : BitVec (4 + 4 + 4 + 4)) &&&
    (0#4 ++ (BitVec.ofFin 0 : BitVec 4) ++ (BitVec.ofFin 15 : BitVec 4) ++ 0#4 : BitVec (4 + 4 + 4 + 4)) = _
  simp only [append_and, h, h0, BitVec.and_zero]
  rfl

/-- Masking a word of format `A` with a mask over the class. -/
theorem encodeA_and (c mc : BitVec 4) (nnn : BitVec 12) :
    encodeA c nnn &&& encodeA mc 0 = encodeA (c &&& mc) 0 := by
  show (c ++ nnn) &&& (mc ++ 0#12) = _
  simp only [append_and, BitVec.and_zero]
  rfl

end Sys2Proof
end

