-- ==== Sys2Proof/Laws/PerInstr.lean ====
section
/-! SUPPORT. Statements made for every instruction, one lemma per constructor. Family `RowSelect`: the
encoder's word of an instruction selects the instruction's row of the opcode table and has its
ignored nibble zero (30_encoding.md R85, R86). -/

namespace Sys2Proof.Laws.RowSelect

open Sys2Proof

/-- The canonical word of an instruction selects its row (R86) and has the ignored nibble zero (R85). -/
def Statement (i : Instr) : Prop :=
  i.row.selects (encodeWord i) = true ∧ canonicalFor i (encodeWord i) = true

/-- A word selects a row when masking it gives the row's pattern, and is canonical when masking the
ignored nibble gives zero. -/
theorem of_masks {i : Instr} (h1 : encodeWord i &&& i.row.mask = i.row.pattern)
    (h2 : encodeWord i &&& i.ignoredBits = 0) : Statement i :=
  ⟨by rw [OpcodeRow.selects, h1]; exact beq_self_eq_true _,
   by rw [canonicalFor, h2]; rfl⟩

theorem cls : Statement .cls := of_masks rfl rfl

theorem ret : Statement .ret := of_masks rfl rfl

theorem jp (nnn : BitVec 12) : Statement (.jp nnn) :=
  of_masks (encodeA_and _ 0xF nnn) BitVec.and_zero

theorem call (nnn : BitVec 12) : Statement (.call nnn) :=
  of_masks (encodeA_and _ 0xF nnn) BitVec.and_zero

theorem seImm (x : Reg) (nn : Byte) : Statement (.seImm x nn) :=
  of_masks (encodeRI_and_class _ 0xF x nn) BitVec.and_zero

theorem sneImm (x : Reg) (nn : Byte) : Statement (.sneImm x nn) :=
  of_masks (encodeRI_and_class _ 0xF x nn) BitVec.and_zero

theorem seReg (x y : Reg) : Statement (.seReg x y) :=
  of_masks (encodeRR_and _ 0xF x y _ 0) (encodeRR_and 0x5 0 x y 0 0xF)

theorem ldImm (x : Reg) (nn : Byte) : Statement (.ldImm x nn) :=
  of_masks (encodeRI_and_class _ 0xF x nn) BitVec.and_zero

theorem addImm (x : Reg) (nn : Byte) : Statement (.addImm x nn) :=
  of_masks (encodeRI_and_class _ 0xF x nn) BitVec.and_zero

theorem ldReg (x y : Reg) : Statement (.ldReg x y) :=
  of_masks (encodeRR_and _ 0xF x y _ 0xF) BitVec.and_zero

theorem orReg (x y : Reg) : Statement (.orReg x y) :=
  of_masks (encodeRR_and _ 0xF x y _ 0xF) BitVec.and_zero

theorem andReg (x y : Reg) : Statement (.andReg x y) :=
  of_masks (encodeRR_and _ 0xF x y _ 0xF) BitVec.and_zero

theorem xorReg (x y : Reg) : Statement (.xorReg x y) :=
  of_masks (encodeRR_and _ 0xF x y _ 0xF) BitVec.and_zero

theorem addReg (x y : Reg) : Statement (.addReg x y) :=
  of_masks (encodeRR_and _ 0xF x y _ 0xF) BitVec.and_zero

theorem sub (x y : Reg) : Statement (.sub x y) :=
  of_masks (encodeRR_and _ 0xF x y _ 0xF) BitVec.and_zero

theorem shr (x : Reg) : Statement (.shr x) :=
  of_masks (encodeRR_and _ 0xF x 0 _ 0xF) (encodeRR_and_Y _ x 0 _)

theorem subn (x y : Reg) : Statement (.subn x y) :=
  of_masks (encodeRR_and _ 0xF x y _ 0xF) BitVec.and_zero

theorem shl (x : Reg) : Statement (.shl x) :=
  of_masks (encodeRR_and _ 0xF x 0 _ 0xF) (encodeRR_and_Y _ x 0 _)

theorem sneReg (x y : Reg) : Statement (.sneReg x y) :=
  of_masks (encodeRR_and _ 0xF x y _ 0) (encodeRR_and 0x9 0 x y 0 0xF)

theorem ldI (nnn : BitVec 12) : Statement (.ldI nnn) :=
  of_masks (encodeA_and _ 0xF nnn) BitVec.and_zero

theorem jpV0 (nnn : BitVec 12) : Statement (.jpV0 nnn) :=
  of_masks (encodeA_and _ 0xF nnn) BitVec.and_zero

theorem rnd (x : Reg) (nn : Byte) : Statement (.rnd x nn) :=
  of_masks (encodeRI_and_class _ 0xF x nn) BitVec.and_zero

theorem drw (x y : Reg) (n : BitVec 4) : Statement (.drw x y n) :=
  of_masks (encodeRR_and_class _ 0xF x y n) BitVec.and_zero

theorem skp (x : Reg) : Statement (.skp x) :=
  of_masks (encodeRI_and _ 0xF x _ 0xFF) BitVec.and_zero

theorem sknp (x : Reg) : Statement (.sknp x) :=
  of_masks (encodeRI_and _ 0xF x _ 0xFF) BitVec.and_zero

theorem ldVxDT (x : Reg) : Statement (.ldVxDT x) :=
  of_masks (encodeRI_and _ 0xF x _ 0xFF) BitVec.and_zero

theorem ldDTVx (x : Reg) : Statement (.ldDTVx x) :=
  of_masks (encodeRI_and _ 0xF x _ 0xFF) BitVec.and_zero

theorem ldSTVx (x : Reg) : Statement (.ldSTVx x) :=
  of_masks (encodeRI_and _ 0xF x _ 0xFF) BitVec.and_zero

theorem ldVxK (x : Reg) : Statement (.ldVxK x) :=
  of_masks (encodeRI_and _ 0xF x _ 0xFF) BitVec.and_zero

theorem addI (x : Reg) : Statement (.addI x) :=
  of_masks (encodeRI_and _ 0xF x _ 0xFF) BitVec.and_zero

theorem ldF (x : Reg) : Statement (.ldF x) :=
  of_masks (encodeRI_and _ 0xF x _ 0xFF) BitVec.and_zero

theorem ldB (x : Reg) : Statement (.ldB x) :=
  of_masks (encodeRI_and _ 0xF x _ 0xFF) BitVec.and_zero

theorem ldMemVx (x : Reg) : Statement (.ldMemVx x) :=
  of_masks (encodeRI_and _ 0xF x _ 0xFF) BitVec.and_zero

theorem ldVxMem (x : Reg) : Statement (.ldVxMem x) :=
  of_masks (encodeRI_and _ 0xF x _ 0xFF) BitVec.and_zero

end Sys2Proof.Laws.RowSelect
end

