-- ==== Sys2Proof/Safety.lean ====
section
/-! DEFINITION. What claims about the machine speak of: a run without faults, the invariant of every
step, what each instruction may write, and the draw loop of 44_display.md R151 as the spec writes it
(a second description, which no meaning uses). -/

namespace Sys2Proof

/-- Every word that a mask and pattern of R86 select decodes to the instruction f reads from it: the
encoding clause of an instruction's rule. -/
def DecodesBy (mask pattern : Word) (f : Word → Instr) : Prop :=
  ∀ w : Word, w &&& mask = pattern → decodeWord w = .ok (f w)

/-- The instructions that write VF as a flag, the table of R22. -/
def Instr.writesFlag : Instr → Bool
  | .addReg _ _ | .sub _ _ | .shr _ | .subn _ _ | .shl _ | .drw _ _ _ | .addI _ => true
  | .cls | .ret | .jp _ | .call _ | .seImm _ _ | .sneImm _ _ | .seReg _ _ | .ldImm _ _ | .addImm _ _
  | .ldReg _ _ | .orReg _ _ | .andReg _ _ | .xorReg _ _ | .sneReg _ _ | .ldI _ | .jpV0 _ | .rnd _ _
  | .skp _ | .sknp _ | .ldVxDT _ | .ldDTVx _ | .ldSTVx _ | .ldVxK _ | .ldF _ | .ldB _ | .ldMemVx _
  | .ldVxMem _ => false

/-- The registers an instruction writes as its destination, flags aside: `V[X]`, and for FX65 the
range `V[0]` to `V[X]`. -/
def Instr.writesReg : Instr → Reg → Bool
  | .ldImm x _, r | .addImm x _, r | .ldReg x _, r | .orReg x _, r | .andReg x _, r | .xorReg x _, r
  | .addReg x _, r | .sub x _, r | .shr x, r | .subn x _, r | .shl x, r | .rnd x _, r
  | .ldVxDT x, r | .ldVxK x, r => r == x
  | .ldVxMem x, r => decide (r ≤ x)
  | .cls, _ | .ret, _ | .jp _, _ | .call _, _ | .seImm _ _, _ | .sneImm _ _, _ | .seReg _ _, _
  | .sneReg _ _, _ | .ldI _, _ | .jpV0 _, _ | .drw _ _ _, _ | .skp _, _ | .sknp _, _ | .ldDTVx _, _
  | .ldSTVx _, _ | .addI _, _ | .ldF _, _ | .ldB _, _ | .ldMemVx _, _ => false

/-- The instructions whose execution may leave `PC` elsewhere than past themselves (the table of
R25). -/
def Instr.transfers : Instr → Bool
  | .ret | .jp _ | .call _ | .jpV0 _ | .seImm _ _ | .sneImm _ _ | .seReg _ _ | .sneReg _ _ | .skp _
  | .sknp _ | .ldVxK _ => true
  | .cls | .ldImm _ _ | .addImm _ _ | .ldReg _ _ | .orReg _ _ | .andReg _ _ | .xorReg _ _
  | .addReg _ _ | .sub _ _ | .shr _ | .subn _ _ | .shl _ | .ldI _ | .rnd _ _ | .drw _ _ _
  | .ldVxDT _ | .ldDTVx _ | .ldSTVx _ | .addI _ | .ldF _ | .ldB _ | .ldMemVx _ | .ldVxMem _ => false

end Sys2Proof

namespace Sys2Proof.Machine

/-- "No fault recorded" (10_state.md R36). -/
def State.noFaultRecorded (s : State) : Prop := s.faults = 0 ∧ s.halt = false

/-- The core can take an Advance call and run on: the last Reset succeeded and nothing halted it
(R198, R222). -/
def State.running (s : State) : Prop := s.ready = true ∧ s.halt = false

/-- The accumulators are not negative, and below their periods unless the core is halted (R35). -/
def State.clocksOk (s : State) : Prop :=
  0 ≤ s.iacc ∧ 0 ≤ s.tacc ∧ (s.halt = false → s.iacc < s.params.iperiod ∧ s.tacc < tperiod)

/-- `PC` is at most 0x10FE (R25), and every live stack entry is an address after a call,
0x002 to 0x1000 (R100). -/
def State.controlOk (s : State) : Prop :=
  s.pc.toNat ≤ 0x10FE ∧
    ∀ k : Fin 16, k.val < s.sp.val → 2 ≤ s.stack[k.val].toNat ∧ s.stack[k.val].toNat ≤ 0x1000

/-- The invariant: memory canonical, parameters legal (R8), clocks and control in their ranges, and
a halted core has a fault on record (R198). -/
def State.Inv (s : State) : Prop :=
  Memory.wf s.params s.mem = true ∧ s.params.legal = true ∧ s.clocksOk ∧ s.controlOk ∧
    (s.halt = true → s.faults ≠ 0)

/-- Apply a function to the state an outcome goes on to. -/
def onNext (f : State → State) : Host.Outcome State Fault Refusal → Host.Outcome State Fault Refusal
  | .next s => .next (f s)
  | .fault e => .fault e
  | .refused e => .refused e

/-- Every byte of memory reads as before. -/
def SameMemory (s t : State) : Prop := ∀ a, t.readByte a = s.readByte a

/-- Every byte of memory outside the n bytes from `a` on reads as before. -/
def SameMemoryOutside (a n : Nat) (s t : State) : Prop :=
  ∀ b, (b < a ∨ a + n ≤ b) → t.readByte b = s.readByte b

/-- Every general register but those named reads as before. -/
def SameVBut (rs : List Reg) (s t : State) : Prop := ∀ r, r ∉ rs → t.getV r = s.getV r

/-! ### The draw of R151, loop by loop -/

/-- `FB[y][x] <- not FB[y][x]`. -/
def State.togglePixel (s : State) (y x : Nat) : State :=
  if h : y < 32 then { s with fb := s.fb.set y (s.fb[y] ^^^ (1#64 <<< x)) } else s

/-- The body of R151's inner loop for column c of a sprite byte in framebuffer row y. -/
def loopColumn (b : Byte) (x0 y : Nat) (acc : State × Bool) (c : Nat) : State × Bool :=
  if x0 + c ≤ 63 ∧ b.getLsbD (7 - c) = true then
    (acc.1.togglePixel y (x0 + c), acc.2 || acc.1.pixel y (x0 + c))
  else acc

/-- The body of R151's outer loop: sprite row r of byte b. -/
def loopRow (x0 y0 : Nat) (acc : State × Bool) (row : Byte × Nat) : State × Bool :=
  if y0 + row.2 ≤ 31 then (List.range 8).foldl (loopColumn row.1 x0 (y0 + row.2)) acc else acc

/-- R151's loops over all rows, with the collision they find. -/
def drawLoop (rows : List Byte) (x0 y0 : Nat) (s : State) : State × Bool :=
  rows.zipIdx.foldl (loopRow x0 y0) (s, false)

/-- n timer ticks with nothing in between (R174). -/
def tickTimes : Nat → State → State
  | 0, s => s
  | n + 1, s => tickTimes n (timerTick s)

/-- n pushes of one address with no pop in between (R28). -/
def pushTimes (addr : Word) : Nat → State → Option State
  | 0, s => some s
  | n + 1, s =>
    match s.push addr with
    | some t => pushTimes addr n t
    | none => none

end Sys2Proof.Machine
end

