-- ==== Sys2Proof/Certificates/Slice0/Obligations.lean ====
section
/-! DEFINITION. The statements for the provers, each from a numbered rule of spec/. In all of them `exec`
is the execute phase: `PC` is already past the instruction, whose address is `s.pc - 2`
(46_cycle_scheduler_timers.md R170, 00_scope.md R13). -/

open Sys2Proof Sys2Proof.Machine

/-! ### Encoding (30_encoding.md) -/

/-- Words written out from the spec's own examples (95_test_vectors.md S1 to S3, T3, T16, T41, T101,
T104, T107; R81, R86, R87) decode to what they stand for; that 05EE, 5127 and 8126, whose unnamed
nibble is not 0, decode is the spec's own decision D7, notes/assumptions/19.md. -/
def Obligations.SampleWordsDecodeAsWritten : Prop :=
  decodeWord 0x00E0 = .ok .cls ∧ decodeWord 0x1200 = .ok (.jp 0x200) ∧
  decodeWord 0x6A02 = .ok (.ldImm 0xA 0x02) ∧ decodeWord 0x7A05 = .ok (.addImm 0xA 0x05) ∧
  decodeWord 0xFA0A = .ok (.ldVxK 0xA) ∧ decodeWord 0x05EE = .ok .ret ∧
  decodeWord 0x5127 = .ok (.seReg 1 2) ∧ decodeWord 0x8126 = .ok (.shr 1) ∧
  decodeWord 0xD125 = .ok (.drw 1 2 5) ∧ decodeWord 0xC10F = .ok (.rnd 1 0x0F) ∧
  decodeWord 0xE19E = .ok (.skp 1) ∧ decodeWord 0xF255 = .ok (.ldMemVx 2) ∧
  decodeWord 0x0000 = .error .unmatched0 ∧ decodeWord 0x8128 = .error .unmatched8 ∧
  decodeWord 0xE19F = .error .unmatchedE ∧ decodeWord 0xF175 = .error .unmatchedF

/-- Decode and encode agree for every instruction with every operand: no bit of an encoding is
dropped (R81, R86). -/
def Obligations.DecodeOfEncodeIsTheInstruction : Prop :=
  ∀ (i : Instr) (rest : List Byte), decode (encode i ++ rest) = .ok (i, rest)

/-- Encode of decode: a word that decodes to an instruction is that instruction's canonical word
with anything in the ignored nibble, and every such word decodes to it (R85); that ignored nibbles
are not checked is the spec's own decision D7, notes/assumptions/24.md. -/
def Obligations.IgnoredNibblesAreIgnored : Prop :=
  ∀ (w : Word) (i : Instr),
    decodeWord w = .ok i ↔ w &&& ~~~i.ignoredBits = encodeWord i

/-- The decoder and the opcode table of R86 agree: a word that decodes selects the row of its
instruction, and a word is unmatched exactly when it selects no row of the 34 (R84, R87). -/
def Obligations.DecoderAgreesWithOpcodeTable : Prop :=
  (∀ (w : Word) (i : Instr), decodeWord w = .ok i → i.row.selects w = true ∧ i.row ∈ opcodeTable) ∧
  ∀ w : Word, (∃ e, decodeWord w = .error e) ↔ ∀ r ∈ opcodeTable, r.selects w = false

/-- The table lists 34 different rows, and no word selects two of them (R84). -/
def Obligations.NoWordSelectsTwoRows : Prop :=
  opcodeTable.length = 34 ∧ opcodeTable.Nodup ∧
  ∀ (w : Word), ∀ r ∈ opcodeTable, ∀ r' ∈ opcodeTable,
    r.selects w = true → r'.selects w = true → r = r'

/-- The unmatched words are exactly the four sets R87 lists. -/
def Obligations.UnmatchedWordsAreExactlyTheFourSets : Prop :=
  ∀ w : Word, (∃ e, decodeWord w = .error e) ↔
    ((fieldC w = 0x0 ∧ fieldNN w ∉ [0xE0, 0xEE]) ∨
     (fieldC w = 0x8 ∧ fieldN w ∈ [0x8, 0x9, 0xA, 0xB, 0xC, 0xD, 0xF]) ∨
     (fieldC w = 0xE ∧ fieldNN w ∉ [0x9E, 0xA1]) ∨
     (fieldC w = 0xF ∧ fieldNN w ∉ [0x07, 0x0A, 0x15, 0x18, 0x1E, 0x29, 0x33, 0x55, 0x65]))

/-- Every instruction's canonical word selects its row and has its ignored nibble zero (R85, R86).
-/
def Obligations.EncodedWordsSelectTheirRow : Prop := ∀ i : Instr, Sys2Proof.Laws.RowSelect.Statement i

/-! ### Control transfer (40_flow.md) -/

/-- RET pops into `PC` at depth 1 to 16, an address 0x002 to 0x1000 where the live entries are
return addresses (`controlOk`, part of the invariant), and at depth 0 raises StackUnderflow and
changes nothing else (R100, R193); that every 0XEE returns is the spec's own decision D7,
notes/assumptions/19.md, and that the popped entry keeps its contents the model's choice,
notes/assumptions/9.md. -/
def Obligations.RetPopsIntoPc : Prop :=
  DecodesBy 0xF0FF 0x00EE (fun _ => .ret) ∧
  (∀ s : State,
      (∀ (h : 0 < s.sp.val), ∃ t, exec .ret s = .next t ∧
        t.pc = s.stack[s.sp.val - 1] ∧ t.sp.val = s.sp.val - 1 ∧
        (s.controlOk → 0x002 ≤ t.pc.toNat ∧ t.pc.toNat ≤ 0x1000) ∧
        t = { s with pc := t.pc, sp := t.sp } ∧ SameMemory s t) ∧
      (s.sp.val = 0 → exec .ret s = .next { s with fault := some (.stackUnderflow (s.pc - 2)) }))

/-- JP NNN sets `PC` to the zero-extended address and changes nothing else (R101). -/
def Obligations.JpSetsPc : Prop :=
  DecodesBy 0xF000 0x1000 (fun w => .jp (fieldNNN w)) ∧
  (∀ (nnn : BitVec 12) (s : State), ∃ t, exec (.jp nnn) s = .next t ∧
      t.pc.toNat = nnn.toNat ∧ t = { s with pc := t.pc } ∧ SameMemory s t)

/-- CALL pushes the address after itself and jumps at depth 0 to 15; at depth 16 it raises
StackOverflow, pushes nothing and does not jump (R102, R192). -/
def Obligations.CallPushesAndJumps : Prop :=
  DecodesBy 0xF000 0x2000 (fun w => .call (fieldNNN w)) ∧
  (∀ (nnn : BitVec 12) (s : State),
      (∀ (h : s.sp.val < 16), ∃ t, exec (.call nnn) s = .next t ∧
        t.pc.toNat = nnn.toNat ∧ t.sp.val = s.sp.val + 1 ∧ t.stack = s.stack.set s.sp.val s.pc ∧
        t = { s with pc := t.pc, sp := t.sp, stack := t.stack } ∧ SameMemory s t) ∧
      (s.sp.val = 16 → exec (.call nnn) s = .next { s with fault := some (.stackOverflow (s.pc - 2)) }))

/-- BNNN jumps to `NNN + V[0]`, at most 0x10FE, not reduced to 12 bits (R103); that the sum is not
reduced is the spec's own decision D20, notes/assumptions/24.md. -/
def Obligations.JpV0AddsRegisterZero : Prop :=
  DecodesBy 0xF000 0xB000 (fun w => .jpV0 (fieldNNN w)) ∧
  (∀ (nnn : BitVec 12) (s : State), ∃ t, exec (.jpV0 nnn) s = .next t ∧
      t.pc.toNat = nnn.toNat + (s.getV 0).toNat ∧ t.pc.toNat ≤ 0x10FE ∧
      t = { s with pc := t.pc } ∧ SameMemory s t)

/-! ### Skips (41_skip.md) -/

/-- The four register skips: `PC` goes two further exactly when the condition holds; nothing else
changes (R110 to R113); that 5XYN and 9XYN skip for every N is the spec's own decision D7,
notes/assumptions/19.md. -/
def Obligations.RegisterSkipsMovePcOnTheirCondition : Prop :=
  DecodesBy 0xF000 0x3000 (fun w => .seImm (fieldX w) (fieldNN w)) ∧
  DecodesBy 0xF000 0x4000 (fun w => .sneImm (fieldX w) (fieldNN w)) ∧
  DecodesBy 0xF000 0x5000 (fun w => .seReg (fieldX w) (fieldY w)) ∧
  DecodesBy 0xF000 0x9000 (fun w => .sneReg (fieldX w) (fieldY w)) ∧
  (∀ (x y : Reg) (nn : Byte) (s : State),
      exec (.seImm x nn) s = .next { s with pc := if s.getV x = nn then s.pc + 2 else s.pc } ∧
      exec (.sneImm x nn) s = .next { s with pc := if s.getV x ≠ nn then s.pc + 2 else s.pc } ∧
      exec (.seReg x y) s = .next { s with pc := if s.getV x = s.getV y then s.pc + 2 else s.pc } ∧
      exec (.sneReg x y) s = .next { s with pc := if s.getV x ≠ s.getV y then s.pc + 2 else s.pc })

/-! ### Arithmetic (42_alu.md) -/

/-- 6XNN and 7XNN: `V[X]` becomes `NN`, or the sum modulo 256; no other register, VF included, and
nothing else changes (R120, R121); that 7XNN leaves VF alone is the spec's own decision D15,
notes/assumptions/24.md. -/
def Obligations.ImmediateLoadAndAddWriteOnlyVx : Prop :=
  DecodesBy 0xF000 0x6000 (fun w => .ldImm (fieldX w) (fieldNN w)) ∧
  DecodesBy 0xF000 0x7000 (fun w => .addImm (fieldX w) (fieldNN w)) ∧
  (∀ (x : Reg) (nn : Byte) (s : State),
      (∃ t, exec (.ldImm x nn) s = .next t ∧ t.getV x = nn ∧
        SameVBut [x] s t ∧ t = { s with v := t.v } ∧ SameMemory s t) ∧
      (∃ t, exec (.addImm x nn) s = .next t ∧
        (t.getV x).toNat = ((s.getV x).toNat + nn.toNat) % 256 ∧
        SameVBut [x] s t ∧ t = { s with v := t.v } ∧ SameMemory s t))

/-- 8XY0 to 8XY3: copy, OR, AND and XOR bit by bit; no other register, VF included, and nothing else
changes (R122 to R125); that VF is left alone is the spec's own decision D15,
notes/assumptions/24.md. -/
def Obligations.CopyAndLogicWriteOnlyVx : Prop :=
  DecodesBy 0xF00F 0x8000 (fun w => .ldReg (fieldX w) (fieldY w)) ∧
  DecodesBy 0xF00F 0x8001 (fun w => .orReg (fieldX w) (fieldY w)) ∧
  DecodesBy 0xF00F 0x8002 (fun w => .andReg (fieldX w) (fieldY w)) ∧
  DecodesBy 0xF00F 0x8003 (fun w => .xorReg (fieldX w) (fieldY w)) ∧
  (∀ (x y : Reg) (s : State),
      (∃ t, exec (.ldReg x y) s = .next t ∧ t.getV x = s.getV y ∧
        SameVBut [x] s t ∧ t = { s with v := t.v } ∧ SameMemory s t) ∧
      (∃ t, exec (.orReg x y) s = .next t ∧
        (∀ k, (t.getV x).getLsbD k = ((s.getV x).getLsbD k || (s.getV y).getLsbD k)) ∧
        SameVBut [x] s t ∧ t = { s with v := t.v } ∧ SameMemory s t) ∧
      (∃ t, exec (.andReg x y) s = .next t ∧
        (∀ k, (t.getV x).getLsbD k = ((s.getV x).getLsbD k && (s.getV y).getLsbD k)) ∧
        SameVBut [x] s t ∧ t = { s with v := t.v } ∧ SameMemory s t) ∧
      (∃ t, exec (.xorReg x y) s = .next t ∧
        (∀ k, (t.getV x).getLsbD k = ((s.getV x).getLsbD k ^^ (s.getV y).getLsbD k)) ∧
        SameVBut [x] s t ∧ t = { s with v := t.v } ∧ SameMemory s t))

/-- 8XY4: `V[X]` gets the sum modulo 256 and VF, last, 1 iff the sum of the old values passes 255
(R126). When X is F the flag is what VF holds. -/
def Obligations.AddRegSumAndCarry : Prop :=
  DecodesBy 0xF00F 0x8004 (fun w => .addReg (fieldX w) (fieldY w)) ∧
  (∀ (x y : Reg) (s : State), ∃ t, exec (.addReg x y) s = .next t ∧
      (x ≠ vf → (t.getV x).toNat = ((s.getV x).toNat + (s.getV y).toNat) % 256) ∧
      t.getV vf = (if (s.getV x).toNat + (s.getV y).toNat > 255 then 1 else 0) ∧
      SameVBut [x, vf] s t ∧ t = { s with v := t.v } ∧ SameMemory s t)

/-- 8XY5 and 8XY7: the difference modulo 256 and VF, last, 1 iff there is no borrow, from the old
values (R127, R129). -/
def Obligations.SubtractDifferenceAndNotBorrow : Prop :=
  DecodesBy 0xF00F 0x8005 (fun w => .sub (fieldX w) (fieldY w)) ∧
  DecodesBy 0xF00F 0x8007 (fun w => .subn (fieldX w) (fieldY w)) ∧
  (∀ (x y : Reg) (s : State),
      (∃ t, exec (.sub x y) s = .next t ∧
        (x ≠ vf → (t.getV x).toNat = (256 + (s.getV x).toNat - (s.getV y).toNat) % 256) ∧
        t.getV vf = (if (s.getV x).toNat ≥ (s.getV y).toNat then 1 else 0) ∧
        SameVBut [x, vf] s t ∧ t = { s with v := t.v } ∧ SameMemory s t) ∧
      (∃ t, exec (.subn x y) s = .next t ∧
        (x ≠ vf → (t.getV x).toNat = (256 + (s.getV y).toNat - (s.getV x).toNat) % 256) ∧
        t.getV vf = (if (s.getV y).toNat ≥ (s.getV x).toNat then 1 else 0) ∧
        SameVBut [x, vf] s t ∧ t = { s with v := t.v } ∧ SameMemory s t))

/-- 8XY6 and 8XYE: `V[X]` shifted in place by one, and VF, last, the bit shifted out (R128, R130);
that the nibble Y is ignored is the spec's own decision D7, notes/assumptions/19.md. -/
def Obligations.ShiftsMoveTheBitOutIntoVF : Prop :=
  DecodesBy 0xF00F 0x8006 (fun w => .shr (fieldX w)) ∧
  DecodesBy 0xF00F 0x800E (fun w => .shl (fieldX w)) ∧
  (∀ (x : Reg) (s : State),
      (∃ t, exec (.shr x) s = .next t ∧
        (x ≠ vf → (t.getV x).toNat = (s.getV x).toNat / 2) ∧
        t.getV vf = (if (s.getV x).getLsbD 0 then 1 else 0) ∧
        SameVBut [x, vf] s t ∧ t = { s with v := t.v } ∧ SameMemory s t) ∧
      (∃ t, exec (.shl x) s = .next t ∧
        (x ≠ vf → (t.getV x).toNat = 2 * (s.getV x).toNat % 256) ∧
        t.getV vf = (if (s.getV x).getLsbD 7 then 1 else 0) ∧
        SameVBut [x, vf] s t ∧ t = { s with v := t.v } ∧ SameMemory s t))

/-! ### Index register and memory (43_index_memory.md) -/

/-- ANNN and FX29: `I` becomes the zero-extended address, or the address of the glyph that the low
four bits of `V[X]` select; nothing else changes (R140, R142). With a legal `FONT_BASE`
(R8) the glyph address does not wrap. -/
def Obligations.IndexLoadsSetI : Prop :=
  DecodesBy 0xF000 0xA000 (fun w => .ldI (fieldNNN w)) ∧
  DecodesBy 0xF0FF 0xF029 (fun w => .ldF (fieldX w)) ∧
  ((∀ (nnn : BitVec 12) (s : State), ∃ t, exec (.ldI nnn) s = .next t ∧
      t.i.toNat = nnn.toNat ∧ t = { s with i := t.i } ∧ SameMemory s t) ∧
    ∀ (x : Reg) (s : State), ∃ t, exec (.ldF x) s = .next t ∧
      t.i.toNat = (s.params.fontBase + 5 * ((s.getV x).toNat % 16)) % 65536 ∧
      (s.params.fontBase ≤ 0x1B0 → t.i.toNat = s.params.fontBase + 5 * ((s.getV x).toNat % 16)) ∧
      t = { s with i := t.i } ∧ SameMemory s t)

/-- FX1E: the sum modulo 65536 in `I`, and VF, always written, 1 iff it passes 65535 (R141). -/
def Obligations.AddIndexSumAndCarry : Prop :=
  DecodesBy 0xF0FF 0xF01E (fun w => .addI (fieldX w)) ∧
  (∀ (x : Reg) (s : State), ∃ t, exec (.addI x) s = .next t ∧
      t.i.toNat = (s.i.toNat + (s.getV x).toNat) % 65536 ∧
      t.getV vf = (if s.i.toNat + (s.getV x).toNat > 65535 then 1 else 0) ∧
      SameVBut [vf] s t ∧ t = { s with v := t.v, i := t.i } ∧ SameMemory s t)

/-- FX33: hundreds, tens and ones of `V[X]` at `I`, `I+1`, `I+2`; every other byte, `I` and the
registers are unchanged. Out of range nothing is written and AddressFault is raised (R143); the
digits' order and the fault are the spec's own decisions D14, D5 and D9, notes/assumptions/24.md. -/
def Obligations.DecimalStoreWritesThreeDigits : Prop :=
  DecodesBy 0xF0FF 0xF033 (fun w => .ldB (fieldX w)) ∧
  (∀ (x : Reg) (s : State), Memory.wf s.params s.mem = true →
      (s.i.toNat + 2 ≤ 0xFFF → ∃ t, exec (.ldB x) s = .next t ∧
        (t.readByte s.i.toNat).toNat = (s.getV x).toNat / 100 ∧
        (t.readByte (s.i.toNat + 1)).toNat = (s.getV x).toNat / 10 % 10 ∧
        (t.readByte (s.i.toNat + 2)).toNat = (s.getV x).toNat % 10 ∧
        SameMemoryOutside s.i.toNat 3 s t ∧ t = { s with mem := t.mem }) ∧
      (s.i.toNat + 2 > 0xFFF → exec (.ldB x) s =
        .next { s with fault := some (.address .data (max s.i.toNat 0x1000) (s.pc - 2)) }))

/-- FX55: `V[0]` to `V[X]` at `I` to `I+X`; every other byte, `I` and the registers are unchanged.
Out of range nothing is written and AddressFault is raised (R144); `I` unchanged and the fault are
the spec's own decisions D15, D5 and D9, notes/assumptions/24.md. -/
def Obligations.BlockStoreWritesRegisters : Prop :=
  DecodesBy 0xF0FF 0xF055 (fun w => .ldMemVx (fieldX w)) ∧
  (∀ (x : Reg) (s : State), Memory.wf s.params s.mem = true →
      (s.i.toNat + x.val ≤ 0xFFF → ∃ t, exec (.ldMemVx x) s = .next t ∧
        (∀ k : Reg, k ≤ x → t.readByte (s.i.toNat + k.val) = s.getV k) ∧
        SameMemoryOutside s.i.toNat (x.val + 1) s t ∧ t = { s with mem := t.mem }) ∧
      (s.i.toNat + x.val > 0xFFF → exec (.ldMemVx x) s =
        .next { s with fault := some (.address .data (max s.i.toNat 0x1000) (s.pc - 2)) }))

/-- FX65: `V[0]` to `V[X]` from `I` to `I+X`; the other registers, `I` and memory are unchanged. Out
of range nothing is loaded and AddressFault is raised (R145); `I` unchanged and the fault are the
spec's own decisions D15, D5 and D9, notes/assumptions/24.md. -/
def Obligations.BlockLoadReadsRegisters : Prop :=
  DecodesBy 0xF0FF 0xF065 (fun w => .ldVxMem (fieldX w)) ∧
  (∀ (x : Reg) (s : State),
      (s.i.toNat + x.val ≤ 0xFFF → ∃ t, exec (.ldVxMem x) s = .next t ∧
        (∀ k : Reg, k ≤ x → t.getV k = s.readByte (s.i.toNat + k.val)) ∧
        (∀ k : Reg, x < k → t.getV k = s.getV k) ∧
        t = { s with v := t.v } ∧ SameMemory s t) ∧
      (s.i.toNat + x.val > 0xFFF → exec (.ldVxMem x) s =
        .next { s with fault := some (.address .data (max s.i.toNat 0x1000) (s.pc - 2)) }))

/-- FX55 followed by FX65 with the same X and `I` leaves every register as it was (R144, R145);
that neither changes `I`, so that the second uses the same one, is the spec's own decision D15,
notes/assumptions/24.md. -/
def Obligations.BlockStoreThenLoadRestoresRegisters : Prop :=
  ∀ (x : Reg) (s : State), Memory.wf s.params s.mem = true → s.i.toNat + x.val ≤ 0xFFF →
    ∃ t u, exec (.ldMemVx x) s = .next t ∧ exec (.ldVxMem x) t = .next u ∧
      (∀ k : Reg, u.getV k = s.getV k) ∧ u.i = s.i

/-! ### Display (44_display.md) -/

/-- 00E0: every cell false, nothing else changes (R150); that every 0XE0 clears is the spec's own
decision D7, notes/assumptions/19.md. -/
def Obligations.ClsClearsEveryCell : Prop :=
  DecodesBy 0xF0FF 0x00E0 (fun _ => .cls) ∧
  (∀ s : State, ∃ t, exec .cls s = .next t ∧ (∀ y x, t.pixel y x = false) ∧
      t = { s with fb := t.fb } ∧ SameMemory s t)

/-- DXYN cell by cell (R151): the cell in row r and column c is toggled exactly when a set bit of
the sprite falls on it, row `r - y0` of the sprite and bit `7 - (c - x0)` of that row, with the
origin wrapped and everything past the edges clipped; VF, last, is 1 iff a toggled cell was on. N =
0 draws nothing and sets VF to 0 for any `I`. A sprite byte outside memory, of a clipped row too,
raises AddressFault and changes nothing else; bit 7 leftmost, the fault on clipped rows and the
place of VF are the spec's own decisions D12, D13 and D11, notes/assumptions/24.md. -/
def Obligations.DrawTogglesSpritePixels : Prop :=
  DecodesBy 0xF000 0xD000 (fun w => .drw (fieldX w) (fieldY w) (fieldN w)) ∧
  ∀ (x y : Reg) (n : BitVec 4) (s : State),
    let x0 := (s.getV x).toNat % 64
    let y0 := (s.getV y).toNat % 32
    let hit := fun r c : Nat => decide (y0 ≤ r ∧ r < y0 + n.toNat ∧ x0 ≤ c ∧ c < x0 + 8) &&
      (s.readByte (s.i.toNat + (r - y0))).getLsbD (7 - (c - x0))
    ((n = 0 ∨ s.i.toNat + n.toNat ≤ 0x1000) → ∃ t, exec (.drw x y n) s = .next t ∧
      (∀ r c, r < 32 → c < 64 → t.pixel r c = (s.pixel r c ^^ hit r c)) ∧
      (t.getV vf = 1 ∧ (∃ r c, r < 32 ∧ c < 64 ∧ s.pixel r c = true ∧ hit r c = true) ∨
       t.getV vf = 0 ∧ ¬ (∃ r c, r < 32 ∧ c < 64 ∧ s.pixel r c = true ∧ hit r c = true)) ∧
      SameVBut [vf] s t ∧ t = { s with v := t.v, fb := t.fb } ∧ SameMemory s t) ∧
    (n = 0 → ∃ t, exec (.drw x y n) s = .next t ∧ t.getV vf = 0 ∧ t.fb = s.fb) ∧
    (n ≠ 0 → s.i.toNat + n.toNat > 0x1000 → exec (.drw x y n) s =
      .next { s with fault := some (.address .data (max s.i.toNat 0x1000) (s.pc - 2)) })

/-- DXYN is the loop that R151 writes out: rows, columns, clipping, toggling and the collision one
pixel after another; bit 7 leftmost, the fault on clipped rows (which the hypothesis keeps away) and
VF written last are the spec's own decisions D12, D13 and D11, notes/assumptions/17.md and 24.md. -/
def Obligations.DrawEqualsTheLoopOfTheSpec : Prop :=
  ∀ (x y : Reg) (n : BitVec 4) (s : State), (n = 0 ∨ s.i.toNat + n.toNat ≤ 0x1000) →
    let loop := drawLoop (s.readBytes s.i.toNat n.toNat) ((s.getV x).toNat % 64)
      ((s.getV y).toNat % 32) s
    exec (.drw x y n) s = .next (loop.1.setV vf (if loop.2 then 1 else 0))

/-- Drawing the same sprite twice at the same origin gives the framebuffer back (R151, corner case
6; X and Y are not VF, which the first draw writes). -/
def Obligations.DrawTwiceRestoresFramebuffer : Prop :=
  ∀ (x y : Reg) (n : BitVec 4) (s : State), x ≠ vf → y ≠ vf →
    (n = 0 ∨ s.i.toNat + n.toNat ≤ 0x1000) →
    ∃ t u, exec (.drw x y n) s = .next t ∧ exec (.drw x y n) t = .next u ∧ u.fb = s.fb

/-! ### Keys, timers, random (45_keys_timers_random.md) -/

/-- EX9E and EXA1: with a key number up to 15 they skip on that key down, or not down; above 15 they
raise KeyRangeFault and change nothing else (R160, R161); the fault is the spec's own decision D6,
notes/assumptions/24.md. -/
def Obligations.KeySkipsTestTheSnapshot : Prop :=
  DecodesBy 0xF0FF 0xE09E (fun w => .skp (fieldX w)) ∧
  DecodesBy 0xF0FF 0xE0A1 (fun w => .sknp (fieldX w)) ∧
  (∀ (x : Reg) (s : State),
      ((s.getV x).toNat ≤ 15 →
        exec (.skp x) s = .next
          { s with pc := if s.keys.getLsbD (s.getV x).toNat = true then s.pc + 2 else s.pc } ∧
        exec (.sknp x) s = .next
          { s with pc := if s.keys.getLsbD (s.getV x).toNat = false then s.pc + 2 else s.pc }) ∧
      ((s.getV x).toNat > 15 →
        exec (.skp x) s = .next { s with fault := some (.keyRange (s.getV x) (s.pc - 2)) } ∧
        exec (.sknp x) s = .next { s with fault := some (.keyRange (s.getV x) (s.pc - 2)) }))

/-- FX0A: with a key down `V[X]` gets the lowest pressed key's number; with none down `PC` goes back
to the instruction and nothing else changes (R162). -/
def Obligations.WaitForKeyTakesTheLowest : Prop :=
  DecodesBy 0xF0FF 0xF00A (fun w => .ldVxK (fieldX w)) ∧
  (∀ (x : Reg) (s : State),
      (∀ k : Fin 16, s.keys.getLsbD k.val = true → (∀ j : Fin 16, j < k → s.keys.getLsbD j.val = false) →
        ∃ t, exec (.ldVxK x) s = .next t ∧ (t.getV x).toNat = k.val ∧
          SameVBut [x] s t ∧ t = { s with v := t.v } ∧ SameMemory s t) ∧
      ((∀ k : Fin 16, s.keys.getLsbD k.val = false) →
        exec (.ldVxK x) s = .next { s with pc := s.pc - 2 }))

/-- FX07, FX15, FX18: `V[X]` reads `DT`; `DT` and `ST` are overwritten with `V[X]`; the tone is on
exactly when the new `ST` is not 0; nothing else changes (R163 to R165). -/
def Obligations.TimerInstructionsCopyBytes : Prop :=
  DecodesBy 0xF0FF 0xF007 (fun w => .ldVxDT (fieldX w)) ∧
  DecodesBy 0xF0FF 0xF015 (fun w => .ldDTVx (fieldX w)) ∧
  DecodesBy 0xF0FF 0xF018 (fun w => .ldSTVx (fieldX w)) ∧
  (∀ (x : Reg) (s : State),
      (∃ t, exec (.ldVxDT x) s = .next t ∧ t.getV x = s.dt ∧
        SameVBut [x] s t ∧ t = { s with v := t.v } ∧ SameMemory s t) ∧
      exec (.ldDTVx x) s = .next { s with dt := s.getV x } ∧
      (∃ t, exec (.ldSTVx x) s = .next t ∧ t = { s with st := s.getV x } ∧
        (t.tone = true ↔ s.getV x ≠ 0)))

/-- CXNN: `V[X]` is the drawn byte under the mask, whatever byte was drawn; nothing else changes
(R166); that any byte may be drawn is the spec's own decision D16, notes/assumptions/24.md. -/
def Obligations.RandomByteIsMasked : Prop :=
  DecodesBy 0xF000 0xC000 (fun w => .rnd (fieldX w) (fieldNN w)) ∧
  (∀ (x : Reg) (nn : Byte) (s : State), ∃ t, exec (.rnd x nn) s = .next t ∧
      t.getV x = s.rnd &&& nn ∧ t.getV x &&& ~~~nn = 0 ∧
      SameVBut [x] s t ∧ t = { s with v := t.v } ∧ SameMemory s t)

/-! ### Rules over all instructions -/

/-- Every instruction answers a next state, and so does every instruction cycle; when the cycle
reports a fault, nothing has changed but `PC`, which is past the instruction, or unchanged for a
fetch AddressFault: no register, no byte, no cell, no push (R197); precision is the spec's own
decision D9, notes/assumptions/24.md. -/
def Obligations.FaultsArePrecise : Prop :=
  (∀ (i : Instr) (s : State), ∃ t, exec i s = .next t) ∧
  ∀ s : State, s.fault = none → ∃ t, instructionCycle s = .next t ∧
    (t.fault ≠ none → t = { s with
      pc := if s.pc.toNat ≤ 0xFFE then s.pc + 2 else s.pc, fault := t.fault })

/-- At most one kind of fault per instruction: StackUnderflow from RET, StackOverflow from CALL,
AddressFault from the four memory instructions, KeyRangeFault from the two key skips, and none from
any other (R201). -/
def Obligations.OnlyTheseInstructionsRaise : Prop :=
  ∀ (i : Instr) (s t : State) (f : Fault), s.fault = none → exec i s = .next t → t.fault = some f →
    match f with
    | .stackUnderflow a => i = .ret ∧ a = s.pc - 2
    | .stackOverflow a => (∃ nnn, i = .call nnn) ∧ a = s.pc - 2
    | .address kind addr a =>
        ((∃ x y n, i = .drw x y n) ∨ (∃ x, i = .ldB x ∨ i = .ldMemVx x ∨ i = .ldVxMem x)) ∧
          kind = .data ∧ 0x1000 ≤ addr ∧ a = s.pc - 2
    | .keyRange b a => (∃ x, (i = .skp x ∨ i = .sknp x) ∧ b = s.getV x) ∧ a = s.pc - 2
    | .decode _ _ | .romTooLarge _ => False

/-- No instruction touches the accumulators, `HALT`, `FAULTS`, the key latch, the parameters or the
outputs of a call but the fault it raises: those belong to Advance and Reset (R171, R34, R36). -/
def Obligations.InstructionsLeaveTheSchedulerAlone : Prop :=
  ∀ (i : Instr) (s t : State), exec i s = .next t →
    t.iacc = s.iacc ∧ t.tacc = s.tacc ∧ t.halt = s.halt ∧ t.faults = s.faults ∧ t.keys = s.keys ∧
    t.params = s.params ∧ t.frameReady = s.frameReady ∧ t.ready = s.ready ∧ t.rnd = s.rnd ∧
    t.inbox = s.inbox ∧ t.calls = s.calls

/-- Which instruction may change which state: `I` only ANNN, FX1E, FX29 (R23); the framebuffer only
00E0 and DXYN (R31); the stack only 2NNN and 00EE (R26); `DT` only FX15 and `ST` only FX18 (R32);
memory only FX33 and FX55 (R58); that FX55, FX65, FX33 and DXYN leave `I` alone is the spec's own
decision D15, notes/assumptions/24.md. -/
def Obligations.EachStateHasItsOwnWriters : Prop :=
  ∀ (i : Instr) (s t : State), exec i s = .next t →
    (t.i ≠ s.i → (∃ nnn, i = .ldI nnn) ∨ (∃ x, i = .addI x) ∨ (∃ x, i = .ldF x)) ∧
    (t.fb ≠ s.fb → i = .cls ∨ (∃ x y n, i = .drw x y n)) ∧
    (t.stack ≠ s.stack ∨ t.sp ≠ s.sp → i = .ret ∨ (∃ nnn, i = .call nnn)) ∧
    (t.dt ≠ s.dt → ∃ x, i = .ldDTVx x) ∧
    (t.st ≠ s.st → ∃ x, i = .ldSTVx x) ∧
    (t.mem ≠ s.mem → (∃ x, i = .ldB x) ∨ (∃ x, i = .ldMemVx x))

/-- A general register changes only as the destination of an instruction, and VF besides only as the
flag of the seven instructions of R22's table; that no other instruction writes VF is the spec's own
decision D15, notes/assumptions/24.md. -/
def Obligations.RegistersHaveTheirOwnWriters : Prop :=
  ∀ (i : Instr) (s t : State) (r : Reg), exec i s = .next t → t.getV r ≠ s.getV r →
    i.writesReg r = true ∨ (r = vf ∧ i.writesFlag = true)

/-- `PC` stays just past the instruction for every instruction but the control transfers, the skips
and FX0A (R25, "every other instruction"). -/
def Obligations.OnlyTransfersMovePc : Prop :=
  ∀ (i : Instr) (s t : State), exec i s = .next t → t.pc ≠ s.pc → i.transfers = true

/-- What comes from outside an instruction is read only by the instructions named for it: the drawn
byte by CXNN, the key snapshot by EX9E, EXA1 and FX0A, and the accumulators, `HALT`, `FAULTS` and
the model's own fields of the driver by none: changing them beforehand changes nothing but them
afterwards (R171, R34, R35, R36). -/
def Obligations.InstructionsReadNothingFromOutside : Prop :=
  ∀ (i : Instr) (s : State),
    (∀ (p q : Rat) (h fr rd : Bool) (fs : BitVec 6) (ib : List DriverCall) (n : Nat),
      exec i { s with iacc := p, tacc := q, halt := h, faults := fs,
                      frameReady := fr, ready := rd, inbox := ib, calls := n } =
        onNext (fun t => { t with iacc := p, tacc := q, halt := h, faults := fs,
                                  frameReady := fr, ready := rd, inbox := ib, calls := n })
          (exec i s)) ∧
    ((∀ x nn, i ≠ .rnd x nn) → ∀ b : Byte,
      exec i { s with rnd := b } = onNext (fun t => { t with rnd := b }) (exec i s)) ∧
    ((∀ x, i ≠ .skp x ∧ i ≠ .sknp x ∧ i ≠ .ldVxK x) → ∀ k : BitVec 16,
      exec i { s with keys := k } = onNext (fun t => { t with keys := k }) (exec i s))

/-! ### Stack and memory as such (10_state.md, 20_memory.md) -/

/-- Push stores at the current depth and increments it; at depth 16 it fails and CALL raises
StackOverflow, nothing written. Pop decrements the depth and gives the stored value; at depth 0 it
fails and RET raises StackUnderflow. Push then Pop gives the address and the depth back; from an
empty stack exactly 16 pushes succeed (R27, R28); that the popped entry keeps its contents is the
model's choice (R28 also allows clearing it), notes/assumptions/9.md. -/
def Obligations.PushAndPopAreAStack : Prop :=
  (∀ (s : State) (addr : Word) (h : s.sp.val < 16), ∃ t, s.push addr = some t ∧
    t = { s with stack := s.stack.set s.sp.val addr, sp := t.sp } ∧ t.sp.val = s.sp.val + 1 ∧
    ∃ u, t.pop = some (addr, u) ∧ u.sp = s.sp) ∧
  (∀ (s : State) (addr : Word), s.sp.val = 16 → s.push addr = none ∧ ∀ nnn : BitVec 12,
    exec (.call nnn) s = .next { s with fault := some (.stackOverflow (s.pc - 2)) }) ∧
  (∀ (s : State) (h : 0 < s.sp.val), ∃ t, s.pop = some (s.stack[s.sp.val - 1], t) ∧
    t = { s with sp := t.sp } ∧ t.sp.val = s.sp.val - 1) ∧
  (∀ s : State, s.sp.val = 0 → s.pop = none ∧
    exec .ret s = .next { s with fault := some (.stackUnderflow (s.pc - 2)) }) ∧
  ∀ (s : State) (addr : Word) (n : Nat), s.sp.val = 0 →
    ((∃ t, pushTimes addr n s = some t ∧ t.sp.val = n) ↔ n ≤ 16)

/-- A byte written reads back, every other address reads as before, and nothing but memory changes
(R53). -/
def Obligations.MemoryReadsTheLastWrite : Prop :=
  ∀ (s : State) (a b : Nat) (w : Byte), Memory.wf s.params s.mem = true → a < 4096 →
    (s.writeBytes a [w]).readByte a = w ∧
    (b ≠ a → (s.writeBytes a [w]).readByte b = s.readByte b) ∧
    s.writeBytes a [w] = { s with mem := (s.writeBytes a [w]).mem }

/-- A store is seen by the very next fetch: the two bytes stored at `PC` are the bytes fetched
(R64), and they make the big-endian word (R54). -/
def Obligations.StoresAreSeenByTheNextFetch : Prop :=
  ∀ (s : State) (hi lo : Byte), Memory.wf s.params s.mem = true → s.pc.toNat ≤ 0xFFE →
    fetch (s.writeBytes s.pc.toNat [hi, lo]) = some [hi, lo] ∧
    (wordOfBytes hi lo).toNat = hi.toNat * 256 + lo.toNat

/-! ### The instruction cycle and the step (46_cycle_scheduler_timers.md, 60_exceptions.md) -/

/-- A step runs the decoded instruction: when the next driver call is a legal Advance on a running
core that makes an instruction due, and the two bytes at `PC` decode to i, the step is exec of i on
the state with the call latched and `PC` advanced, followed by the rest of the call (R170, R176);
`keyBits` is the latch that AdvanceFollowsTheSpecSteps describes. -/
def Obligations.StepRunsTheDecodedInstruction : Prop :=
  ∀ (s : State) (e : Rat) (ks : List Bool) (b : Byte) (rest : List DriverCall) (i : Instr),
    s.inbox = .advance e ks b :: rest → s.running → 0 ≤ e → ks.length = 16 →
    s.params.iperiod ≤ s.iacc + e → s.pc.toNat ≤ 0xFFE →
    decode [s.readByte s.pc.toNat, s.readByte (s.pc.toNat + 1)] = .ok (i, []) →
    let s1 := { s with
      inbox := rest, keys := keyBits ks, rnd := b, iacc := s.iacc + e, tacc := s.tacc + e,
      fault := none, frameReady := false, pc := s.pc + 2 }
    ∃ t, exec i s1 = .next t ∧ step s = .next (afterInstruction t)

/-- An instruction placed with `withFetchWord` is what the very next step runs, at any state whose
memory is canonical: exec of it runs in the state the instruction cycle of R170 reaches, which holds
the word's two bytes at the place of fetch and `PC` just past them, and in which every other byte,
register and latch is as before, the accumulators moved on until the instruction is due. How the
word is placed (`PC` kept where a fetch is possible, else moved to 0x200; a due Advance call put
first; `HALT` cleared, the core ready) is the model's choice, notes/assumptions/25.md. -/
def Obligations.PlacedWordRunsNext : Prop :=
  ∀ (s : State) (w : Word) (i : Instr), Memory.wf s.params s.mem = true → decodeWord w = .ok i →
    let a := if s.pc.toNat ≤ 0xFFE then s.pc.toNat else 0x200
    ∃ s1 t, exec i s1 = .next t ∧
      step (s.withFetchWord 16 w.toNat) = .next (afterInstruction t) ∧
      (s1.readByte a).toNat = w.toNat / 256 ∧ (s1.readByte (a + 1)).toNat = w.toNat % 256 ∧
      SameMemoryOutside a 2 s s1 ∧ s1.pc.toNat = a + 2 ∧
      s1 = { s with
        mem := s1.mem, pc := s1.pc, halt := false, ready := true, fault := none, frameReady := false,
        iacc := max s.iacc s.params.iperiod,
        tacc := s.tacc + max 0 (s.params.iperiod - s.iacc) }

/-- A fetch with `PC` above 0xFFE raises AddressFault before anything is read, with `PC` unchanged
(R57); the fault is the spec's own decision D5, its precision D9, notes/assumptions/24.md. -/
def Obligations.FetchOutsideMemoryFaults : Prop :=
  ∀ s : State, s.pc.toNat > 0xFFE →
    instructionCycle s = .next { s with fault := some (.address .fetch s.pc.toNat s.pc) }

/-- An unmatched word raises DecodeFault with the word and its address, `PC` is past it, and nothing
else has changed; and DecodeFault is raised only for the word fetched for execution, when it is
unmatched (R191). -/
def Obligations.UnmatchedWordRaisesDecodeFault : Prop :=
  ∀ s : State,
    let w := wordOfBytes (s.readByte s.pc.toNat) (s.readByte (s.pc.toNat + 1))
    (∀ e : DecodeError, s.pc.toNat ≤ 0xFFE → decodeWord w = .error e →
      instructionCycle s = .next { s with pc := s.pc + 2, fault := some (.decode w s.pc) }) ∧
    ∀ (t : State) (w' a : Word), s.fault = none → instructionCycle s = .next t →
      t.fault = some (.decode w' a) →
      s.pc.toNat ≤ 0xFFE ∧ w' = w ∧ a = s.pc ∧ ∃ e, decodeWord w = .error e

/-- Halting (R198). StackOverflow, StackUnderflow, AddressFault and KeyRangeFault always halt,
DecodeFault exactly under policy Halt. A halting fault sets `HALT` and its sticky bit, and the call
returns at once, frame-ready false, without drain or tick. Every later Advance call returns (false,
none) and changes no state (the model's own fields are the call taken and the two outputs). Only
Reset clears `HALT`; halting is the spec's own decisions D10 and D19, notes/assumptions/24.md. -/
def Obligations.HaltingFaultsStopTheCore : Prop :=
  (∀ (p : DecodeFaultPolicy) (w a : Word) (b : Byte) (k : AccessKind) (n : Nat),
    Fault.halting p (.stackOverflow a) = true ∧ Fault.halting p (.stackUnderflow a) = true ∧
    Fault.halting p (.address k n a) = true ∧ Fault.halting p (.keyRange b a) = true ∧
    (Fault.halting p (.decode w a) = true ↔ p = .halt)) ∧
  (∀ (s : State) (f : Fault), s.halt = false → s.frameReady = false → s.fault = some f →
    f.halting s.params.policy = true →
    afterInstruction s =
      { s with halt := true, faults := s.faults ||| (1#6 <<< (f.code - 1)), frameReady := false }) ∧
  (∀ (s : State) (e : Rat) (ks : List Bool) (b : Byte) (rest : List DriverCall),
    s.inbox = .advance e ks b :: rest → s.ready = true → s.halt = true → 0 ≤ e → ks.length = 16 →
    step s = .next { s with inbox := rest, frameReady := false, fault := none }) ∧
  ∀ s t : State, step s = .next t → s.halt = true → t.halt = false →
    ∃ rom p rest, s.inbox = .reset rom p :: rest

/-- The DecodeFault policy (R199). Under Halt the fault is recorded and halts the core; under Skip
it is recorded and returned, `HALT` stays false, the call goes on with the drain and the timer part,
and `PC` is past the word. Under either, `FAULTS` is not 0 afterwards; the policy is the spec's own
decision D8, notes/assumptions/24.md. -/
def Obligations.DecodeFaultFollowsThePolicy : Prop :=
  ∀ (s : State) (e : DecodeError), s.pc.toNat ≤ 0xFFE → s.halt = false → s.frameReady = false →
    let w := wordOfBytes (s.readByte s.pc.toNat) (s.readByte (s.pc.toNat + 1))
    decodeWord w = .error e →
    ∃ t, instructionCycle s = .next t ∧ (afterInstruction t).fault = some (.decode w s.pc) ∧
      (afterInstruction t).pc = s.pc + 2 ∧ (afterInstruction t).faults = s.faults ||| 1 ∧
      (afterInstruction t).faults ≠ 0 ∧
      (s.params.policy = .halt → (afterInstruction t).halt = true ∧
        (afterInstruction t).iacc = s.iacc ∧ (afterInstruction t).dt = s.dt ∧
        (afterInstruction t).st = s.st ∧ (afterInstruction t).frameReady = false) ∧
      (s.params.policy = .skip → (afterInstruction t).halt = false ∧
        afterInstruction t = timerPart (drainIacc { t with faults := s.faults ||| 1 }))

/-- The codes of the six faults (R190), and the sticky bit of code c is bit c - 1 (R36): a reported
fault sets that bit of `FAULTS` and no other, and without one `FAULTS` stays; the numbers and the
bits are the spec's own decisions D21 and D28, notes/assumptions/24.md. -/
def Obligations.FaultCodesAreOneToSix : Prop :=
  (∀ (w a : Word) (b : Byte) (k : AccessKind) (n : Nat),
    (Fault.decode w a).code = 1 ∧ (Fault.stackOverflow a).code = 2 ∧
    (Fault.stackUnderflow a).code = 3 ∧ (Fault.romTooLarge n).code = 4 ∧
    (Fault.address k n a).code = 5 ∧ (Fault.keyRange b a).code = 6) ∧
  (∀ (s : State) (f : Fault), s.fault = some f → ∀ k, k < 6 →
    (afterInstruction s).faults.getLsbD k = (s.faults.getLsbD k || decide (k + 1 = f.code))) ∧
  ∀ s : State, s.fault = none → (afterInstruction s).faults = s.faults

/-- Advance is the pseudocode of R176, line by line: on a running core a legal call latches the keys
and the draw and adds the time; if the instruction accumulator reaches its period one instruction
cycle runs, a fault is recorded, a halting one ends the call, else the accumulator is drained; then
if the timer accumulator reaches its period both timers are ticked once, it is drained and
frame-ready is true. Entry k of the call's keys is `KEYS[k]`, bit k of the latch (R34), and the
timer period is 50000/3 microseconds (R7, R175). The order of the parts and exact rationals are the
spec's own decisions D18 and D17, notes/assumptions/24.md; the latch as a word is the model's choice,
notes/assumptions/21.md. -/
def Obligations.AdvanceFollowsTheSpecSteps : Prop :=
  (∀ (ks : List Bool) (k : Nat), k < 16 → (keyBits ks).getLsbD k = ks.getD k false) ∧
  tperiod = 50000 / 3 ∧
  ∀ (s : State) (e : Rat) (ks : List Bool) (b : Byte) (rest : List DriverCall),
    s.inbox = .advance e ks b :: rest → s.running → 0 ≤ e → ks.length = 16 →
    0 < s.params.iperiod →
    let s1 : State := { s with
      inbox := rest, keys := keyBits ks, rnd := b, iacc := s.iacc + e, tacc := s.tacc + e,
      fault := none, frameReady := false }
    let drain := fun u : State =>
      { u with iacc := u.iacc - u.params.iperiod * ⌊u.iacc / u.params.iperiod⌋ }
    let timer := fun u : State =>
      if tperiod ≤ u.tacc then
        { u with
          dt := if u.dt = 0 then 0 else u.dt - 1
          st := if u.st = 0 then 0 else u.st - 1
          tacc := u.tacc - tperiod * ⌊u.tacc / tperiod⌋
          frameReady := true }
      else { u with frameReady := false }
    (s1.iacc < s1.params.iperiod → step s = .next (timer s1)) ∧
    (s1.params.iperiod ≤ s1.iacc → ∃ t, instructionCycle s1 = .next t ∧
      (t.fault = none → step s = .next (timer (drain t))) ∧
      ∀ f, t.fault = some f →
        (f.halting s.params.policy = true → step s =
          .next { t with faults := t.faults ||| (1#6 <<< (f.code - 1)), halt := true }) ∧
        (f.halting s.params.policy = false → step s =
          .next (timer (drain { t with faults := t.faults ||| (1#6 <<< (f.code - 1)) }))))

/-- Frame-ready is true exactly when the call performed a timer tick: when the timer accumulator
reached its period and the call did not end with a halting fault; then, and only then, both timers
are ticked, from where the call's instruction left them if one was due. It is false in every call on
a halted core (R178). That a halting fault ends the call without a tick and exact rationals are the
spec's own decisions D19 and D17, notes/assumptions/24.md. The value of `tperiod` is in
AdvanceFollowsTheSpecSteps. -/
def Obligations.FrameReadyExactlyOnATick : Prop :=
  ∀ (s : State) (e : Rat) (ks : List Bool) (b : Byte) (rest : List DriverCall),
    s.inbox = .advance e ks b :: rest → s.ready = true → 0 ≤ e → ks.length = 16 →
    let s1 : State := { s with
      inbox := rest, keys := keyBits ks, rnd := b, iacc := s.iacc + e, tacc := s.tacc + e,
      fault := none, frameReady := false }
    ∃ t, step s = .next t ∧
      (s.halt = true → t.frameReady = false ∧ t.dt = s.dt ∧ t.st = s.st) ∧
      (s.halt = false → (t.frameReady = true ↔ tperiod ≤ s.tacc + e ∧ t.halt = false)) ∧
      (s.halt = false → ∃ u,
        (s.iacc + e < s.params.iperiod ∧ u = s1 ∨
          s.params.iperiod ≤ s.iacc + e ∧ instructionCycle s1 = .next u) ∧
        (t.frameReady = true → t.dt = tickTimer u.dt ∧ t.st = tickTimer u.st) ∧
        (t.frameReady = false → t.dt = u.dt ∧ t.st = u.st))

/-- At most one instruction and one tick per call however large the elapsed time (R177): the state
after a call is the one before it with the call latched, or the one after ONE instruction cycle on
that, with both timers ticked once or not at all and nothing else changed but the scheduler's own
fields. What is left in the accumulators after a call that did not halt is below one period, so no
backlog is queued, and what was dropped is a whole number of periods; exact rationals are the spec's
own decision D17, notes/assumptions/16.md. -/
def Obligations.BacklogIsDropped : Prop :=
  ∀ (s t : State) (e : Rat) (ks : List Bool) (b : Byte) (rest : List DriverCall),
    s.inbox = .advance e ks b :: rest → 0 < s.params.iperiod → s.clocksOk → s.halt = false →
    step s = .next t →
    let s1 : State := { s with
      inbox := rest, keys := keyBits ks, rnd := b, iacc := s.iacc + e, tacc := s.tacc + e,
      fault := none, frameReady := false }
    (∃ u,
      (s.iacc + e < s.params.iperiod ∧ u = s1 ∨
        s.params.iperiod ≤ s.iacc + e ∧ instructionCycle s1 = .next u) ∧
      (t.dt = u.dt ∧ t.st = u.st ∨ t.dt = tickTimer u.dt ∧ t.st = tickTimer u.st) ∧
      t = { u with
        dt := t.dt, st := t.st, iacc := t.iacc, tacc := t.tacc, frameReady := t.frameReady,
        halt := t.halt, faults := t.faults }) ∧
    (t.halt = false →
      0 ≤ t.iacc ∧ t.iacc < s.params.iperiod ∧ 0 ≤ t.tacc ∧ t.tacc < tperiod ∧
      (∃ k : ℤ, s.iacc + e - t.iacc = s.params.iperiod * k) ∧
      ∃ k : ℤ, s.tacc + e - t.tacc = tperiod * k)

/-- `mod` is the remainder of R175: the unique r with 0 ≤ r < p that differs from q by a whole
number of periods; exact rationals are the spec's own decision D17, notes/assumptions/24.md. -/
def Obligations.DrainIsTheRationalRemainder : Prop :=
  ∀ q p : ℚ, 0 < p →
    (0 ≤ usMod q p ∧ usMod q p < p ∧ ∃ k : ℤ, q - usMod q p = p * k) ∧
    ∀ r : ℚ, 0 ≤ r → r < p → (∃ k : ℤ, q - r = p * k) → r = usMod q p

/-- A tick takes one off each nonzero timer, leaves a zero timer at zero and changes nothing else;
after n ticks a timer has lost n, and never goes below zero (R173, R174). -/
def Obligations.TicksCountDownToZero : Prop :=
  (∀ s : State, timerTick s = { s with dt := tickTimer s.dt, st := tickTimer s.st }) ∧
  (∀ b : Byte, (b = 0 → tickTimer b = 0) ∧ (b ≠ 0 → tickTimer b = b - 1)) ∧
  ∀ (n : Nat) (s : State), (tickTimes n s).dt.toNat = s.dt.toNat - n ∧
    (tickTimes n s).st.toNat = s.st.toNat - n

/-- `elapsed` and `keys` (R181): a negative elapsed time and a snapshot of not exactly 16 keys are
refused by name; `elapsed` = 0 is legal and, with the accumulators below their periods, latches the
keys (and the model's draw) and does nothing else. Refusing is the spec's own decision D17,
notes/assumptions/24.md; that the time is tested before the keys, and both before `HALT`, is the
model's choice, notes/assumptions/15.md. `keyBits` is the latch that AdvanceFollowsTheSpecSteps
describes. -/
def Obligations.ElapsedAndKeysAreChecked : Prop :=
  ∀ (s : State) (e : Rat) (ks : List Bool) (b : Byte) (rest : List DriverCall),
    s.inbox = .advance e ks b :: rest → s.ready = true →
    (e < 0 → step s = .refused .negativeElapsed) ∧
    (0 ≤ e → ks.length ≠ 16 → step s = .refused .badKeySnapshot) ∧
    (e = 0 → ks.length = 16 → s.halt = false → s.iacc < s.params.iperiod → s.tacc < tperiod →
      step s = .next { s with
        inbox := rest, keys := keyBits ks, rnd := b, fault := none, frameReady := false })

/-! ### Reset (70_reset_and_hazards.md, 10_state.md R45) -/

/-- A successful Reset leaves the state of R45: font and ROM in memory and 0 elsewhere, every
register, timer, cell, accumulator and latch at its reset value, no fault, whatever the state before,
for every ROM that fits and all parameters within R8 (R45, R220); the reset values of `PC`, `I`, `SP`
and the rest are the spec's own decisions D3, D4, D10 and D28, notes/assumptions/24.md. -/
def Obligations.ResetLeavesTheStateOfR45 : Prop :=
  ∀ (s : State) (rom : List Byte) (p : Params) (rest : List DriverCall),
    s.inbox = .reset rom p :: rest →
    p.fontBase ≤ 0x1B0 → p.font.length = 80 → 0 < p.iperiod → rom.length ≤ 3584 →
    ∃ t, step s = .next t ∧
      (∀ k, k < 80 → t.readByte (p.fontBase + k) = p.font.getD k 0) ∧
      (∀ k, k < rom.length → t.readByte (0x200 + k) = rom.getD k 0) ∧
      (∀ a, a < 0x200 → (a < p.fontBase ∨ p.fontBase + 80 ≤ a) → t.readByte a = 0) ∧
      (∀ a, 0x200 + rom.length ≤ a → t.readByte a = 0) ∧
      (∀ r, t.getV r = 0) ∧ t.i = 0 ∧ t.pc = 0x200 ∧ t.sp = 0 ∧ (∀ y x, t.pixel y x = false) ∧
      t.dt = 0 ∧ t.st = 0 ∧ t.keys = 0 ∧ t.iacc = 0 ∧ t.tacc = 0 ∧ t.halt = false ∧ t.faults = 0 ∧
      t.tone = false ∧ t.fault = none ∧ t.ready = true ∧ t.params = p

/-- ROMTooLarge (R222): with parameters within R8, Reset fails exactly when the ROM has 3585 bytes or
more, before any state is written; the code is 4; an Advance after it is refused, the spec's own
decision D26, notes/assumptions/24.md. R222 gives the core no defined state after it: that every
other field, `FAULTS` included, stays as it was, is the model's choice, notes/assumptions/14.md. -/
def Obligations.TooLargeRomFailsReset : Prop :=
  ∀ (s : State) (rom : List Byte) (p : Params) (rest : List DriverCall),
    s.inbox = .reset rom p :: rest →
    p.fontBase ≤ 0x1B0 → p.font.length = 80 → 0 < p.iperiod →
    ∃ t, step s = .next t ∧
      (rom.length ≤ 3584 → t.fault = none ∧ t.ready = true) ∧
      (3585 ≤ rom.length →
        t = { s with inbox := rest, fault := some (.romTooLarge rom.length), frameReady := false,
                     ready := false } ∧
        (Fault.romTooLarge rom.length).code = 4 ∧
        ∀ e ks b rest', rest = .advance e ks b :: rest' →
          step t = .refused .advanceAfterFailedReset)

/-- A Reset is refused by name exactly when its parameters break a constraint of R8, and those are
the constraints that `Params.legal` tests: the refusal is the model's choice,
notes/assumptions/15.md. -/
def Obligations.IllegalParametersAreRefused : Prop :=
  (∀ p : Params, p.legal = true ↔ p.fontBase ≤ 0x1B0 ∧ p.font.length = 80 ∧ 0 < p.iperiod) ∧
  ∀ (s : State) (rom : List Byte) (p : Params) (rest : List DriverCall),
    s.inbox = .reset rom p :: rest →
    (step s = .refused .illegalParameters ↔
      0x1B0 < p.fontBase ∨ p.font.length ≠ 80 ∨ p.iperiod ≤ 0)

/-! ### The invariant -/

/-- The invariant holds at `State.reset`: the state of R45 with the parameters the model builds it
with, `FONT_BASE` and the font (notes/assumptions/1.md, 2.md) and `IPERIOD` (3.md), which are the
model's and legal by R8. -/
def Obligations.InvariantHoldsAtReset : Prop := State.reset.Inv

/-- Every step keeps the invariant, from every state that has it and whatever the driver calls:
memory stays canonical, parameters legal, the accumulators not negative and below their periods
unless halted (R35), `PC` at most 0x10FE (R25), live stack entries in 0x002 to 0x1000 (R100), and a
halted core has a fault on record (R198). -/
def Obligations.EveryStepKeepsTheInvariant : Prop :=
  ∀ s t : State, s.Inv → step s = .next t → t.Inv

/-- A core after a successful Reset always goes on: a placed Advance call with time not negative and
16 keys, and a placed Reset call with parameters within R8, answer a next state (R176, R181, R182).
That an empty inbox means a legal Advance call of the free driver, which answers a next state too,
is the model's choice, notes/assumptions/6.md, and so is that a fault of the spec is a next state and
no step ends in the fault outcome, notes/assumptions/11.md. -/
def Obligations.ReadyCoreAlwaysGoesOn : Prop :=
  ∀ s : State, s.ready = true →
    (s.inbox = [] ∨
      (∃ e ks b rest, s.inbox = .advance e ks b :: rest ∧ 0 ≤ e ∧ ks.length = 16) ∨
      ∃ rom p rest, s.inbox = .reset rom p :: rest ∧
        p.fontBase ≤ 0x1B0 ∧ p.font.length = 80 ∧ 0 < p.iperiod) →
    ∃ t, step s = .next t
end

