-- ==== Sys2Proof/Laws/State.lean ====
section
/-! SUPPORT. What each update of Machine/Ops.lean does to each field of State, so that no later proof
unfolds a record update. -/

namespace Sys2Proof.Machine

/-! ### setV -/

@[simp] theorem State.setV_mem (s : State) (x : Reg) (b : Byte) : (s.setV x b).mem = s.mem := rfl
@[simp] theorem State.setV_v (s : State) (x : Reg) (b : Byte) :
    (s.setV x b).v = s.v.set x.val b := rfl
@[simp] theorem State.setV_i (s : State) (x : Reg) (b : Byte) : (s.setV x b).i = s.i := rfl
@[simp] theorem State.setV_pc (s : State) (x : Reg) (b : Byte) : (s.setV x b).pc = s.pc := rfl
@[simp] theorem State.setV_stack (s : State) (x : Reg) (b : Byte) :
    (s.setV x b).stack = s.stack := rfl
@[simp] theorem State.setV_sp (s : State) (x : Reg) (b : Byte) : (s.setV x b).sp = s.sp := rfl
@[simp] theorem State.setV_fb (s : State) (x : Reg) (b : Byte) : (s.setV x b).fb = s.fb := rfl
@[simp] theorem State.setV_dt (s : State) (x : Reg) (b : Byte) : (s.setV x b).dt = s.dt := rfl
@[simp] theorem State.setV_st (s : State) (x : Reg) (b : Byte) : (s.setV x b).st = s.st := rfl
@[simp] theorem State.setV_keys (s : State) (x : Reg) (b : Byte) : (s.setV x b).keys = s.keys := rfl
@[simp] theorem State.setV_iacc (s : State) (x : Reg) (b : Byte) : (s.setV x b).iacc = s.iacc := rfl
@[simp] theorem State.setV_tacc (s : State) (x : Reg) (b : Byte) : (s.setV x b).tacc = s.tacc := rfl
@[simp] theorem State.setV_halt (s : State) (x : Reg) (b : Byte) : (s.setV x b).halt = s.halt := rfl
@[simp] theorem State.setV_faults (s : State) (x : Reg) (b : Byte) :
    (s.setV x b).faults = s.faults := rfl
@[simp] theorem State.setV_params (s : State) (x : Reg) (b : Byte) :
    (s.setV x b).params = s.params := rfl
@[simp] theorem State.setV_frameReady (s : State) (x : Reg) (b : Byte) :
    (s.setV x b).frameReady = s.frameReady := rfl
@[simp] theorem State.setV_fault (s : State) (x : Reg) (b : Byte) :
    (s.setV x b).fault = s.fault := rfl
@[simp] theorem State.setV_ready (s : State) (x : Reg) (b : Byte) :
    (s.setV x b).ready = s.ready := rfl
@[simp] theorem State.setV_rnd (s : State) (x : Reg) (b : Byte) : (s.setV x b).rnd = s.rnd := rfl
@[simp] theorem State.setV_inbox (s : State) (x : Reg) (b : Byte) :
    (s.setV x b).inbox = s.inbox := rfl
@[simp] theorem State.setV_calls (s : State) (x : Reg) (b : Byte) :
    (s.setV x b).calls = s.calls := rfl

/-! ### setVThenFlag -/

@[simp] theorem State.setVThenFlag_mem (s : State) (x : Reg) (b f : Byte) :
    (s.setVThenFlag x b f).mem = s.mem := rfl
@[simp] theorem State.setVThenFlag_v (s : State) (x : Reg) (b f : Byte) :
    (s.setVThenFlag x b f).v = (s.v.set x.val b).set 15 f := rfl
@[simp] theorem State.setVThenFlag_i (s : State) (x : Reg) (b f : Byte) :
    (s.setVThenFlag x b f).i = s.i := rfl
@[simp] theorem State.setVThenFlag_pc (s : State) (x : Reg) (b f : Byte) :
    (s.setVThenFlag x b f).pc = s.pc := rfl
@[simp] theorem State.setVThenFlag_stack (s : State) (x : Reg) (b f : Byte) :
    (s.setVThenFlag x b f).stack = s.stack := rfl
@[simp] theorem State.setVThenFlag_sp (s : State) (x : Reg) (b f : Byte) :
    (s.setVThenFlag x b f).sp = s.sp := rfl
@[simp] theorem State.setVThenFlag_fb (s : State) (x : Reg) (b f : Byte) :
    (s.setVThenFlag x b f).fb = s.fb := rfl
@[simp] theorem State.setVThenFlag_dt (s : State) (x : Reg) (b f : Byte) :
    (s.setVThenFlag x b f).dt = s.dt := rfl
@[simp] theorem State.setVThenFlag_st (s : State) (x : Reg) (b f : Byte) :
    (s.setVThenFlag x b f).st = s.st := rfl
@[simp] theorem State.setVThenFlag_keys (s : State) (x : Reg) (b f : Byte) :
    (s.setVThenFlag x b f).keys = s.keys := rfl
@[simp] theorem State.setVThenFlag_iacc (s : State) (x : Reg) (b f : Byte) :
    (s.setVThenFlag x b f).iacc = s.iacc := rfl
@[simp] theorem State.setVThenFlag_tacc (s : State) (x : Reg) (b f : Byte) :
    (s.setVThenFlag x b f).tacc = s.tacc := rfl
@[simp] theorem State.setVThenFlag_halt (s : State) (x : Reg) (b f : Byte) :
    (s.setVThenFlag x b f).halt = s.halt := rfl
@[simp] theorem State.setVThenFlag_faults (s : State) (x : Reg) (b f : Byte) :
    (s.setVThenFlag x b f).faults = s.faults := rfl
@[simp] theorem State.setVThenFlag_params (s : State) (x : Reg) (b f : Byte) :
    (s.setVThenFlag x b f).params = s.params := rfl
@[simp] theorem State.setVThenFlag_frameReady (s : State) (x : Reg) (b f : Byte) :
    (s.setVThenFlag x b f).frameReady = s.frameReady := rfl
@[simp] theorem State.setVThenFlag_fault (s : State) (x : Reg) (b f : Byte) :
    (s.setVThenFlag x b f).fault = s.fault := rfl
@[simp] theorem State.setVThenFlag_ready (s : State) (x : Reg) (b f : Byte) :
    (s.setVThenFlag x b f).ready = s.ready := rfl
@[simp] theorem State.setVThenFlag_rnd (s : State) (x : Reg) (b f : Byte) :
    (s.setVThenFlag x b f).rnd = s.rnd := rfl
@[simp] theorem State.setVThenFlag_inbox (s : State) (x : Reg) (b f : Byte) :
    (s.setVThenFlag x b f).inbox = s.inbox := rfl
@[simp] theorem State.setVThenFlag_calls (s : State) (x : Reg) (b f : Byte) :
    (s.setVThenFlag x b f).calls = s.calls := rfl

/-! ### setI -/

@[simp] theorem State.setI_mem (s : State) (w : Word) : (s.setI w).mem = s.mem := rfl
@[simp] theorem State.setI_v (s : State) (w : Word) : (s.setI w).v = s.v := rfl
@[simp] theorem State.setI_i (s : State) (w : Word) : (s.setI w).i = w := rfl
@[simp] theorem State.setI_pc (s : State) (w : Word) : (s.setI w).pc = s.pc := rfl
@[simp] theorem State.setI_stack (s : State) (w : Word) : (s.setI w).stack = s.stack := rfl
@[simp] theorem State.setI_sp (s : State) (w : Word) : (s.setI w).sp = s.sp := rfl
@[simp] theorem State.setI_fb (s : State) (w : Word) : (s.setI w).fb = s.fb := rfl
@[simp] theorem State.setI_dt (s : State) (w : Word) : (s.setI w).dt = s.dt := rfl
@[simp] theorem State.setI_st (s : State) (w : Word) : (s.setI w).st = s.st := rfl
@[simp] theorem State.setI_keys (s : State) (w : Word) : (s.setI w).keys = s.keys := rfl
@[simp] theorem State.setI_iacc (s : State) (w : Word) : (s.setI w).iacc = s.iacc := rfl
@[simp] theorem State.setI_tacc (s : State) (w : Word) : (s.setI w).tacc = s.tacc := rfl
@[simp] theorem State.setI_halt (s : State) (w : Word) : (s.setI w).halt = s.halt := rfl
@[simp] theorem State.setI_faults (s : State) (w : Word) : (s.setI w).faults = s.faults := rfl
@[simp] theorem State.setI_params (s : State) (w : Word) : (s.setI w).params = s.params := rfl
@[simp] theorem State.setI_frameReady (s : State) (w : Word) :
    (s.setI w).frameReady = s.frameReady := rfl
@[simp] theorem State.setI_fault (s : State) (w : Word) : (s.setI w).fault = s.fault := rfl
@[simp] theorem State.setI_ready (s : State) (w : Word) : (s.setI w).ready = s.ready := rfl
@[simp] theorem State.setI_rnd (s : State) (w : Word) : (s.setI w).rnd = s.rnd := rfl
@[simp] theorem State.setI_inbox (s : State) (w : Word) : (s.setI w).inbox = s.inbox := rfl
@[simp] theorem State.setI_calls (s : State) (w : Word) : (s.setI w).calls = s.calls := rfl

/-! ### setPc -/

@[simp] theorem State.setPc_mem (s : State) (w : Word) : (s.setPc w).mem = s.mem := rfl
@[simp] theorem State.setPc_v (s : State) (w : Word) : (s.setPc w).v = s.v := rfl
@[simp] theorem State.setPc_i (s : State) (w : Word) : (s.setPc w).i = s.i := rfl
@[simp] theorem State.setPc_pc (s : State) (w : Word) : (s.setPc w).pc = w := rfl
@[simp] theorem State.setPc_stack (s : State) (w : Word) : (s.setPc w).stack = s.stack := rfl
@[simp] theorem State.setPc_sp (s : State) (w : Word) : (s.setPc w).sp = s.sp := rfl
@[simp] theorem State.setPc_fb (s : State) (w : Word) : (s.setPc w).fb = s.fb := rfl
@[simp] theorem State.setPc_dt (s : State) (w : Word) : (s.setPc w).dt = s.dt := rfl
@[simp] theorem State.setPc_st (s : State) (w : Word) : (s.setPc w).st = s.st := rfl
@[simp] theorem State.setPc_keys (s : State) (w : Word) : (s.setPc w).keys = s.keys := rfl
@[simp] theorem State.setPc_iacc (s : State) (w : Word) : (s.setPc w).iacc = s.iacc := rfl
@[simp] theorem State.setPc_tacc (s : State) (w : Word) : (s.setPc w).tacc = s.tacc := rfl
@[simp] theorem State.setPc_halt (s : State) (w : Word) : (s.setPc w).halt = s.halt := rfl
@[simp] theorem State.setPc_faults (s : State) (w : Word) : (s.setPc w).faults = s.faults := rfl
@[simp] theorem State.setPc_params (s : State) (w : Word) : (s.setPc w).params = s.params := rfl
@[simp] theorem State.setPc_frameReady (s : State) (w : Word) :
    (s.setPc w).frameReady = s.frameReady := rfl
@[simp] theorem State.setPc_fault (s : State) (w : Word) : (s.setPc w).fault = s.fault := rfl
@[simp] theorem State.setPc_ready (s : State) (w : Word) : (s.setPc w).ready = s.ready := rfl
@[simp] theorem State.setPc_rnd (s : State) (w : Word) : (s.setPc w).rnd = s.rnd := rfl
@[simp] theorem State.setPc_inbox (s : State) (w : Word) : (s.setPc w).inbox = s.inbox := rfl
@[simp] theorem State.setPc_calls (s : State) (w : Word) : (s.setPc w).calls = s.calls := rfl

/-! ### setDT -/

@[simp] theorem State.setDT_mem (s : State) (b : Byte) : (s.setDT b).mem = s.mem := rfl
@[simp] theorem State.setDT_v (s : State) (b : Byte) : (s.setDT b).v = s.v := rfl
@[simp] theorem State.setDT_i (s : State) (b : Byte) : (s.setDT b).i = s.i := rfl
@[simp] theorem State.setDT_pc (s : State) (b : Byte) : (s.setDT b).pc = s.pc := rfl
@[simp] theorem State.setDT_stack (s : State) (b : Byte) : (s.setDT b).stack = s.stack := rfl
@[simp] theorem State.setDT_sp (s : State) (b : Byte) : (s.setDT b).sp = s.sp := rfl
@[simp] theorem State.setDT_fb (s : State) (b : Byte) : (s.setDT b).fb = s.fb := rfl
@[simp] theorem State.setDT_dt (s : State) (b : Byte) : (s.setDT b).dt = b := rfl
@[simp] theorem State.setDT_st (s : State) (b : Byte) : (s.setDT b).st = s.st := rfl
@[simp] theorem State.setDT_keys (s : State) (b : Byte) : (s.setDT b).keys = s.keys := rfl
@[simp] theorem State.setDT_iacc (s : State) (b : Byte) : (s.setDT b).iacc = s.iacc := rfl
@[simp] theorem State.setDT_tacc (s : State) (b : Byte) : (s.setDT b).tacc = s.tacc := rfl
@[simp] theorem State.setDT_halt (s : State) (b : Byte) : (s.setDT b).halt = s.halt := rfl
@[simp] theorem State.setDT_faults (s : State) (b : Byte) : (s.setDT b).faults = s.faults := rfl
@[simp] theorem State.setDT_params (s : State) (b : Byte) : (s.setDT b).params = s.params := rfl
@[simp] theorem State.setDT_frameReady (s : State) (b : Byte) :
    (s.setDT b).frameReady = s.frameReady := rfl
@[simp] theorem State.setDT_fault (s : State) (b : Byte) : (s.setDT b).fault = s.fault := rfl
@[simp] theorem State.setDT_ready (s : State) (b : Byte) : (s.setDT b).ready = s.ready := rfl
@[simp] theorem State.setDT_rnd (s : State) (b : Byte) : (s.setDT b).rnd = s.rnd := rfl
@[simp] theorem State.setDT_inbox (s : State) (b : Byte) : (s.setDT b).inbox = s.inbox := rfl
@[simp] theorem State.setDT_calls (s : State) (b : Byte) : (s.setDT b).calls = s.calls := rfl

/-! ### setST -/

@[simp] theorem State.setST_mem (s : State) (b : Byte) : (s.setST b).mem = s.mem := rfl
@[simp] theorem State.setST_v (s : State) (b : Byte) : (s.setST b).v = s.v := rfl
@[simp] theorem State.setST_i (s : State) (b : Byte) : (s.setST b).i = s.i := rfl
@[simp] theorem State.setST_pc (s : State) (b : Byte) : (s.setST b).pc = s.pc := rfl
@[simp] theorem State.setST_stack (s : State) (b : Byte) : (s.setST b).stack = s.stack := rfl
@[simp] theorem State.setST_sp (s : State) (b : Byte) : (s.setST b).sp = s.sp := rfl
@[simp] theorem State.setST_fb (s : State) (b : Byte) : (s.setST b).fb = s.fb := rfl
@[simp] theorem State.setST_dt (s : State) (b : Byte) : (s.setST b).dt = s.dt := rfl
@[simp] theorem State.setST_st (s : State) (b : Byte) : (s.setST b).st = b := rfl
@[simp] theorem State.setST_keys (s : State) (b : Byte) : (s.setST b).keys = s.keys := rfl
@[simp] theorem State.setST_iacc (s : State) (b : Byte) : (s.setST b).iacc = s.iacc := rfl
@[simp] theorem State.setST_tacc (s : State) (b : Byte) : (s.setST b).tacc = s.tacc := rfl
@[simp] theorem State.setST_halt (s : State) (b : Byte) : (s.setST b).halt = s.halt := rfl
@[simp] theorem State.setST_faults (s : State) (b : Byte) : (s.setST b).faults = s.faults := rfl
@[simp] theorem State.setST_params (s : State) (b : Byte) : (s.setST b).params = s.params := rfl
@[simp] theorem State.setST_frameReady (s : State) (b : Byte) :
    (s.setST b).frameReady = s.frameReady := rfl
@[simp] theorem State.setST_fault (s : State) (b : Byte) : (s.setST b).fault = s.fault := rfl
@[simp] theorem State.setST_ready (s : State) (b : Byte) : (s.setST b).ready = s.ready := rfl
@[simp] theorem State.setST_rnd (s : State) (b : Byte) : (s.setST b).rnd = s.rnd := rfl
@[simp] theorem State.setST_inbox (s : State) (b : Byte) : (s.setST b).inbox = s.inbox := rfl
@[simp] theorem State.setST_calls (s : State) (b : Byte) : (s.setST b).calls = s.calls := rfl

/-! ### writeBytes -/

@[simp] theorem State.writeBytes_mem (s : State) (a : Nat) (bs : List Byte) :
    (s.writeBytes a bs).mem = Memory.writeBytes s.params s.mem a bs := rfl
@[simp] theorem State.writeBytes_v (s : State) (a : Nat) (bs : List Byte) :
    (s.writeBytes a bs).v = s.v := rfl
@[simp] theorem State.writeBytes_i (s : State) (a : Nat) (bs : List Byte) :
    (s.writeBytes a bs).i = s.i := rfl
@[simp] theorem State.writeBytes_pc (s : State) (a : Nat) (bs : List Byte) :
    (s.writeBytes a bs).pc = s.pc := rfl
@[simp] theorem State.writeBytes_stack (s : State) (a : Nat) (bs : List Byte) :
    (s.writeBytes a bs).stack = s.stack := rfl
@[simp] theorem State.writeBytes_sp (s : State) (a : Nat) (bs : List Byte) :
    (s.writeBytes a bs).sp = s.sp := rfl
@[simp] theorem State.writeBytes_fb (s : State) (a : Nat) (bs : List Byte) :
    (s.writeBytes a bs).fb = s.fb := rfl
@[simp] theorem State.writeBytes_dt (s : State) (a : Nat) (bs : List Byte) :
    (s.writeBytes a bs).dt = s.dt := rfl
@[simp] theorem State.writeBytes_st (s : State) (a : Nat) (bs : List Byte) :
    (s.writeBytes a bs).st = s.st := rfl
@[simp] theorem State.writeBytes_keys (s : State) (a : Nat) (bs : List Byte) :
    (s.writeBytes a bs).keys = s.keys := rfl
@[simp] theorem State.writeBytes_iacc (s : State) (a : Nat) (bs : List Byte) :
    (s.writeBytes a bs).iacc = s.iacc := rfl
@[simp] theorem State.writeBytes_tacc (s : State) (a : Nat) (bs : List Byte) :
    (s.writeBytes a bs).tacc = s.tacc := rfl
@[simp] theorem State.writeBytes_halt (s : State) (a : Nat) (bs : List Byte) :
    (s.writeBytes a bs).halt = s.halt := rfl
@[simp] theorem State.writeBytes_faults (s : State) (a : Nat) (bs : List Byte) :
    (s.writeBytes a bs).faults = s.faults := rfl
@[simp] theorem State.writeBytes_params (s : State) (a : Nat) (bs : List Byte) :
    (s.writeBytes a bs).params = s.params := rfl
@[simp] theorem State.writeBytes_frameReady (s : State) (a : Nat) (bs : List Byte) :
    (s.writeBytes a bs).frameReady = s.frameReady := rfl
@[simp] theorem State.writeBytes_fault (s : State) (a : Nat) (bs : List Byte) :
    (s.writeBytes a bs).fault = s.fault := rfl
@[simp] theorem State.writeBytes_ready (s : State) (a : Nat) (bs : List Byte) :
    (s.writeBytes a bs).ready = s.ready := rfl
@[simp] theorem State.writeBytes_rnd (s : State) (a : Nat) (bs : List Byte) :
    (s.writeBytes a bs).rnd = s.rnd := rfl
@[simp] theorem State.writeBytes_inbox (s : State) (a : Nat) (bs : List Byte) :
    (s.writeBytes a bs).inbox = s.inbox := rfl
@[simp] theorem State.writeBytes_calls (s : State) (a : Nat) (bs : List Byte) :
    (s.writeBytes a bs).calls = s.calls := rfl

/-! ### loadV -/

@[simp] theorem State.loadV_mem (s : State) (x : Reg) (bs : List Byte) :
    (s.loadV x bs).mem = s.mem := by simp only [State.loadV]
@[simp] theorem State.loadV_v (s : State) (x : Reg) (bs : List Byte) :
    (s.loadV x bs).v = Vector.ofFn fun k : Fin 16 => if k ≤ x then bs.getD k.val 0 else s.getV k := by simp only [State.loadV]
@[simp] theorem State.loadV_i (s : State) (x : Reg) (bs : List Byte) :
    (s.loadV x bs).i = s.i := by simp only [State.loadV]
@[simp] theorem State.loadV_pc (s : State) (x : Reg) (bs : List Byte) :
    (s.loadV x bs).pc = s.pc := by simp only [State.loadV]
@[simp] theorem State.loadV_stack (s : State) (x : Reg) (bs : List Byte) :
    (s.loadV x bs).stack = s.stack := by simp only [State.loadV]
@[simp] theorem State.loadV_sp (s : State) (x : Reg) (bs : List Byte) :
    (s.loadV x bs).sp = s.sp := by simp only [State.loadV]
@[simp] theorem State.loadV_fb (s : State) (x : Reg) (bs : List Byte) :
    (s.loadV x bs).fb = s.fb := by simp only [State.loadV]
@[simp] theorem State.loadV_dt (s : State) (x : Reg) (bs : List Byte) :
    (s.loadV x bs).dt = s.dt := by simp only [State.loadV]
@[simp] theorem State.loadV_st (s : State) (x : Reg) (bs : List Byte) :
    (s.loadV x bs).st = s.st := by simp only [State.loadV]
@[simp] theorem State.loadV_keys (s : State) (x : Reg) (bs : List Byte) :
    (s.loadV x bs).keys = s.keys := by simp only [State.loadV]
@[simp] theorem State.loadV_iacc (s : State) (x : Reg) (bs : List Byte) :
    (s.loadV x bs).iacc = s.iacc := by simp only [State.loadV]
@[simp] theorem State.loadV_tacc (s : State) (x : Reg) (bs : List Byte) :
    (s.loadV x bs).tacc = s.tacc := by simp only [State.loadV]
@[simp] theorem State.loadV_halt (s : State) (x : Reg) (bs : List Byte) :
    (s.loadV x bs).halt = s.halt := by simp only [State.loadV]
@[simp] theorem State.loadV_faults (s : State) (x : Reg) (bs : List Byte) :
    (s.loadV x bs).faults = s.faults := by simp only [State.loadV]
@[simp] theorem State.loadV_params (s : State) (x : Reg) (bs : List Byte) :
    (s.loadV x bs).params = s.params := by simp only [State.loadV]
@[simp] theorem State.loadV_frameReady (s : State) (x : Reg) (bs : List Byte) :
    (s.loadV x bs).frameReady = s.frameReady := by simp only [State.loadV]
@[simp] theorem State.loadV_fault (s : State) (x : Reg) (bs : List Byte) :
    (s.loadV x bs).fault = s.fault := by simp only [State.loadV]
@[simp] theorem State.loadV_ready (s : State) (x : Reg) (bs : List Byte) :
    (s.loadV x bs).ready = s.ready := by simp only [State.loadV]
@[simp] theorem State.loadV_rnd (s : State) (x : Reg) (bs : List Byte) :
    (s.loadV x bs).rnd = s.rnd := by simp only [State.loadV]
@[simp] theorem State.loadV_inbox (s : State) (x : Reg) (bs : List Byte) :
    (s.loadV x bs).inbox = s.inbox := by simp only [State.loadV]
@[simp] theorem State.loadV_calls (s : State) (x : Reg) (bs : List Byte) :
    (s.loadV x bs).calls = s.calls := by simp only [State.loadV]

/-! ### clearFb -/

@[simp] theorem State.clearFb_mem (s : State) : (s.clearFb).mem = s.mem := rfl
@[simp] theorem State.clearFb_v (s : State) : (s.clearFb).v = s.v := rfl
@[simp] theorem State.clearFb_i (s : State) : (s.clearFb).i = s.i := rfl
@[simp] theorem State.clearFb_pc (s : State) : (s.clearFb).pc = s.pc := rfl
@[simp] theorem State.clearFb_stack (s : State) : (s.clearFb).stack = s.stack := rfl
@[simp] theorem State.clearFb_sp (s : State) : (s.clearFb).sp = s.sp := rfl
@[simp] theorem State.clearFb_fb (s : State) : (s.clearFb).fb = Vector.replicate 32 0 := rfl
@[simp] theorem State.clearFb_dt (s : State) : (s.clearFb).dt = s.dt := rfl
@[simp] theorem State.clearFb_st (s : State) : (s.clearFb).st = s.st := rfl
@[simp] theorem State.clearFb_keys (s : State) : (s.clearFb).keys = s.keys := rfl
@[simp] theorem State.clearFb_iacc (s : State) : (s.clearFb).iacc = s.iacc := rfl
@[simp] theorem State.clearFb_tacc (s : State) : (s.clearFb).tacc = s.tacc := rfl
@[simp] theorem State.clearFb_halt (s : State) : (s.clearFb).halt = s.halt := rfl
@[simp] theorem State.clearFb_faults (s : State) : (s.clearFb).faults = s.faults := rfl
@[simp] theorem State.clearFb_params (s : State) : (s.clearFb).params = s.params := rfl
@[simp] theorem State.clearFb_frameReady (s : State) : (s.clearFb).frameReady = s.frameReady := rfl
@[simp] theorem State.clearFb_fault (s : State) : (s.clearFb).fault = s.fault := rfl
@[simp] theorem State.clearFb_ready (s : State) : (s.clearFb).ready = s.ready := rfl
@[simp] theorem State.clearFb_rnd (s : State) : (s.clearFb).rnd = s.rnd := rfl
@[simp] theorem State.clearFb_inbox (s : State) : (s.clearFb).inbox = s.inbox := rfl
@[simp] theorem State.clearFb_calls (s : State) : (s.clearFb).calls = s.calls := rfl

/-! ### xorSprite -/

@[simp] theorem State.xorSprite_mem (s : State) (rows : List Byte) (x0 y0 : Nat) :
    (s.xorSprite rows x0 y0).mem = s.mem := by simp only [State.xorSprite]
@[simp] theorem State.xorSprite_v (s : State) (rows : List Byte) (x0 y0 : Nat) :
    (s.xorSprite rows x0 y0).v = s.v := by simp only [State.xorSprite]
@[simp] theorem State.xorSprite_i (s : State) (rows : List Byte) (x0 y0 : Nat) :
    (s.xorSprite rows x0 y0).i = s.i := by simp only [State.xorSprite]
@[simp] theorem State.xorSprite_pc (s : State) (rows : List Byte) (x0 y0 : Nat) :
    (s.xorSprite rows x0 y0).pc = s.pc := by simp only [State.xorSprite]
@[simp] theorem State.xorSprite_stack (s : State) (rows : List Byte) (x0 y0 : Nat) :
    (s.xorSprite rows x0 y0).stack = s.stack := by simp only [State.xorSprite]
@[simp] theorem State.xorSprite_sp (s : State) (rows : List Byte) (x0 y0 : Nat) :
    (s.xorSprite rows x0 y0).sp = s.sp := by simp only [State.xorSprite]
@[simp] theorem State.xorSprite_fb (s : State) (rows : List Byte) (x0 y0 : Nat) :
    (s.xorSprite rows x0 y0).fb = Vector.ofFn fun y : Fin 32 => s.fb[y.val] ^^^ spriteMask rows x0 y0 y.val := by simp only [State.xorSprite]
@[simp] theorem State.xorSprite_dt (s : State) (rows : List Byte) (x0 y0 : Nat) :
    (s.xorSprite rows x0 y0).dt = s.dt := by simp only [State.xorSprite]
@[simp] theorem State.xorSprite_st (s : State) (rows : List Byte) (x0 y0 : Nat) :
    (s.xorSprite rows x0 y0).st = s.st := by simp only [State.xorSprite]
@[simp] theorem State.xorSprite_keys (s : State) (rows : List Byte) (x0 y0 : Nat) :
    (s.xorSprite rows x0 y0).keys = s.keys := by simp only [State.xorSprite]
@[simp] theorem State.xorSprite_iacc (s : State) (rows : List Byte) (x0 y0 : Nat) :
    (s.xorSprite rows x0 y0).iacc = s.iacc := by simp only [State.xorSprite]
@[simp] theorem State.xorSprite_tacc (s : State) (rows : List Byte) (x0 y0 : Nat) :
    (s.xorSprite rows x0 y0).tacc = s.tacc := by simp only [State.xorSprite]
@[simp] theorem State.xorSprite_halt (s : State) (rows : List Byte) (x0 y0 : Nat) :
    (s.xorSprite rows x0 y0).halt = s.halt := by simp only [State.xorSprite]
@[simp] theorem State.xorSprite_faults (s : State) (rows : List Byte) (x0 y0 : Nat) :
    (s.xorSprite rows x0 y0).faults = s.faults := by simp only [State.xorSprite]
@[simp] theorem State.xorSprite_params (s : State) (rows : List Byte) (x0 y0 : Nat) :
    (s.xorSprite rows x0 y0).params = s.params := by simp only [State.xorSprite]
@[simp] theorem State.xorSprite_frameReady (s : State) (rows : List Byte) (x0 y0 : Nat) :
    (s.xorSprite rows x0 y0).frameReady = s.frameReady := by simp only [State.xorSprite]
@[simp] theorem State.xorSprite_fault (s : State) (rows : List Byte) (x0 y0 : Nat) :
    (s.xorSprite rows x0 y0).fault = s.fault := by simp only [State.xorSprite]
@[simp] theorem State.xorSprite_ready (s : State) (rows : List Byte) (x0 y0 : Nat) :
    (s.xorSprite rows x0 y0).ready = s.ready := by simp only [State.xorSprite]
@[simp] theorem State.xorSprite_rnd (s : State) (rows : List Byte) (x0 y0 : Nat) :
    (s.xorSprite rows x0 y0).rnd = s.rnd := by simp only [State.xorSprite]
@[simp] theorem State.xorSprite_inbox (s : State) (rows : List Byte) (x0 y0 : Nat) :
    (s.xorSprite rows x0 y0).inbox = s.inbox := by simp only [State.xorSprite]
@[simp] theorem State.xorSprite_calls (s : State) (rows : List Byte) (x0 y0 : Nat) :
    (s.xorSprite rows x0 y0).calls = s.calls := by simp only [State.xorSprite]

/-! ### skipNext -/

@[simp] theorem State.skipNext_mem (s : State) : (s.skipNext).mem = s.mem := rfl
@[simp] theorem State.skipNext_v (s : State) : (s.skipNext).v = s.v := rfl
@[simp] theorem State.skipNext_i (s : State) : (s.skipNext).i = s.i := rfl
@[simp] theorem State.skipNext_pc (s : State) : (s.skipNext).pc = s.pc + 2 := rfl
@[simp] theorem State.skipNext_stack (s : State) : (s.skipNext).stack = s.stack := rfl
@[simp] theorem State.skipNext_sp (s : State) : (s.skipNext).sp = s.sp := rfl
@[simp] theorem State.skipNext_fb (s : State) : (s.skipNext).fb = s.fb := rfl
@[simp] theorem State.skipNext_dt (s : State) : (s.skipNext).dt = s.dt := rfl
@[simp] theorem State.skipNext_st (s : State) : (s.skipNext).st = s.st := rfl
@[simp] theorem State.skipNext_keys (s : State) : (s.skipNext).keys = s.keys := rfl
@[simp] theorem State.skipNext_iacc (s : State) : (s.skipNext).iacc = s.iacc := rfl
@[simp] theorem State.skipNext_tacc (s : State) : (s.skipNext).tacc = s.tacc := rfl
@[simp] theorem State.skipNext_halt (s : State) : (s.skipNext).halt = s.halt := rfl
@[simp] theorem State.skipNext_faults (s : State) : (s.skipNext).faults = s.faults := rfl
@[simp] theorem State.skipNext_params (s : State) : (s.skipNext).params = s.params := rfl
@[simp] theorem State.skipNext_frameReady (s : State) :
    (s.skipNext).frameReady = s.frameReady := rfl
@[simp] theorem State.skipNext_fault (s : State) : (s.skipNext).fault = s.fault := rfl
@[simp] theorem State.skipNext_ready (s : State) : (s.skipNext).ready = s.ready := rfl
@[simp] theorem State.skipNext_rnd (s : State) : (s.skipNext).rnd = s.rnd := rfl
@[simp] theorem State.skipNext_inbox (s : State) : (s.skipNext).inbox = s.inbox := rfl
@[simp] theorem State.skipNext_calls (s : State) : (s.skipNext).calls = s.calls := rfl

/-! ### rewind -/

@[simp] theorem State.rewind_mem (s : State) : (s.rewind).mem = s.mem := rfl
@[simp] theorem State.rewind_v (s : State) : (s.rewind).v = s.v := rfl
@[simp] theorem State.rewind_i (s : State) : (s.rewind).i = s.i := rfl
@[simp] theorem State.rewind_pc (s : State) : (s.rewind).pc = s.pc - 2 := rfl
@[simp] theorem State.rewind_stack (s : State) : (s.rewind).stack = s.stack := rfl
@[simp] theorem State.rewind_sp (s : State) : (s.rewind).sp = s.sp := rfl
@[simp] theorem State.rewind_fb (s : State) : (s.rewind).fb = s.fb := rfl
@[simp] theorem State.rewind_dt (s : State) : (s.rewind).dt = s.dt := rfl
@[simp] theorem State.rewind_st (s : State) : (s.rewind).st = s.st := rfl
@[simp] theorem State.rewind_keys (s : State) : (s.rewind).keys = s.keys := rfl
@[simp] theorem State.rewind_iacc (s : State) : (s.rewind).iacc = s.iacc := rfl
@[simp] theorem State.rewind_tacc (s : State) : (s.rewind).tacc = s.tacc := rfl
@[simp] theorem State.rewind_halt (s : State) : (s.rewind).halt = s.halt := rfl
@[simp] theorem State.rewind_faults (s : State) : (s.rewind).faults = s.faults := rfl
@[simp] theorem State.rewind_params (s : State) : (s.rewind).params = s.params := rfl
@[simp] theorem State.rewind_frameReady (s : State) : (s.rewind).frameReady = s.frameReady := rfl
@[simp] theorem State.rewind_fault (s : State) : (s.rewind).fault = s.fault := rfl
@[simp] theorem State.rewind_ready (s : State) : (s.rewind).ready = s.ready := rfl
@[simp] theorem State.rewind_rnd (s : State) : (s.rewind).rnd = s.rnd := rfl
@[simp] theorem State.rewind_inbox (s : State) : (s.rewind).inbox = s.inbox := rfl
@[simp] theorem State.rewind_calls (s : State) : (s.rewind).calls = s.calls := rfl

end Sys2Proof.Machine
end

