-- ==== Sys2Proof/Laws/Clock.lean ====
section
/-! SUPPORT. The exact rational operations of Machine/Clock.lean are the library's, what the clock
operations do to the state, and the key snapshot's two forms. -/

namespace Sys2Proof.Machine

theorem usAdd_eq (a b : ℚ) : usAdd a b = a + b := by
  rw [usAdd, Rat.add_def']

theorem usSub_eq (a b : ℚ) : usSub a b = a - b := by
  rw [usSub, Rat.sub_def']

theorem usLe_iff (a b : ℚ) : usLe a b = true ↔ a ≤ b := by
  simp [usLe, Rat.le_iff]

theorem reaches_iff (acc period : ℚ) : reaches acc period = true ↔ period ≤ acc := usLe_iff _ _

/-- `usMod` is the `mod` of R175. -/
theorem usMod_eq (q p : ℚ) (hp : 0 < p) : usMod q p = q - p * ⌊q / p⌋ := by
  have hpn : 0 < p.num := Rat.num_pos.2 hp
  have h1 : (q.den : ℚ) ≠ 0 := by exact_mod_cast q.den_nz
  have h2 : (p.den : ℚ) ≠ 0 := by exact_mod_cast p.den_nz
  have h3 : (p.num : ℚ) ≠ 0 := by exact_mod_cast hpn.ne'
  have hcast : ((p.num.toNat : ℕ) : ℚ) = (p.num : ℚ) := by
    exact_mod_cast Int.toNat_of_nonneg hpn.le
  have hfloor : ⌊q / p⌋ = (q.num * p.den) / (q.den * p.num) := by
    have h : q / p = ((q.num * p.den : ℤ) : ℚ) / ((q.den * p.num.toNat : ℕ) : ℚ) := by
      push_cast
      rw [hcast]
      conv_lhs => rw [← Rat.num_div_den q, ← Rat.num_div_den p]
      field_simp
    rw [h, Rat.floor_intCast_div_natCast]
    push_cast
    rw [Int.toNat_of_nonneg hpn.le]
  rw [hfloor, usMod, Rat.mkRat_eq_div]
  generalize q.num * p.den / (q.den * p.num) = k
  push_cast
  conv_rhs => rw [← Rat.num_div_den q, ← Rat.num_div_den p]
  field_simp

theorem usMod_nonneg (q p : ℚ) (hp : 0 < p) : 0 ≤ usMod q p := by
  rw [usMod_eq q p hp]
  have := Int.floor_le (q / p)
  rw [le_div_iff₀ hp] at this
  linarith

theorem usMod_lt (q p : ℚ) (hp : 0 < p) : usMod q p < p := by
  rw [usMod_eq q p hp]
  have := Int.lt_floor_add_one (q / p)
  rw [div_lt_iff₀ hp] at this
  linarith

/-- What legal parameters are (R8). -/
theorem legal_iff (p : Params) :
    p.legal = true ↔ p.fontBase ≤ 0x1B0 ∧ p.font.length = 80 ∧ 0 < p.iperiod := by
  simp only [Params.legal, Bool.and_eq_true, decide_eq_true_eq, Rat.num_pos, and_assoc]
  rfl

/-- A legal elapsed time is not negative (R181). -/
theorem elapsedLegal_iff (e : ℚ) : elapsedLegal e = true ↔ 0 ≤ e := by
  rw [elapsedLegal, decide_eq_true_eq, Rat.num_nonneg]

theorem keysLegal_iff (ks : List Bool) : keysLegal ks = true ↔ ks.length = 16 := by
  rw [keysLegal, decide_eq_true_eq, nKeys]

theorem tperiod_eq : tperiod = 50000 / 3 := by
  rw [tperiod, Rat.mkRat_eq_div]
  norm_num

theorem tperiod_pos : 0 < tperiod := by
  rw [tperiod_eq]
  norm_num

/-- Bit k of the latch is entry k of the snapshot (R37). -/
theorem keyBits_getLsbD : ∀ (bs : List Bool) (k : Nat), k < 16 →
    (keyBits bs).getLsbD k = bs.getD k false
  | [], k, _ => by simp [keyBits]
  | b :: bs, 0, _ => by cases b <;> simp [keyBits]
  | b :: bs, k + 1, hk => by
    have ih := keyBits_getLsbD bs k (by omega)
    rw [List.getD_cons_succ, ← ih, keyBits, BitVec.getLsbD_or, BitVec.getLsbD_shiftLeft]
    cases b <;> simp [hk]

theorem keyList_length (keys : BitVec 16) : (keyList keys).length = 16 := by
  simp [keyList, nKeys]

/-- Writing a latch out as a snapshot and latching it again gives the latch back. -/
theorem keyBits_keyList (keys : BitVec 16) : keyBits (keyList keys) = keys := by
  apply BitVec.eq_of_getLsbD_eq
  intro k hk
  rw [keyBits_getLsbD _ _ hk]
  simp [keyList, nKeys, List.getD, hk]

/-- One tick never leaves a timer above where it was, and takes one off a nonzero one (R173). -/
theorem tickTimer_toNat (b : Byte) : (tickTimer b).toNat = b.toNat - 1 := by
  unfold tickTimer
  split
  · next h => simp [h]
  · next h =>
    have h0 : b.toNat ≠ 0 := fun e => h (BitVec.eq_of_toNat_eq (by simpa using e))
    have := b.isLt
    simp [BitVec.toNat_sub]
    omega

/-- The two ends of a timer part (R176). -/
theorem timerPart_cases (s : State) :
    (tperiod ≤ s.tacc ∧ timerPart s =
      { s with dt := tickTimer s.dt, st := tickTimer s.st, tacc := usMod s.tacc tperiod,
               frameReady := true }) ∨
    (s.tacc < tperiod ∧ timerPart s = { s with frameReady := false }) := by
  by_cases h : tperiod ≤ s.tacc
  · exact .inl ⟨h, by rw [timerPart, if_pos ((reaches_iff _ _).2 h)]; rfl⟩
  · exact .inr ⟨lt_of_not_ge h, by rw [timerPart, if_neg (fun e => h ((reaches_iff _ _).1 e))]⟩

/-- The timer part changes the timers, the timer accumulator and frame-ready only (R173, R176). -/
theorem timerPart_frame (s : State) : timerPart s =
    { s with dt := (timerPart s).dt, st := (timerPart s).st, tacc := (timerPart s).tacc,
             frameReady := (timerPart s).frameReady } := by
  obtain ⟨_, h⟩ | ⟨_, h⟩ := timerPart_cases s <;> rw [h]

/-- The placed call of `placeInstruction` is legal and makes the instruction due. -/
theorem dueCall_eq (s : State) : dueCall s =
    .advance (max 0 (s.params.iperiod - s.iacc)) (keyList s.keys) s.rnd := by
  simp only [dueCall, usSub_eq, usLe_iff]
  split
  · next h => rw [max_eq_right h]
  · next h => rw [max_eq_left (le_of_lt (lt_of_not_ge h))]

end Sys2Proof.Machine
end

