-- ==== Sys2Proof/Laws/Memory.lean ====
section
/-! SUPPORT. Memory: read after write, and that every operation keeps the canonical form. -/

namespace Sys2Proof.Machine

theorem Memory.risingFrom_mono {lo lo' : Nat} (h : lo ≤ lo') :
    ∀ {m : Memory}, Memory.risingFrom lo' m = true → Memory.risingFrom lo m = true
  | [], _ => rfl
  | (a, v) :: rest, hm => by
    simp only [Memory.risingFrom, Bool.and_eq_true, decide_eq_true_eq] at hm ⊢
    exact ⟨by omega, hm.2⟩

/-- An address below every listed one reads as the initial image. -/
theorem Memory.read_of_lt {p : Params} {lo a : Nat} (ha : a < lo) :
    ∀ {m : Memory}, Memory.risingFrom lo m = true → Memory.read p m a = initialByte p a
  | [], _ => rfl
  | (b, w) :: rest, hm => by
    simp only [Memory.risingFrom, Bool.and_eq_true, decide_eq_true_eq] at hm
    rw [Memory.read, if_neg (by omega)]
    exact Memory.read_of_lt (by omega) hm.2

theorem Memory.read_put_same {p : Params} {a : Nat} {v : Byte} :
    ∀ {lo : Nat} {m : Memory}, Memory.risingFrom lo m = true →
      Memory.read p (Memory.put p m a v) a = v
  | _, [], _ => by unfold Memory.put; split <;> simp_all [Memory.read]
  | lo, (b, w) :: rest, hm => by
    simp only [Memory.risingFrom, Bool.and_eq_true, decide_eq_true_eq] at hm
    unfold Memory.put
    split
    · split
      · next hv =>
        rw [Memory.read, if_neg (by omega), Memory.read_of_lt (by omega) hm.2, hv]
      · simp [Memory.read]
    · split
      · next h =>
        subst h
        split
        · next hv => rw [Memory.read_of_lt (by omega) hm.2, hv]
        · simp [Memory.read]
      · next h =>
        rw [Memory.read, if_neg h]
        exact Memory.read_put_same hm.2

theorem Memory.read_put_ne {p : Params} {a b : Nat} {v : Byte} (hab : b ≠ a) :
    ∀ {lo : Nat} {m : Memory}, Memory.risingFrom lo m = true →
      Memory.read p (Memory.put p m a v) b = Memory.read p m b
  | _, [], _ => by unfold Memory.put; split <;> simp [Memory.read, hab]
  | lo, (c, w) :: rest, hm => by
    simp only [Memory.risingFrom, Bool.and_eq_true, decide_eq_true_eq] at hm
    unfold Memory.put
    split
    · split
      · rfl
      · rw [Memory.read, if_neg hab]
    · split
      · next h =>
        subst h
        split
        · rw [Memory.read, if_neg hab]
        · rw [Memory.read, if_neg hab, Memory.read, if_neg hab]
      · rw [Memory.read, Memory.read, Memory.read_put_ne hab hm.2]

theorem Memory.risingFrom_put {p : Params} {a : Nat} {v : Byte} :
    ∀ {lo : Nat} {m : Memory}, lo ≤ a → Memory.risingFrom lo m = true →
      Memory.risingFrom lo (Memory.put p m a v) = true
  | lo, [], ha, _ => by unfold Memory.put; split <;> simp [Memory.risingFrom, ha]
  | lo, (b, w) :: rest, ha, hm => by
    have hm' := hm
    simp only [Memory.risingFrom, Bool.and_eq_true, decide_eq_true_eq] at hm
    unfold Memory.put
    split
    · next hab =>
      split
      · exact hm'
      · simp [Memory.risingFrom, ha, hm.2]; omega
    · split
      · next h =>
        subst h
        split
        · exact Memory.risingFrom_mono (by omega) hm.2
        · simp [Memory.risingFrom, ha, hm.2]
      · next h1 h2 =>
        simp only [Memory.risingFrom, Bool.and_eq_true, decide_eq_true_eq]
        exact ⟨hm.1, Memory.risingFrom_put (by omega) hm.2⟩

theorem Memory.cellsOk_put {p : Params} {a : Nat} {v : Byte} (ha : a < memSize) :
    ∀ {m : Memory}, m.all (Memory.cellOk p) = true →
      (Memory.put p m a v).all (Memory.cellOk p) = true
  | [], _ => by unfold Memory.put; split <;> simp_all [Memory.cellOk]
  | (b, w) :: rest, hm => by
    have hm' := hm
    rw [List.all_cons, Bool.and_eq_true] at hm
    unfold Memory.put
    split
    · split
      · exact hm'
      · next hv =>
        rw [List.all_cons, Bool.and_eq_true]
        exact ⟨by simp [Memory.cellOk, ha, hv], hm'⟩
    · split
      · split
        · exact hm.2
        · next hv =>
          rw [List.all_cons, Bool.and_eq_true]
          exact ⟨by simp [Memory.cellOk, ha, hv], hm.2⟩
      · rw [List.all_cons, Bool.and_eq_true]
        exact ⟨hm.1, Memory.cellsOk_put ha hm.2⟩

theorem Memory.rising_of_wf {p : Params} {m : Memory} (h : Memory.wf p m = true) :
    Memory.risingFrom 0 m = true := by
  simp only [Memory.wf, Bool.and_eq_true] at h
  exact h.1

/-- The empty list is canonical, the memory of `State.reset` with it. -/
theorem Memory.wf_nil (p : Params) : Memory.wf p [] = true := rfl

/-- Writing a byte keeps the canonical form. -/
theorem Memory.wf_write {p : Params} {m : Memory} {a : Nat} {v : Byte}
    (h : Memory.wf p m = true) : Memory.wf p (Memory.write p m a v) = true := by
  unfold Memory.write
  split
  · next ha =>
    simp only [Memory.wf, Bool.and_eq_true] at h ⊢
    exact ⟨Memory.risingFrom_put (Nat.zero_le _) h.1, Memory.cellsOk_put ha h.2⟩
  · exact h

/-- Writing bytes keeps the canonical form. -/
theorem Memory.wf_writeBytes {p : Params} :
    ∀ {bs : List Byte} {m : Memory} {a : Nat}, Memory.wf p m = true →
      Memory.wf p (Memory.writeBytes p m a bs) = true
  | [], _, _, h => h
  | v :: vs, m, a, h => by
    rw [Memory.writeBytes]
    exact Memory.wf_writeBytes (Memory.wf_write h)

theorem Memory.read_write_same {p : Params} {m : Memory} {a : Nat} {v : Byte}
    (h : Memory.wf p m = true) (ha : a < memSize) :
    Memory.read p (Memory.write p m a v) a = v := by
  rw [Memory.write, if_pos ha]
  exact Memory.read_put_same (Memory.rising_of_wf h)

theorem Memory.read_write_ne {p : Params} {m : Memory} {a b : Nat} {v : Byte}
    (h : Memory.wf p m = true) (hab : b ≠ a) :
    Memory.read p (Memory.write p m a v) b = Memory.read p m b := by
  unfold Memory.write
  split
  · exact Memory.read_put_ne hab (Memory.rising_of_wf h)
  · rfl

/-- Bytes outside the written range read as before. -/
theorem Memory.read_writeBytes_outside {p : Params} {b : Nat} :
    ∀ {bs : List Byte} {m : Memory} {a : Nat}, Memory.wf p m = true →
      (b < a ∨ a + bs.length ≤ b) →
      Memory.read p (Memory.writeBytes p m a bs) b = Memory.read p m b
  | [], _, _, _, _ => rfl
  | v :: vs, m, a, h, hb => by
    rw [List.length_cons] at hb
    rw [Memory.writeBytes, Memory.read_writeBytes_outside (Memory.wf_write h) (by omega),
      Memory.read_write_ne h (by omega)]

/-- The k-th byte written is read at the k-th address of the range. -/
theorem Memory.read_writeBytes_inside {p : Params} :
    ∀ {bs : List Byte} {m : Memory} {a k : Nat}, Memory.wf p m = true →
      a + bs.length ≤ memSize → k < bs.length →
      Memory.read p (Memory.writeBytes p m a bs) (a + k) = bs.getD k 0
  | [], _, _, _, _, _, hk => absurd hk (by simp)
  | v :: vs, m, a, k, h, ha, hk => by
    rw [List.length_cons] at ha hk
    rw [Memory.writeBytes]
    cases k with
    | zero =>
      rw [Memory.read_writeBytes_outside (Memory.wf_write h) (by omega), Nat.add_zero,
        Memory.read_write_same h (by omega), List.getD_cons_zero]
    | succ k =>
      rw [show a + (k + 1) = a + 1 + k by omega,
        Memory.read_writeBytes_inside (Memory.wf_write h) (by omega) (by omega),
        List.getD_cons_succ]

theorem Memory.risingFrom_ofBytes {p : Params} :
    ∀ {bs : List Byte} {a : Nat}, Memory.risingFrom a (Memory.ofBytes p a bs) = true
  | [], _ => rfl
  | v :: vs, a => by
    unfold Memory.ofBytes
    split
    · exact Memory.risingFrom_mono (Nat.le_succ a) Memory.risingFrom_ofBytes
    · simp [Memory.risingFrom, Memory.risingFrom_ofBytes]

/-- Reset's memory is canonical. -/
theorem Memory.wf_ofBytes {p : Params} {bs : List Byte} {a : Nat} (h : a + bs.length ≤ memSize) :
    Memory.wf p (Memory.ofBytes p a bs) = true := by
  rw [Memory.wf, Bool.and_eq_true]
  refine ⟨Memory.risingFrom_mono (Nat.zero_le a) Memory.risingFrom_ofBytes, ?_⟩
  induction bs generalizing a with
  | nil => rfl
  | cons v vs ih =>
    rw [List.length_cons] at h
    unfold Memory.ofBytes
    split
    · exact ih (by omega)
    · next hv =>
      rw [List.all_cons, Bool.and_eq_true]
      exact ⟨by simp [Memory.cellOk, hv]; omega, ih (by omega)⟩

/-- Reset's memory reads as the given bytes in their range. -/
theorem Memory.read_ofBytes_inside {p : Params} :
    ∀ {bs : List Byte} {a k : Nat}, k < bs.length →
      Memory.read p (Memory.ofBytes p a bs) (a + k) = bs.getD k 0
  | [], _, _, hk => absurd hk (by simp)
  | v :: vs, a, k, hk => by
    rw [List.length_cons] at hk
    unfold Memory.ofBytes
    cases k with
    | zero =>
      split
      · next hv =>
        rw [Memory.read_of_lt (by omega) Memory.risingFrom_ofBytes, List.getD_cons_zero, hv,
          Nat.add_zero]
      · simp [Memory.read]
    | succ k =>
      have ih := Memory.read_ofBytes_inside (p := p) (bs := vs) (a := a + 1) (k := k) (by omega)
      rw [show a + (k + 1) = a + 1 + k by omega, List.getD_cons_succ]
      split
      · exact ih
      · rw [Memory.read, if_neg (by omega)]
        exact ih

/-- Reset's memory reads as the initial image outside the given bytes. -/
theorem Memory.read_ofBytes_outside {p : Params} {b : Nat} :
    ∀ {bs : List Byte} {a : Nat}, (b < a ∨ a + bs.length ≤ b) →
      Memory.read p (Memory.ofBytes p a bs) b = initialByte p b
  | [], _, _ => rfl
  | v :: vs, a, hb => by
    rw [List.length_cons] at hb
    unfold Memory.ofBytes
    split
    · exact Memory.read_ofBytes_outside (by omega)
    · rw [Memory.read, if_neg (by omega)]
      exact Memory.read_ofBytes_outside (by omega)

/-- `readByte` looks at memory and parameters alone. -/
theorem State.readByte_congr {s t : State} (hm : t.mem = s.mem) (hp : t.params = s.params)
    (a : Nat) : t.readByte a = s.readByte a := by
  rw [State.readByte, State.readByte, hm, hp]

@[simp] theorem State.readBytes_length (s : State) (a n : Nat) : (s.readBytes a n).length = n := by
  simp [State.readBytes]

theorem State.readBytes_getD (s : State) (a : Nat) {n k : Nat} (hk : k < n) :
    (s.readBytes a n).getD k 0 = s.readByte (a + k) := by
  simp [State.readBytes, List.getD, hk]

end Sys2Proof.Machine
end

