-- ==== Sys2Proof/Laws/Ops.lean ====
section
/-! SUPPORT. What each shared operation of Machine/Ops.lean, Operands.lean and Flags.lean does, said
once. -/

namespace Sys2Proof.Machine

/-! ### Registers -/

@[simp] theorem State.getV_setV_same (s : State) (x : Reg) (b : Byte) : (s.setV x b).getV x = b := by
  simp [State.getV]

theorem State.getV_setV_ne (s : State) {x r : Reg} (b : Byte) (h : r ≠ x) :
    (s.setV x b).getV r = s.getV r := by
  have h' : x.val ≠ r.val := fun e => h (Fin.ext e.symm)
  simp [State.getV, Vector.getElem_set_ne, h']

theorem State.getV_setV (s : State) (x r : Reg) (b : Byte) :
    (s.setV x b).getV r = if r = x then b else s.getV r := by
  split
  · next h => rw [h, State.getV_setV_same]
  · next h => exact State.getV_setV_ne s b h

/-- `getV` looks at the register file alone. -/
theorem State.getV_congr {s t : State} (h : t.v = s.v) (r : Reg) : t.getV r = s.getV r := by
  simp [State.getV, h]

/-- VF holds the flag afterwards, whatever the destination (R12). -/
@[simp] theorem State.getV_setVThenFlag_vf (s : State) (x : Reg) (b f : Byte) :
    (s.setVThenFlag x b f).getV vf = f := by
  simp [State.setVThenFlag]

theorem State.getV_setVThenFlag (s : State) (x r : Reg) (b f : Byte) :
    (s.setVThenFlag x b f).getV r = if r = vf then f else if r = x then b else s.getV r := by
  simp only [State.setVThenFlag, State.getV_setV]

theorem State.getV_loadV (s : State) (x r : Reg) (bs : List Byte) :
    (s.loadV x bs).getV r = if r ≤ x then bs.getD r.val 0 else s.getV r := by
  simp only [State.getV, State.loadV, Vector.getElem_ofFn]

/-- Two states with the same registers and the same rest are equal. -/
theorem State.setV_eq (s : State) (x : Reg) (b : Byte) :
    s.setV x b = { s with v := (s.setV x b).v } := rfl

@[simp] theorem State.firstV_length (s : State) (x : Reg) : (s.firstV x).length = x.val + 1 := by
  have := x.isLt
  simp [State.firstV]

theorem State.firstV_getD (s : State) (x r : Reg) (h : r ≤ x) :
    (s.firstV x).getD r.val 0 = s.getV r := by
  have h1 : r.val < x.val + 1 := by have : r.val ≤ x.val := h; omega
  simp [State.firstV, List.getD, h1, State.getV]

/-! ### The stack -/

/-- Everything a push can do (R27). -/
theorem State.push_cases (s : State) (addr : Word) :
    (s.sp.val = 16 ∧ s.push addr = none) ∨
    ∃ (h : s.sp.val < 16) (h' : s.sp.val + 1 < 17), s.push addr =
      some { s with stack := s.stack.set s.sp.val addr, sp := ⟨s.sp.val + 1, h'⟩ } := by
  by_cases h : s.sp.val < 16
  · exact .inr ⟨h, by omega, by simp [State.push, h]⟩
  · exact .inl ⟨by omega, by simp [State.push, h]⟩

/-- Everything a pop can do (R28). -/
theorem State.pop_cases (s : State) :
    (s.sp.val = 0 ∧ s.pop = none) ∨
    ∃ (h : 0 < s.sp.val) (h' : s.sp.val - 1 < 17), s.pop =
      some (s.stack[s.sp.val - 1], { s with sp := ⟨s.sp.val - 1, h'⟩ }) := by
  by_cases h : 0 < s.sp.val
  · exact .inr ⟨h, by omega, by simp [State.pop, h]⟩
  · exact .inl ⟨by omega, by simp [State.pop, h]⟩

/-! ### Faults -/

/-- Raising a fault goes on to a state that reports it and is otherwise the same (R197). -/
theorem raise_next (f : Fault) (s : State) : raise f s = .next { s with fault := some f } := rfl

/-- The sticky bit of fault code c is bit c - 1 (R36): recording a fault sets that bit alone. -/
theorem recordFault_getLsbD (faults : BitVec 6) (f : Fault) {k : Nat} (hk : k < 6) :
    (faults ||| (1#6 <<< (f.code - 1))).getLsbD k = (faults.getLsbD k || decide (k + 1 = f.code)) := by
  have bit : ∀ c j : Fin 6, (1#6 <<< c.val).getLsbD j.val = decide (j.val + 1 = c.val + 1) := by
    decide
  rw [BitVec.getLsbD_or]
  congr 1
  cases f
  exacts [bit 0 ⟨k, hk⟩, bit 1 ⟨k, hk⟩, bit 2 ⟨k, hk⟩, bit 3 ⟨k, hk⟩, bit 4 ⟨k, hk⟩, bit 5 ⟨k, hk⟩]

theorem takeFault_none {s : State} (h : s.fault = none) : takeFault s = s := by
  simp [takeFault, h]

theorem takeFault_some {s : State} {f : Fault} (h : s.fault = some f) :
    takeFault s =
      { s with
        faults := s.faults ||| (1#6 <<< (f.code - 1))
        halt := s.halt || f.halting s.params.policy } := by
  simp [takeFault, h]

theorem inMemory_iff (a n : Nat) : inMemory a n = true ↔ n = 0 ∨ a + n ≤ 4096 := by
  rw [inMemory, decide_eq_true_eq, memSize]

/-- A data access in range runs; out of range it raises and nothing else (R57). -/
theorem withDataRange_cases (n : Nat) (s : State) (access : State → State) :
    (inMemory s.i.toNat n = true ∧ withDataRange n s access = .next (access s)) ∨
    (inMemory s.i.toNat n = false ∧
      withDataRange n s access =
        .next { s with fault := some (.address .data (max s.i.toNat 4096) (s.pc - 2)) }) := by
  cases h : inMemory s.i.toNat n
  · exact .inr ⟨rfl, by simp [withDataRange, h, raise_next, firstBadAddress, memSize, State.instrAddr]⟩
  · exact .inl ⟨rfl, by simp [withDataRange, h]⟩

/-- A data access whose whole range lies in memory runs (R57). -/
theorem withDataRange_in {n : Nat} {s : State} {access : State → State}
    (h : n = 0 ∨ s.i.toNat + n ≤ 4096) : withDataRange n s access = .next (access s) := by
  obtain ⟨_, h'⟩ | ⟨h', _⟩ := withDataRange_cases n s access
  · exact h'
  · rw [(inMemory_iff _ _).2 h] at h'; cases h'

/-- A data access that leaves memory raises AddressFault (R57). -/
theorem withDataRange_out {n : Nat} {s : State} {access : State → State} (hn : n ≠ 0)
    (h : 4096 < s.i.toNat + n) : withDataRange n s access =
      .next { s with fault := some (.address .data (max s.i.toNat 4096) (s.pc - 2)) } := by
  obtain ⟨h', _⟩ | ⟨_, h'⟩ := withDataRange_cases n s access
  · rw [inMemory_iff] at h'; omega
  · exact h'

/-! ### The framebuffer -/

theorem State.pixel_of_lt (s : State) {y : Nat} (x : Nat) (h : y < 32) :
    s.pixel y x = s.fb[y].getLsbD x := by
  simp [State.pixel, h]

/-- Column x of a sprite byte laid at `x0` (R151): bit 7 is the leftmost pixel, columns past 63 are
clipped. -/
theorem spriteRow_getLsbD (x0 : Nat) (b : Byte) (x : Nat) :
    (spriteRow x0 b).getLsbD x =
      (decide (x < 64) && decide (x0 ≤ x) && decide (x < x0 + 8) && b.getLsbD (7 - (x - x0))) := by
  simp only [spriteRow, BitVec.getLsbD_shiftLeft, BitVec.getLsbD_setWidth, BitVec.getLsbD_reverse,
    BitVec.getMsbD_eq_getLsbD]
  by_cases h1 : x < 64 <;> by_cases h2 : x < x0 <;> by_cases h3 : x < x0 + 8 <;> simp [h1, h2, h3]
  all_goals
    first
    | omega
    | (have : x - x0 < 8 := by omega
       have : x - x0 < 64 := by omega
       simp [*]; try omega)

/-- The pixel a sprite sets in the framebuffer (R151). -/
theorem spriteMask_getLsbD (rows : List Byte) (x0 y0 y x : Nat) :
    (spriteMask rows x0 y0 y).getLsbD x =
      (decide (y0 ≤ y) && decide (y - y0 < rows.length) && decide (x < 64) && decide (x0 ≤ x) &&
        decide (x < x0 + 8) && (rows.getD (y - y0) 0).getLsbD (7 - (x - x0))) := by
  unfold spriteMask
  by_cases h : y < y0
  · simp [h, Nat.not_le.2 h]
  · rw [if_neg h]
    have h' : y0 ≤ y := by omega
    by_cases hr : y - y0 < rows.length
    · simp [spriteRow_getLsbD, h', hr, List.getD]
    · simp [h', hr]

/-- A drawn cell is the old one toggled where the sprite is set (R151). -/
theorem State.pixel_xorSprite (s : State) (rows : List Byte) (x0 y0 y x : Nat) :
    (s.xorSprite rows x0 y0).pixel y x =
      (s.pixel y x ^^ (decide (y < 32) && (spriteMask rows x0 y0 y).getLsbD x)) := by
  by_cases h : y < 32
  · simp [State.pixel, h]
  · simp [State.pixel, h]

theorem State.spriteCollides_iff (s : State) (rows : List Byte) (x0 y0 : Nat) :
    s.spriteCollides rows x0 y0 = true ↔
      ∃ y x, y < 32 ∧ s.pixel y x = true ∧ (spriteMask rows x0 y0 y).getLsbD x = true := by
  simp only [State.spriteCollides, List.any_eq_true, List.mem_finRange, true_and, bne_iff_ne, ne_eq]
  constructor
  · rintro ⟨y, hy⟩
    have : ∃ x, (s.fb[y.val] &&& spriteMask rows x0 y0 y.val).getLsbD x = true := by
      by_contra hn
      apply hy
      apply BitVec.eq_of_getLsbD_eq
      intro x _
      have := fun h => hn ⟨x, h⟩
      simpa using this
    obtain ⟨x, hx⟩ := this
    rw [BitVec.getLsbD_and, Bool.and_eq_true] at hx
    exact ⟨y.val, x, y.isLt, by rw [State.pixel_of_lt _ _ y.isLt]; exact hx.1, hx.2⟩
  · rintro ⟨y, x, hy, hp, hm⟩
    refine ⟨⟨y, hy⟩, fun h0 => ?_⟩
    rw [State.pixel_of_lt _ _ hy] at hp
    have := congrArg (fun z => BitVec.getLsbD z x) h0
    simp [hp, hm] at this

/-! ### Operands and flags -/

@[simp] theorem addr12_toNat (nnn : BitVec 12) : (addr12 nnn).toNat = nnn.toNat := by
  have := nnn.isLt
  simp [addr12]; omega

/-- The target of BNNN never wraps (R103). -/
theorem State.offsetTarget_toNat (s : State) (nnn : BitVec 12) :
    (s.offsetTarget nnn).toNat = nnn.toNat + (s.getV 0).toNat := by
  have := nnn.isLt
  have := (s.getV 0).isLt
  simp [State.offsetTarget, State.getV16]; omega

/-- The glyph address before it is cut to 16 bits (R142). -/
theorem State.glyphAddr_toNat (s : State) (b : Byte) :
    (s.glyphAddr b).toNat = (s.params.fontBase + 5 * (b.toNat % 16)) % 65536 := by
  have h : (b &&& (0x0F : Byte)).toNat = b.toNat % 16 := by
    rw [BitVec.toNat_and]
    exact Nat.and_two_pow_sub_one_eq_mod b.toNat 4
  simp only [State.glyphAddr, BitVec.toNat_ofNat]
  rw [h]

/-- The pressed key FX0A takes is the lowest (R162). -/
theorem State.lowestKey_some {s : State} {k : Reg} (h : s.lowestKey = some k) :
    s.keyDown k.val = true ∧ ∀ j : Reg, j < k → s.keyDown j.val = false := by
  rw [State.lowestKey, List.find?_eq_some_iff_getElem] at h
  obtain ⟨h1, i, hi, h2, h3⟩ := h
  refine ⟨h1, fun j hj => ?_⟩
  have hi' : i < 16 := by simpa using hi
  have hk : k.val = i := by rw [← h2]; simp
  have := h3 j.val (by have : j.val < k.val := hj; omega)
  simpa using this

theorem State.lowestKey_none {s : State} (h : s.lowestKey = none) (j : Reg) :
    s.keyDown j.val = false := by
  rw [State.lowestKey, List.find?_eq_none] at h
  simpa using h j (List.mem_finRange j)

@[simp] theorem flagByte_true : flagByte true = 1 := rfl

@[simp] theorem flagByte_false : flagByte false = 0 := rfl

theorem flagByte_decide (p : Prop) [Decidable p] :
    flagByte (decide p) = if p then 1 else 0 := by
  by_cases h : p <;> simp [h]

@[simp] theorem decimalDigits_length (b : Byte) : (decimalDigits b).length = 3 := rfl

/-- The three digits make up the byte (R143). -/
theorem decimalDigits_value (b : Byte) :
    100 * ((decimalDigits b).getD 0 0).toNat + 10 * ((decimalDigits b).getD 1 0).toNat +
      ((decimalDigits b).getD 2 0).toNat = b.toNat := by
  simp [decimalDigits]; omega

end Sys2Proof.Machine
end

