-- ==== Sys2Proof/Laws/Frames.lean ====
section
/-! SUPPORT. The frame predicates of Safety.lean for the shared operations, and what any instruction
can do, said once. -/

namespace Sys2Proof.Machine

/-- States with the same memory and parameters read the same bytes. -/
theorem SameMemory.of_eq {s t : State} (hm : t.mem = s.mem) (hp : t.params = s.params) :
    SameMemory s t := fun a => State.readByte_congr hm hp a

theorem sameVBut_setV (s : State) (x : Reg) (b : Byte) : SameVBut [x] s (s.setV x b) :=
  fun _ hr => State.getV_setV_ne s b (by simpa using hr)

theorem sameVBut_setVThenFlag (s : State) (x : Reg) (b f : Byte) :
    SameVBut [x, vf] s (s.setVThenFlag x b f) := fun r hr => by
  simp only [List.mem_cons, List.not_mem_nil, or_false, not_or] at hr
  rw [State.getV_setVThenFlag, if_neg hr.2, if_neg hr.1]

/-- A block store leaves every byte outside its range (R53). -/
theorem sameMemoryOutside_writeBytes {s : State} {a : Nat} {bs : List Byte}
    (h : Memory.wf s.params s.mem = true) :
    SameMemoryOutside a bs.length s (s.writeBytes a bs) :=
  fun _ hb => Memory.read_writeBytes_outside h hb

/-- A block store is read back byte by byte (R53). -/
theorem State.readByte_writeBytes {s : State} {a k : Nat} {bs : List Byte}
    (h : Memory.wf s.params s.mem = true) (ha : a + bs.length ≤ 4096) (hk : k < bs.length) :
    (s.writeBytes a bs).readByte (a + k) = bs.getD k 0 := Memory.read_writeBytes_inside h ha hk

/-- What a data access can do: the access, or a fault and nothing else (R57, R197). -/
theorem withDataRange_next (n : Nat) (s : State) (access : State → State) :
    withDataRange n s access = .next (access s) ∨
      ∃ f, withDataRange n s access = .next { s with fault := some f } := by
  obtain ⟨_, h⟩ | ⟨_, h⟩ := withDataRange_cases n s access
  · exact .inl h
  · exact .inr ⟨_, h⟩

/-- The fields an instruction can write; all others are as before (R171). -/
def InstrFrame (s t : State) : Prop :=
  t = { s with mem := t.mem, v := t.v, i := t.i, pc := t.pc, stack := t.stack, sp := t.sp,
               fb := t.fb, dt := t.dt, st := t.st }

theorem skipIf_next (c : Bool) (s : State) :
    ∃ t, skipIf c s = .next t ∧ InstrFrame s t := by
  refine ⟨_, rfl, ?_⟩
  split <;> rfl

/-- WHAT ANY INSTRUCTION CAN DO: it goes on, having written only architectural fields of its own, or
having written nothing and raised a fault (R171, R197). -/
theorem exec_next (i : Instr) (s : State) :
    (∃ t, exec i s = .next t ∧ InstrFrame s t) ∨
      ∃ f, exec i s = .next { s with fault := some f } := by
  have range (n : Nat) (g : State → State) (hg : InstrFrame s (g s)) :
      (∃ t, withDataRange n s g = .next t ∧ InstrFrame s t) ∨
        ∃ f, withDataRange n s g = .next { s with fault := some f } := by
    obtain h | h := withDataRange_next n s g
    · exact .inl ⟨_, h, hg⟩
    · exact .inr h
  cases i with
  | ret =>
    obtain ⟨_, h⟩ | ⟨_, h', h⟩ := s.pop_cases
    · exact .inr ⟨_, by simp only [exec, execRet, h]; rfl⟩
    · exact .inl ⟨{ s with pc := s.stack[s.sp.val - 1], sp := ⟨s.sp.val - 1, h'⟩ },
        by simp only [exec, execRet, h]; rfl, rfl⟩
  | call nnn =>
    obtain ⟨_, h⟩ | ⟨_, h', h⟩ := s.push_cases s.pc
    · exact .inr ⟨_, by simp only [exec, execCall, h]; rfl⟩
    · exact .inl ⟨{ s with pc := addr12 nnn, stack := s.stack.set s.sp.val s.pc,
                           sp := ⟨s.sp.val + 1, h'⟩ },
        by simp only [exec, execCall, h]; rfl, rfl⟩
  | seImm x nn => exact .inl (skipIf_next _ s)
  | sneImm x nn => exact .inl (skipIf_next _ s)
  | seReg x y => exact .inl (skipIf_next _ s)
  | sneReg x y => exact .inl (skipIf_next _ s)
  | skp x =>
    by_cases h : 15 < (s.getV x).toNat
    · exact .inr ⟨_, by simp only [exec, execSkp, skipIfKey, if_pos h]; rfl⟩
    · simp only [exec, execSkp, skipIfKey, if_neg h]
      exact .inl (skipIf_next _ s)
  | sknp x =>
    by_cases h : 15 < (s.getV x).toNat
    · exact .inr ⟨_, by simp only [exec, execSknp, skipIfKey, if_pos h]; rfl⟩
    · simp only [exec, execSknp, skipIfKey, if_neg h]
      exact .inl (skipIf_next _ s)
  | ldVxK x =>
    cases h : s.lowestKey with
    | none => exact .inl ⟨s.rewind, by simp only [exec, execLdVxK, h], rfl⟩
    | some k => exact .inl ⟨s.setV x (BitVec.ofNat 8 k.val), by simp only [exec, execLdVxK, h], rfl⟩
  | drw x y n =>
    simp only [exec, execDrw]
    exact range _ _ (by simp only [InstrFrame, drawSprite, State.xorSprite, State.setV])
  | ldB x => simp only [exec, execLdB]; exact range _ _ rfl
  | ldMemVx x => simp only [exec, execLdMemVx]; exact range _ _ rfl
  | ldVxMem x =>
    simp only [exec, execLdVxMem]
    exact range _ _ (by simp only [InstrFrame, State.loadV])
  | _ => exact .inl ⟨_, rfl, rfl⟩

/-! ### Shared operations and a change f of state they do not look at (R171) -/

/-- A skip and a change that leaves the skip's own effect alone. -/
theorem skipIf_onNext {f : State → State} {s : State} (c : Bool)
    (hf : f s.skipNext = (f s).skipNext) : skipIf c (f s) = onNext f (skipIf c s) := by
  cases c
  · rfl
  · exact congrArg Host.Outcome.next hf.symm

/-- A data access and a change that touches neither `I`, `PC` nor what the access does. -/
theorem withDataRange_onNext {f : State → State} {s : State} (n : Nat) (g : State → State)
    (hi : (f s).i = s.i) (hp : (f s).pc = s.pc) (hg : f (g s) = g (f s))
    (hr : ∀ a, f { s with fault := a } = { f s with fault := a }) :
    withDataRange n (f s) g = onNext f (withDataRange n s g) := by
  have ha : (f s).instrAddr = s.instrAddr := by simp only [State.instrAddr, hp]
  rw [withDataRange, withDataRange, hi, ha]
  split
  · exact congrArg Host.Outcome.next hg.symm
  · exact congrArg Host.Outcome.next (hr _).symm

end Sys2Proof.Machine
end

