-- ==== Sys2Proof/Laws/Draw.lean ====
section
/-! SUPPORT. What the draw of DXYN does to each part of the state (44_display.md R151), so that no later
proof looks into the 32 rows of the framebuffer at once. -/

namespace Sys2Proof.Machine

theorem exec_drw (x y : Reg) (n : BitVec 4) (s : State) :
    exec (.drw x y n) s = withDataRange n.toNat s (drawSprite x y n) := by
  simp only [exec, execDrw]

/-- A draw whose bytes all lie in memory, or of no bytes, goes on (R151). -/
theorem exec_drw_next {x y : Reg} {n : BitVec 4} {s : State}
    (h : n = 0 ∨ s.i.toNat + n.toNat ≤ 4096) :
    exec (.drw x y n) s = .next (drawSprite x y n s) := by
  rw [exec_drw]
  refine withDataRange_in (h.imp_left fun h => ?_)
  rw [h]
  rfl

@[simp] theorem drawSprite_mem (x y : Reg) (n : BitVec 4) (s : State) :
    (drawSprite x y n s).mem = s.mem := by
  rw [drawSprite, State.setV_mem, State.xorSprite_mem]

@[simp] theorem drawSprite_params (x y : Reg) (n : BitVec 4) (s : State) :
    (drawSprite x y n s).params = s.params := by
  rw [drawSprite, State.setV_params, State.xorSprite_params]

@[simp] theorem drawSprite_i (x y : Reg) (n : BitVec 4) (s : State) :
    (drawSprite x y n s).i = s.i := by
  rw [drawSprite, State.setV_i, State.xorSprite_i]

@[simp] theorem drawSprite_pc (x y : Reg) (n : BitVec 4) (s : State) :
    (drawSprite x y n s).pc = s.pc := by
  rw [drawSprite, State.setV_pc, State.xorSprite_pc]

/-- The registers and the framebuffer are all that a draw writes. -/
theorem drawSprite_eq (x y : Reg) (n : BitVec 4) (s : State) :
    drawSprite x y n s = { s with v := (drawSprite x y n s).v, fb := (drawSprite x y n s).fb } := by
  simp only [drawSprite, State.setV, State.xorSprite]

theorem drawSprite_getV_vf (x y : Reg) (n : BitVec 4) (s : State) :
    (drawSprite x y n s).getV vf =
      collisionFlag s (s.sprite n) (s.originX x) (s.originY y) := by
  rw [drawSprite, State.getV_setV_same]

theorem drawSprite_getV (x y r : Reg) (n : BitVec 4) (s : State) (h : r ≠ vf) :
    (drawSprite x y n s).getV r = s.getV r := by
  rw [drawSprite, State.getV_setV_ne _ _ h]
  exact State.getV_congr (State.xorSprite_v _ _ _ _) r

theorem drawSprite_fb (x y : Reg) (n : BitVec 4) (s : State) :
    (drawSprite x y n s).fb = (s.xorSprite (s.sprite n) (s.originX x) (s.originY y)).fb := by
  rw [drawSprite, State.setV_fb]

/-- `pixel` looks at the framebuffer alone. -/
theorem State.pixel_congr {s t : State} (h : t.fb = s.fb) (y x : Nat) :
    t.pixel y x = s.pixel y x := by
  rw [State.pixel, State.pixel, h]

/-- A drawn cell is the old one toggled where the sprite is set (R151). -/
theorem drawSprite_pixel (x y : Reg) (n : BitVec 4) (s : State) (r c : Nat) :
    (drawSprite x y n s).pixel r c = (s.pixel r c ^^ (decide (r < 32) &&
      (spriteMask (s.sprite n) (s.originX x) (s.originY y) r).getLsbD c)) := by
  rw [State.pixel_congr (drawSprite_fb x y n s), State.pixel_xorSprite]

/-- Framebuffers with the same cells are the same. -/
theorem fb_ext {s t : State} (h : ∀ y x, y < 32 → x < 64 → t.pixel y x = s.pixel y x) :
    t.fb = s.fb := by
  apply Vector.ext
  intro y hy
  apply BitVec.eq_of_getLsbD_eq
  intro x hx
  have := h y x hy hx
  rwa [State.pixel_of_lt _ _ hy, State.pixel_of_lt _ _ hy] at this

theorem State.pixel_of_ge (s : State) (y x : Nat) (h : 64 ≤ x) : s.pixel y x = false := by
  rw [State.pixel]
  split
  · exact BitVec.getLsbD_of_ge _ _ h
  · rfl

end Sys2Proof.Machine
end

