-- ==== Sys2Proof/Laws/Cycle.lean ====
section
/-! SUPPORT. What an instruction cycle, an Advance call, a Reset call and a step can do
(46_cycle_scheduler_timers.md R170, R176; 70_reset_and_hazards.md R220), said once. -/

namespace Sys2Proof.Machine

/-- The word at `PC` (R54). -/
abbrev State.wordAtPc (s : State) : Word :=
  wordOfBytes (s.readByte s.pc.toNat) (s.readByte (s.pc.toNat + 1))

theorem fetch_in {s : State} (h : s.pc.toNat ≤ 0xFFE) :
    fetch s = some [s.readByte s.pc.toNat, s.readByte (s.pc.toNat + 1)] := by
  rw [fetch, if_pos (by rw [memSize]; omega)]
  simp [State.readBytes, List.range_succ]

theorem fetch_out {s : State} (h : 0xFFE < s.pc.toNat) : fetch s = none := by
  rw [fetch, if_neg (by rw [memSize]; omega)]

/-- The cycle of a word that decodes is exec, with `PC` past the word (R170). -/
theorem instructionCycle_ok {s : State} {i : Instr} (h : s.pc.toNat ≤ 0xFFE)
    (hd : decodeWord s.wordAtPc = .ok i) :
    instructionCycle s = exec i (s.setPc (s.pc + 2)) := by
  simp only [instructionCycle, fetch_in h, decode, hd]

/-- The cycle of an unmatched word is a DecodeFault (R191). -/
theorem instructionCycle_unmatched {s : State} {e : DecodeError} (h : s.pc.toNat ≤ 0xFFE)
    (hd : decodeWord s.wordAtPc = .error e) :
    instructionCycle s =
      .next { s with pc := s.pc + 2, fault := some (.decode s.wordAtPc s.pc) } := by
  simp only [instructionCycle, fetch_in h, decode, hd]
  rfl

/-- The cycle of a fetch outside memory is an AddressFault (R57). -/
theorem instructionCycle_out {s : State} (h : 0xFFE < s.pc.toNat) :
    instructionCycle s =
      .next { s with fault := some (.address .fetch s.pc.toNat s.pc) } := by
  simp only [instructionCycle, fetch_out h]
  rfl

/-- WHAT AN INSTRUCTION CYCLE CAN DO (R171): one of the three, and always a next state. -/
theorem instructionCycle_cases (s : State) :
    (∃ i, s.pc.toNat ≤ 0xFFE ∧ decodeWord s.wordAtPc = .ok i ∧
      instructionCycle s = exec i (s.setPc (s.pc + 2))) ∨
    (∃ e, s.pc.toNat ≤ 0xFFE ∧ decodeWord s.wordAtPc = .error e ∧ instructionCycle s =
      .next { s with pc := s.pc + 2, fault := some (.decode s.wordAtPc s.pc) }) ∨
    (0xFFE < s.pc.toNat ∧ instructionCycle s =
      .next { s with fault := some (.address .fetch s.pc.toNat s.pc) }) := by
  by_cases h : s.pc.toNat ≤ 0xFFE
  · cases hd : decodeWord s.wordAtPc with
    | ok i => exact .inl ⟨i, h, rfl, instructionCycle_ok h hd⟩
    | error e => exact .inr (.inl ⟨e, h, rfl, instructionCycle_unmatched h hd⟩)
  · exact .inr (.inr ⟨by omega, instructionCycle_out (by omega)⟩)

/-- An instruction cycle answers a next state and leaves the scheduler's fields (R171). -/
theorem instructionCycle_next (s : State) : ∃ t, instructionCycle s = .next t ∧
    t.iacc = s.iacc ∧ t.tacc = s.tacc ∧ t.halt = s.halt ∧ t.faults = s.faults ∧
    t.params = s.params ∧ t.frameReady = s.frameReady ∧ t.ready = s.ready ∧ t.inbox = s.inbox := by
  obtain ⟨i, _, _, h⟩ | ⟨e, _, _, h⟩ | ⟨_, h⟩ := instructionCycle_cases s
  · obtain ⟨t, ht, hf⟩ | ⟨f, ht⟩ := exec_next i (s.setPc (s.pc + 2))
    · refine ⟨t, h.trans ht, ?_⟩
      rw [hf]
      exact ⟨rfl, rfl, rfl, rfl, rfl, rfl, rfl, rfl⟩
    · exact ⟨_, h.trans ht, rfl, rfl, rfl, rfl, rfl, rfl, rfl, rfl⟩
  · exact ⟨_, h, rfl, rfl, rfl, rfl, rfl, rfl, rfl, rfl⟩
  · exact ⟨_, h, rfl, rfl, rfl, rfl, rfl, rfl, rfl, rfl⟩

theorem drainIacc_eq {s : State} (h : 0 < s.params.iperiod) : drainIacc s =
    { s with iacc := s.iacc - s.params.iperiod * ⌊s.iacc / s.params.iperiod⌋ } := by
  rw [drainIacc, usMod_eq _ _ h]

theorem afterInstruction_none {s : State} (hf : s.fault = none) (hh : s.halt = false) :
    afterInstruction s = timerPart (drainIacc s) := by
  simp only [afterInstruction, takeFault_none hf, hh, Bool.false_eq_true, if_false]

/-- A halting fault ends the call (R198). -/
theorem afterInstruction_halting {s : State} {f : Fault} (hf : s.fault = some f)
    (hh : f.halting s.params.policy = true) : afterInstruction s =
      { s with faults := s.faults ||| (1#6 <<< (f.code - 1)), halt := true } := by
  simp only [afterInstruction, takeFault_some hf, hh, Bool.or_true, if_true]

/-- A fault that does not halt is recorded and the call goes on (R199). -/
theorem afterInstruction_recorded {s : State} {f : Fault} (hf : s.fault = some f)
    (hh : f.halting s.params.policy = false) (h : s.halt = false) : afterInstruction s =
      timerPart (drainIacc { s with faults := s.faults ||| (1#6 <<< (f.code - 1)) }) := by
  have e : ({ s with faults := s.faults ||| (1#6 <<< (f.code - 1)), halt := false } : State) =
      { s with faults := s.faults ||| (1#6 <<< (f.code - 1)) } := by rw [← h]
  simp only [afterInstruction, takeFault_some hf, hh, h, Bool.or_false, Bool.false_eq_true,
    if_false, e]

/-- The rest of a call records the fault and nothing else in `FAULTS` (R36, R176). -/
theorem afterInstruction_faults (s : State) :
    (afterInstruction s).faults = (takeFault s).faults := by
  show (if (takeFault s).halt = true then takeFault s
    else timerPart (drainIacc (takeFault s))).faults = _
  split
  · rfl
  · rw [timerPart_frame]
    rfl

/-- The state in which the instruction part of an Advance call runs (R176). -/
def advanceEntry (e : ℚ) (ks : List Bool) (b : Byte) (rest : List DriverCall) (s : State) : State :=
  { s with inbox := rest, keys := keyBits ks, rnd := b, iacc := s.iacc + e, tacc := s.tacc + e,
           fault := none, frameReady := false }

/-- A legal Advance call on a running core (R176). -/
theorem advance_running {s : State} {e : ℚ} {ks : List Bool} (b : Byte) (hr : s.ready = true)
    (hh : s.halt = false) (he : 0 ≤ e) (hk : ks.length = 16) :
    advance e ks b s = advanceRunning e ks b s := by
  rw [advance, if_neg (by rw [hr]; decide), if_neg (by rw [(elapsedLegal_iff e).2 he]; decide),
    if_neg (by rw [(keysLegal_iff ks).2 hk]; decide), if_neg (by rw [hh]; decide)]

/-- A legal Advance call on a halted core (R198). -/
theorem advance_halted {s : State} {e : ℚ} {ks : List Bool} (b : Byte) (hr : s.ready = true)
    (hh : s.halt = true) (he : 0 ≤ e) (hk : ks.length = 16) :
    advance e ks b s = .next { s with frameReady := false, fault := none } := by
  rw [advance, if_neg (by rw [hr]; decide), if_neg (by rw [(elapsedLegal_iff e).2 he]; decide),
    if_neg (by rw [(keysLegal_iff ks).2 hk]; decide), if_pos hh]

/-- What an Advance call answers a next state for (R176, R181, R222). -/
theorem advance_next {s t : State} {e : ℚ} {ks : List Bool} {b : Byte}
    (h : advance e ks b s = .next t) : s.ready = true ∧ 0 ≤ e ∧ ks.length = 16 := by
  unfold advance at h
  split at h
  · cases h
  · next h1 =>
    split at h
    · cases h
    · next h2 =>
      split at h
      · cases h
      · next h3 =>
        exact ⟨by simpa using h1, (elapsedLegal_iff e).1 (by simpa using h2),
          (keysLegal_iff ks).1 (by simpa using h3)⟩

/-- The two ends of a legal Advance call on a running core: not due, or one instruction cycle (R176). -/
theorem advanceRunning_cases (e : ℚ) (ks : List Bool) (b : Byte) (s : State) :
    (s.iacc + e < s.params.iperiod ∧
      advanceRunning e ks b s = .next (timerPart (advanceEntry e ks b s.inbox s))) ∨
    (s.params.iperiod ≤ s.iacc + e ∧
      ∃ t, instructionCycle (advanceEntry e ks b s.inbox s) = .next t ∧
        advanceRunning e ks b s = .next (afterInstruction t)) := by
  have hl : latchCall e ks b s = advanceEntry e ks b s.inbox s := by
    simp only [latchCall, advanceEntry, usAdd_eq]
  have hr : reaches (advanceEntry e ks b s.inbox s).iacc
      (advanceEntry e ks b s.inbox s).params.iperiod = reaches (s.iacc + e) s.params.iperiod := rfl
  rw [advanceRunning, hl]
  by_cases h : s.params.iperiod ≤ s.iacc + e
  · obtain ⟨t, ht, _⟩ := instructionCycle_next (advanceEntry e ks b s.inbox s)
    refine .inr ⟨h, t, ht, ?_⟩
    rw [hr, if_pos ((reaches_iff _ _).2 h), ht]
  · refine .inl ⟨lt_of_not_ge h, ?_⟩
    rw [hr, if_neg (fun e => h ((reaches_iff _ _).1 e))]

/-- A step with an Advance call placed. -/
theorem step_advance {s : State} {e : ℚ} {ks : List Bool} {b : Byte} {rest : List DriverCall}
    (h : s.inbox = .advance e ks b :: rest) : step s = advance e ks b { s with inbox := rest } := by
  simp only [step, runNextCall, takeCall, h, runCall]

/-- A step with a Reset call placed. -/
theorem step_reset {s : State} {rom : List Byte} {p : Params} {rest : List DriverCall}
    (h : s.inbox = .reset rom p :: rest) : step s =
      if p.legal then .next (resetCore rom p { s with inbox := rest })
      else .refused .illegalParameters := by
  simp only [step, runNextCall, takeCall, h, runCall]

/-- A step with nothing placed is a legal Advance call of the free driver. -/
theorem step_free {s : State} (h : s.inbox = []) : ∃ e ks b, 0 ≤ e ∧ ks.length = 16 ∧
    step s = advance e ks b { s with calls := s.calls + 1 } := by
  refine ⟨_, _, _, ?_, keyList_length (Config.freeKeys s.calls),
    by simp only [step, runNextCall, takeCall, h, freeCall, runCall]; rfl⟩
  rw [Rat.mkRat_eq_div]
  positivity

end Sys2Proof.Machine
end

