-- ==== Sys2Proof/Laws/DecodeRows.lean ====
section
/-! SUPPORT. The encoding clause of every instruction's rule: each word its row selects decodes to it
(30_encoding.md R84, R86). -/

namespace Sys2Proof

/-- The class of a word is the class of the pattern it matches, if the mask covers the class. -/
theorem fieldC_of_mask {w m p : Word} (h : w &&& m = p) (hm : fieldC m = BitVec.allOnes 4) :
    fieldC w = fieldC p := by
  rw [← h, fieldC, fieldC, BitVec.extractLsb'_and]
  rw [fieldC] at hm
  rw [hm, BitVec.and_allOnes]

/-- The low nibble likewise. -/
theorem fieldN_of_mask {w m p : Word} (h : w &&& m = p) (hm : fieldN m = BitVec.allOnes 4) :
    fieldN w = fieldN p := by
  rw [← h, fieldN, fieldN, BitVec.extractLsb'_and]
  rw [fieldN] at hm
  rw [hm, BitVec.and_allOnes]

/-- The low byte likewise. -/
theorem fieldNN_of_mask {w m p : Word} (h : w &&& m = p) (hm : fieldNN m = BitVec.allOnes 8) :
    fieldNN w = fieldNN p := by
  rw [← h, fieldNN, fieldNN, BitVec.extractLsb'_and]
  rw [fieldNN] at hm
  rw [hm, BitVec.and_allOnes]

theorem decodesBy_cls :
    DecodesBy 0xF0FF 0x00E0 fun _ => .cls := fun w h => by
  have hc : (fieldC w).toNat = 0 := by rw [fieldC_of_mask h (by decide)]; rfl
  have hn : (fieldNN w).toNat = 224 := by rw [fieldNN_of_mask h (by decide)]; rfl
  simp only [decodeWord, hc, decodeClass0, hn]

theorem decodesBy_ret :
    DecodesBy 0xF0FF 0x00EE fun _ => .ret := fun w h => by
  have hc : (fieldC w).toNat = 0 := by rw [fieldC_of_mask h (by decide)]; rfl
  have hn : (fieldNN w).toNat = 238 := by rw [fieldNN_of_mask h (by decide)]; rfl
  simp only [decodeWord, hc, decodeClass0, hn]

theorem decodesBy_jp :
    DecodesBy 0xF000 0x1000 fun w => .jp (fieldNNN w) := fun w h => by
  have hc : (fieldC w).toNat = 1 := by rw [fieldC_of_mask h (by decide)]; rfl
  simp only [decodeWord, hc]

theorem decodesBy_call :
    DecodesBy 0xF000 0x2000 fun w => .call (fieldNNN w) := fun w h => by
  have hc : (fieldC w).toNat = 2 := by rw [fieldC_of_mask h (by decide)]; rfl
  simp only [decodeWord, hc]

theorem decodesBy_seImm :
    DecodesBy 0xF000 0x3000 fun w => .seImm (fieldX w) (fieldNN w) := fun w h => by
  have hc : (fieldC w).toNat = 3 := by rw [fieldC_of_mask h (by decide)]; rfl
  simp only [decodeWord, hc]

theorem decodesBy_sneImm :
    DecodesBy 0xF000 0x4000 fun w => .sneImm (fieldX w) (fieldNN w) := fun w h => by
  have hc : (fieldC w).toNat = 4 := by rw [fieldC_of_mask h (by decide)]; rfl
  simp only [decodeWord, hc]

theorem decodesBy_seReg :
    DecodesBy 0xF000 0x5000 fun w => .seReg (fieldX w) (fieldY w) := fun w h => by
  have hc : (fieldC w).toNat = 5 := by rw [fieldC_of_mask h (by decide)]; rfl
  simp only [decodeWord, hc]

theorem decodesBy_ldImm :
    DecodesBy 0xF000 0x6000 fun w => .ldImm (fieldX w) (fieldNN w) := fun w h => by
  have hc : (fieldC w).toNat = 6 := by rw [fieldC_of_mask h (by decide)]; rfl
  simp only [decodeWord, hc]

theorem decodesBy_addImm :
    DecodesBy 0xF000 0x7000 fun w => .addImm (fieldX w) (fieldNN w) := fun w h => by
  have hc : (fieldC w).toNat = 7 := by rw [fieldC_of_mask h (by decide)]; rfl
  simp only [decodeWord, hc]

theorem decodesBy_ldReg :
    DecodesBy 0xF00F 0x8000 fun w => .ldReg (fieldX w) (fieldY w) := fun w h => by
  have hc : (fieldC w).toNat = 8 := by rw [fieldC_of_mask h (by decide)]; rfl
  have hn : (fieldN w).toNat = 0 := by rw [fieldN_of_mask h (by decide)]; rfl
  simp only [decodeWord, hc, decodeClass8, hn]

theorem decodesBy_orReg :
    DecodesBy 0xF00F 0x8001 fun w => .orReg (fieldX w) (fieldY w) := fun w h => by
  have hc : (fieldC w).toNat = 8 := by rw [fieldC_of_mask h (by decide)]; rfl
  have hn : (fieldN w).toNat = 1 := by rw [fieldN_of_mask h (by decide)]; rfl
  simp only [decodeWord, hc, decodeClass8, hn]

theorem decodesBy_andReg :
    DecodesBy 0xF00F 0x8002 fun w => .andReg (fieldX w) (fieldY w) := fun w h => by
  have hc : (fieldC w).toNat = 8 := by rw [fieldC_of_mask h (by decide)]; rfl
  have hn : (fieldN w).toNat = 2 := by rw [fieldN_of_mask h (by decide)]; rfl
  simp only [decodeWord, hc, decodeClass8, hn]

theorem decodesBy_xorReg :
    DecodesBy 0xF00F 0x8003 fun w => .xorReg (fieldX w) (fieldY w) := fun w h => by
  have hc : (fieldC w).toNat = 8 := by rw [fieldC_of_mask h (by decide)]; rfl
  have hn : (fieldN w).toNat = 3 := by rw [fieldN_of_mask h (by decide)]; rfl
  simp only [decodeWord, hc, decodeClass8, hn]

theorem decodesBy_addReg :
    DecodesBy 0xF00F 0x8004 fun w => .addReg (fieldX w) (fieldY w) := fun w h => by
  have hc : (fieldC w).toNat = 8 := by rw [fieldC_of_mask h (by decide)]; rfl
  have hn : (fieldN w).toNat = 4 := by rw [fieldN_of_mask h (by decide)]; rfl
  simp only [decodeWord, hc, decodeClass8, hn]

theorem decodesBy_sub :
    DecodesBy 0xF00F 0x8005 fun w => .sub (fieldX w) (fieldY w) := fun w h => by
  have hc : (fieldC w).toNat = 8 := by rw [fieldC_of_mask h (by decide)]; rfl
  have hn : (fieldN w).toNat = 5 := by rw [fieldN_of_mask h (by decide)]; rfl
  simp only [decodeWord, hc, decodeClass8, hn]

theorem decodesBy_shr :
    DecodesBy 0xF00F 0x8006 fun w => .shr (fieldX w) := fun w h => by
  have hc : (fieldC w).toNat = 8 := by rw [fieldC_of_mask h (by decide)]; rfl
  have hn : (fieldN w).toNat = 6 := by rw [fieldN_of_mask h (by decide)]; rfl
  simp only [decodeWord, hc, decodeClass8, hn]

theorem decodesBy_subn :
    DecodesBy 0xF00F 0x8007 fun w => .subn (fieldX w) (fieldY w) := fun w h => by
  have hc : (fieldC w).toNat = 8 := by rw [fieldC_of_mask h (by decide)]; rfl
  have hn : (fieldN w).toNat = 7 := by rw [fieldN_of_mask h (by decide)]; rfl
  simp only [decodeWord, hc, decodeClass8, hn]

theorem decodesBy_shl :
    DecodesBy 0xF00F 0x800E fun w => .shl (fieldX w) := fun w h => by
  have hc : (fieldC w).toNat = 8 := by rw [fieldC_of_mask h (by decide)]; rfl
  have hn : (fieldN w).toNat = 14 := by rw [fieldN_of_mask h (by decide)]; rfl
  simp only [decodeWord, hc, decodeClass8, hn]

theorem decodesBy_sneReg :
    DecodesBy 0xF000 0x9000 fun w => .sneReg (fieldX w) (fieldY w) := fun w h => by
  have hc : (fieldC w).toNat = 9 := by rw [fieldC_of_mask h (by decide)]; rfl
  simp only [decodeWord, hc]

theorem decodesBy_ldI :
    DecodesBy 0xF000 0xA000 fun w => .ldI (fieldNNN w) := fun w h => by
  have hc : (fieldC w).toNat = 10 := by rw [fieldC_of_mask h (by decide)]; rfl
  simp only [decodeWord, hc]

theorem decodesBy_jpV0 :
    DecodesBy 0xF000 0xB000 fun w => .jpV0 (fieldNNN w) := fun w h => by
  have hc : (fieldC w).toNat = 11 := by rw [fieldC_of_mask h (by decide)]; rfl
  simp only [decodeWord, hc]

theorem decodesBy_rnd :
    DecodesBy 0xF000 0xC000 fun w => .rnd (fieldX w) (fieldNN w) := fun w h => by
  have hc : (fieldC w).toNat = 12 := by rw [fieldC_of_mask h (by decide)]; rfl
  simp only [decodeWord, hc]

theorem decodesBy_drw :
    DecodesBy 0xF000 0xD000 fun w => .drw (fieldX w) (fieldY w) (fieldN w) := fun w h => by
  have hc : (fieldC w).toNat = 13 := by rw [fieldC_of_mask h (by decide)]; rfl
  simp only [decodeWord, hc]

theorem decodesBy_skp :
    DecodesBy 0xF0FF 0xE09E fun w => .skp (fieldX w) := fun w h => by
  have hc : (fieldC w).toNat = 14 := by rw [fieldC_of_mask h (by decide)]; rfl
  have hn : (fieldNN w).toNat = 158 := by rw [fieldNN_of_mask h (by decide)]; rfl
  simp only [decodeWord, hc, decodeClassE, hn]

theorem decodesBy_sknp :
    DecodesBy 0xF0FF 0xE0A1 fun w => .sknp (fieldX w) := fun w h => by
  have hc : (fieldC w).toNat = 14 := by rw [fieldC_of_mask h (by decide)]; rfl
  have hn : (fieldNN w).toNat = 161 := by rw [fieldNN_of_mask h (by decide)]; rfl
  simp only [decodeWord, hc, decodeClassE, hn]

theorem decodesBy_ldVxDT :
    DecodesBy 0xF0FF 0xF007 fun w => .ldVxDT (fieldX w) := fun w h => by
  have hc : (fieldC w).toNat = 15 := by rw [fieldC_of_mask h (by decide)]; rfl
  have hn : (fieldNN w).toNat = 7 := by rw [fieldNN_of_mask h (by decide)]; rfl
  simp only [decodeWord, hc, decodeClassF, hn]

theorem decodesBy_ldDTVx :
    DecodesBy 0xF0FF 0xF015 fun w => .ldDTVx (fieldX w) := fun w h => by
  have hc : (fieldC w).toNat = 15 := by rw [fieldC_of_mask h (by decide)]; rfl
  have hn : (fieldNN w).toNat = 21 := by rw [fieldNN_of_mask h (by decide)]; rfl
  simp only [decodeWord, hc, decodeClassF, hn]

theorem decodesBy_ldSTVx :
    DecodesBy 0xF0FF 0xF018 fun w => .ldSTVx (fieldX w) := fun w h => by
  have hc : (fieldC w).toNat = 15 := by rw [fieldC_of_mask h (by decide)]; rfl
  have hn : (fieldNN w).toNat = 24 := by rw [fieldNN_of_mask h (by decide)]; rfl
  simp only [decodeWord, hc, decodeClassF, hn]

theorem decodesBy_ldVxK :
    DecodesBy 0xF0FF 0xF00A fun w => .ldVxK (fieldX w) := fun w h => by
  have hc : (fieldC w).toNat = 15 := by rw [fieldC_of_mask h (by decide)]; rfl
  have hn : (fieldNN w).toNat = 10 := by rw [fieldNN_of_mask h (by decide)]; rfl
  simp only [decodeWord, hc, decodeClassF, hn]

theorem decodesBy_addI :
    DecodesBy 0xF0FF 0xF01E fun w => .addI (fieldX w) := fun w h => by
  have hc : (fieldC w).toNat = 15 := by rw [fieldC_of_mask h (by decide)]; rfl
  have hn : (fieldNN w).toNat = 30 := by rw [fieldNN_of_mask h (by decide)]; rfl
  simp only [decodeWord, hc, decodeClassF, hn]

theorem decodesBy_ldF :
    DecodesBy 0xF0FF 0xF029 fun w => .ldF (fieldX w) := fun w h => by
  have hc : (fieldC w).toNat = 15 := by rw [fieldC_of_mask h (by decide)]; rfl
  have hn : (fieldNN w).toNat = 41 := by rw [fieldNN_of_mask h (by decide)]; rfl
  simp only [decodeWord, hc, decodeClassF, hn]

theorem decodesBy_ldB :
    DecodesBy 0xF0FF 0xF033 fun w => .ldB (fieldX w) := fun w h => by
  have hc : (fieldC w).toNat = 15 := by rw [fieldC_of_mask h (by decide)]; rfl
  have hn : (fieldNN w).toNat = 51 := by rw [fieldNN_of_mask h (by decide)]; rfl
  simp only [decodeWord, hc, decodeClassF, hn]

theorem decodesBy_ldMemVx :
    DecodesBy 0xF0FF 0xF055 fun w => .ldMemVx (fieldX w) := fun w h => by
  have hc : (fieldC w).toNat = 15 := by rw [fieldC_of_mask h (by decide)]; rfl
  have hn : (fieldNN w).toNat = 85 := by rw [fieldNN_of_mask h (by decide)]; rfl
  simp only [decodeWord, hc, decodeClassF, hn]

theorem decodesBy_ldVxMem :
    DecodesBy 0xF0FF 0xF065 fun w => .ldVxMem (fieldX w) := fun w h => by
  have hc : (fieldC w).toNat = 15 := by rw [fieldC_of_mask h (by decide)]; rfl
  have hn : (fieldNN w).toNat = 101 := by rw [fieldNN_of_mask h (by decide)]; rfl
  simp only [decodeWord, hc, decodeClassF, hn]

end Sys2Proof
end

