-- ==== Sys2Proof/Tests/Slice0.lean ====
section
/-! SUPPORT. The model's own tests. Expected values are those of spec/95_test_vectors.md (T and S numbers in
the comments) or are worked out by hand from the rule named; none comes from running the model.
The last part gives, for every statement with hypotheses, a state and operands that meet them. -/

namespace Sys2Proof.Tests

open Sys2Proof Sys2Proof.Machine

/-! ### Helpers -/

/-- The base state of 95_test_vectors.md with some registers set. -/
def base (rs : List (Reg × Byte)) : State := rs.foldl (fun s r => s.setV r.1 r.2) State.reset

/-- A field or two of the state after one instruction cycle of a word at `PC` (R170). -/
def after {α : Type} (w : Word) (s : State) (f : State → α) : Option α :=
  match instructionCycle (s.writeBytes s.pc.toNat (bytesOfWord w)) with
  | .next t => some (f t)
  | .fault _ => none
  | .refused _ => none

/-- A field or two of the state after one step with a driver call placed. -/
def afterCall {α : Type} (c : DriverCall) (s : State) (f : State → α) : Option α :=
  match step { s with inbox := [c] } with
  | .next t => some (f t)
  | .fault _ => none
  | .refused _ => none

/-- What a step with a driver call placed is refused for. -/
def refusal (c : DriverCall) (s : State) : Option Refusal :=
  match step { s with inbox := [c] } with
  | .next _ => none
  | .fault _ => none
  | .refused r => some r

/-- Sixteen keys, none down. -/
def noKeys : List Bool := List.replicate 16 false

/-- One instruction period of time, no key, draw 0. -/
def tickCall : DriverCall := .advance (mkRat 10000 7) noKeys 0

/-- The base state with a framebuffer cell on. -/
def lit (y x : Nat) (s : State) : State := s.togglePixel y x

/-! ### Well-formedness: an ill-formed term for each check, refused -/

theorem test_params_fontBase : Params.legal { Config.defaultParams with fontBase := 0x1B1 } = false := by
  decide

theorem test_params_font :
    Params.legal { Config.defaultParams with font := List.replicate 79 0 } = false := by decide

theorem test_params_iperiod : Params.legal { Config.defaultParams with iperiod := 0 } = false := by
  decide

/-- The largest legal `FONT_BASE` (R8). -/
theorem test_params_legal :
    Params.legal { Config.defaultParams with fontBase := 0x1B0 } = true := by decide

theorem test_call_elapsed : DriverCall.legal (.advance (-1) noKeys 0) = false := by decide

theorem test_call_keys : DriverCall.legal (.advance 0 (List.replicate 15 false) 0) = false := by decide

theorem test_call_params :
    DriverCall.legal (.reset [] { Config.defaultParams with fontBase := 0x1B1 }) = false := by decide

/-- Words that execute but are not in the form an assembler emits (R85). -/
theorem test_canonical :
    canonicalFor .cls 0x07E0 = false ∧ canonicalFor .ret 0x05EE = false ∧
    canonicalFor (.seReg 1 2) 0x5127 = false ∧ canonicalFor (.sneReg 1 2) 0x912F = false ∧
    canonicalFor (.shr 1) 0x8126 = false ∧ canonicalFor (.shl 1) 0x812E = false ∧
    canonicalFor (.shl 1) 0x810E = true := by decide

/-! ### Decoding, with words written out bit by bit from R81 and R86 -/

theorem test_decode_flow :
    decodeWord 0b0000000011101110 = .ok .ret ∧                 -- 00EE
    decodeWord 0b0001101010111100 = .ok (.jp 0xABC) ∧          -- 1ABC
    decodeWord 0b0010001100000000 = .ok (.call 0x300) ∧        -- 2300
    decodeWord 0b1011001100000000 = .ok (.jpV0 0x300) := by    -- B300
  decide

theorem test_decode_skip :
    decodeWord 0b0011000101000010 = .ok (.seImm 1 0x42) ∧      -- 3142
    decodeWord 0b0100000101000010 = .ok (.sneImm 1 0x42) ∧     -- 4142
    decodeWord 0b0101000100100000 = .ok (.seReg 1 2) ∧         -- 5120
    decodeWord 0b1001000100100000 = .ok (.sneReg 1 2) := by    -- 9120
  decide

theorem test_decode_alu_1 :
    decodeWord 0b0110101000000010 = .ok (.ldImm 0xA 0x02) ∧    -- 6A02
    decodeWord 0b0111101000000101 = .ok (.addImm 0xA 0x05) ∧   -- 7A05
    decodeWord 0b1000000100100000 = .ok (.ldReg 1 2) ∧         -- 8120
    decodeWord 0b1000000100100001 = .ok (.orReg 1 2) ∧         -- 8121
    decodeWord 0b1000000100100010 = .ok (.andReg 1 2) ∧        -- 8122
    decodeWord 0b1000000100100011 = .ok (.xorReg 1 2) := by    -- 8123
  decide

theorem test_decode_alu_2 :
    decodeWord 0b1000000100100100 = .ok (.addReg 1 2) ∧        -- 8124
    decodeWord 0b1000000100100101 = .ok (.sub 1 2) ∧           -- 8125
    decodeWord 0b1000000100000110 = .ok (.shr 1) ∧             -- 8106
    decodeWord 0b1000000100100111 = .ok (.subn 1 2) ∧          -- 8127
    decodeWord 0b1000000100001110 = .ok (.shl 1) := by         -- 810E
  decide

theorem test_decode_index_memory :
    decodeWord 0b1010000100100011 = .ok (.ldI 0x123) ∧         -- A123
    decodeWord 0b1111000100011110 = .ok (.addI 1) ∧            -- F11E
    decodeWord 0b1111000100101001 = .ok (.ldF 1) ∧             -- F129
    decodeWord 0b1111000100110011 = .ok (.ldB 1) ∧             -- F133
    decodeWord 0b1111001001010101 = .ok (.ldMemVx 2) ∧         -- F255
    decodeWord 0b1111001001100101 = .ok (.ldVxMem 2) := by     -- F265
  decide

theorem test_decode_display :
    decodeWord 0b0000000011100000 = .ok .cls ∧                 -- 00E0
    decodeWord 0b1101000100100101 = .ok (.drw 1 2 5) := by     -- D125
  decide

theorem test_decode_keys_timers_random :
    decodeWord 0b1110000110011110 = .ok (.skp 1) ∧             -- E19E
    decodeWord 0b1110000110100001 = .ok (.sknp 1) ∧            -- E1A1
    decodeWord 0b1111000100000111 = .ok (.ldVxDT 1) ∧          -- F107
    decodeWord 0b1111000100001010 = .ok (.ldVxK 1) ∧           -- F10A
    decodeWord 0b1111000100010101 = .ok (.ldDTVx 1) ∧          -- F115
    decodeWord 0b1111000100011000 = .ok (.ldSTVx 1) ∧          -- F118
    decodeWord 0b1100000100001111 = .ok (.rnd 1 0x0F) := by    -- C10F
  decide

/-- T104 to T109. -/
theorem test_decode_unmatched :
    decodeWord 0x0000 = .error .unmatched0 ∧ decodeWord 0x0123 = .error .unmatched0 ∧
    decodeWord 0x00FE = .error .unmatched0 ∧ decodeWord 0x00E1 = .error .unmatched0 ∧
    decodeWord 0x812F = .error .unmatched8 ∧ decodeWord 0xE100 = .error .unmatchedE ∧
    decodeWord 0xF100 = .error .unmatchedF ∧ decodeWord 0xFFFF = .error .unmatchedF ∧
    decode [0x12] = .error .truncated := by decide

/-- The encoder's bytes of `6A02`, high byte first (R54, S2). -/
theorem test_encode : encode (.ldImm 0xA 0x02) = [0x6A, 0x02] := by decide

theorem test_table_word : decodeTableWord 16 0xD125 = some (.drw 1 2 5) := by decide

/-! ### Control transfer -/

/-- T3: the X nibble is ignored, depth 2 to 1. -/
theorem test_ret :
    after 0x05EE { State.reset with sp := 2, stack := State.reset.stack.set 1 0x0456 }
      (fun t => (t.pc, t.sp.val, t.fault)) = some (0x0456, 1, none) := by decide

/-- T2. -/
theorem test_ret_empty :
    after 0x00EE State.reset (fun t => (t.pc, t.sp.val, t.fault)) =
      some (0x0202, 0, some (.stackUnderflow 0x200)) := by decide

/-- T4. -/
theorem test_jp : after 0x1ABC State.reset (fun t => t.pc) = some 0x0ABC := by decide

/-- T6. -/
theorem test_call :
    after 0x2300 { State.reset with sp := 15 } (fun t => (t.pc, t.sp.val, t.stack[15])) =
      some (0x0300, 16, 0x0202) := by decide

/-- T7. -/
theorem test_call_full :
    after 0x2300 { State.reset with sp := 16 } (fun t => (t.pc, t.sp.val, t.fault)) =
      some (0x0202, 16, some (.stackOverflow 0x200)) := by decide

/-- T9: always V0, never VX. -/
theorem test_jpV0 : after 0xB300 (base [(0, 4), (3, 0x55)]) (fun t => t.pc) = some 0x0304 := by decide

/-- T10: not reduced to 12 bits. -/
theorem test_jpV0_top : after 0xBFFF (base [(0, 0xFF)]) (fun t => t.pc) = some 0x10FE := by decide

/-! ### Skips -/

/-- T11, T12. -/
theorem test_seImm :
    after 0x3142 (base [(1, 0x42)]) (fun t => t.pc) = some 0x0204 ∧
    after 0x3142 (base [(1, 0x43)]) (fun t => t.pc) = some 0x0202 := by decide

/-- T13, T14. -/
theorem test_sneImm :
    after 0x4142 (base [(1, 0x42)]) (fun t => t.pc) = some 0x0202 ∧
    after 0x4142 (base [(1, 0x43)]) (fun t => t.pc) = some 0x0204 := by decide

/-- T16, and T15 with different values. -/
theorem test_seReg :
    after 0x5127 (base [(1, 9), (2, 9)]) (fun t => t.pc) = some 0x0204 ∧
    after 0x5120 (base [(1, 9), (2, 8)]) (fun t => t.pc) = some 0x0202 := by decide

/-- T18, T20. -/
theorem test_sneReg :
    after 0x9110 (base [(1, 9)]) (fun t => t.pc) = some 0x0202 ∧
    after 0x912F (base [(1, 9), (2, 8)]) (fun t => t.pc) = some 0x0204 := by decide

/-! ### Arithmetic -/

/-- T22. -/
theorem test_ldImm : after 0x6FAB State.reset (fun t => (t.getV vf, t.pc)) = some (0xAB, 0x0202) := by
  decide

/-- T23: wraps, VF untouched. -/
theorem test_addImm :
    after 0x7101 (base [(1, 0xFF), (0xF, 7)]) (fun t => (t.getV 1, t.getV vf)) = some (0, 7) := by decide

/-- T25. -/
theorem test_ldReg :
    after 0x8120 (base [(1, 1), (2, 2), (0xF, 9)]) (fun t => (t.getV 1, t.getV 2, t.getV vf)) =
      some (2, 2, 9) := by decide

/-- T26. -/
theorem test_orReg :
    after 0x8121 (base [(1, 0x0F), (2, 0xF0), (0xF, 9)]) (fun t => (t.getV 1, t.getV vf)) =
      some (0xFF, 9) := by decide

/-- T27. -/
theorem test_andReg :
    after 0x8122 (base [(1, 0x3C), (2, 0x0F), (0xF, 9)]) (fun t => (t.getV 1, t.getV vf)) =
      some (0x0C, 9) := by decide

/-- T28. -/
theorem test_xorReg :
    after 0x8123 (base [(1, 0x3C), (2, 0x0F), (0xF, 9)]) (fun t => (t.getV 1, t.getV vf)) =
      some (0x33, 9) := by decide

/-- T32. -/
theorem test_addReg :
    after 0x8124 (base [(1, 0xF0), (2, 0x3C)]) (fun t => (t.getV 1, t.getV vf)) =
      some (0x2C, 1) := by decide

/-- T33: the flag wins over the sum in VF. -/
theorem test_addReg_vf :
    after 0x8F14 (base [(0xF, 0x80), (1, 0x90)]) (fun t => t.getV vf) = some 1 := by decide

/-- T36. -/
theorem test_sub :
    after 0x8125 (base [(1, 0x10), (2, 0x20)]) (fun t => (t.getV 1, t.getV vf)) =
      some (0xF0, 0) := by decide

/-- T38: the old VF is subtracted. -/
theorem test_sub_vf :
    after 0x81F5 (base [(1, 5), (0xF, 3)]) (fun t => (t.getV 1, t.getV vf)) = some (2, 1) := by decide

/-- T41: VY is not used. -/
theorem test_shr :
    after 0x8126 (base [(1, 0x81), (2, 0xFF)]) (fun t => (t.getV 1, t.getV 2, t.getV vf)) =
      some (0x40, 0xFF, 1) := by decide

/-- T44. -/
theorem test_shr_vf : after 0x8F06 (base [(0xF, 2)]) (fun t => t.getV vf) = some 0 := by decide

/-- T45. -/
theorem test_subn :
    after 0x8127 (base [(1, 0x20), (2, 0x10)]) (fun t => (t.getV 1, t.getV vf)) =
      some (0xF0, 0) := by decide

/-- T47: equal operands do not borrow. -/
theorem test_subn_equal :
    after 0x8117 (base [(1, 0x77)]) (fun t => (t.getV 1, t.getV vf)) = some (0, 1) := by decide

/-- T48. -/
theorem test_shl :
    after 0x812E (base [(1, 0x81), (2, 0xFF)]) (fun t => (t.getV 1, t.getV 2, t.getV vf)) =
      some (0x02, 0xFF, 1) := by decide

/-- T51. -/
theorem test_shl_vf : after 0x8F0E (base [(0xF, 0x41)]) (fun t => t.getV vf) = some 0 := by decide

/-! ### Index register and memory -/

/-- T52. -/
theorem test_ldI : after 0xA123 State.reset (fun t => t.i) = some 0x0123 := by decide

/-- T55: the sum is exactly 0x10000. -/
theorem test_addI_wrap :
    after 0xF11E ((base [(1, 0xFF)]).setI 0xFF01) (fun t => (t.i, t.getV vf)) = some (0, 1) := by decide

/-- T56: the old VF is added. -/
theorem test_addI_vf :
    after 0xFF1E ((base [(0xF, 2)]).setI 0x10) (fun t => (t.i, t.getV vf)) = some (0x12, 0) := by decide

/-- T57: the high nibble is ignored. -/
theorem test_ldF : after 0xF129 (base [(1, 0x1A)]) (fun t => t.i) = some 0x0082 := by decide

/-- T63: the last legal `I`. -/
theorem test_ldB :
    after 0xF133 ((base [(1, 255)]).setI 0xFFD)
      (fun t => (t.readByte 0xFFD, t.readByte 0xFFE, t.readByte 0xFFF)) = some (2, 5, 5) := by decide

/-- T64: nothing is written. -/
theorem test_ldB_out :
    after 0xF133 ((base [(1, 255)]).setI 0xFFE)
      (fun t => (t.readByte 0xFFE, t.readByte 0xFFF, t.pc, t.fault)) =
      some (0, 0, 0x0202, some (.address .data 0x1000 0x200)) := by decide

/-- T69: the instruction's own bytes are overwritten. -/
theorem test_ldMemVx :
    after 0xF255 ((base [(0, 1), (1, 2), (2, 3)]).setI 0x200)
      (fun t => (t.readByte 0x200, t.readByte 0x201, t.readByte 0x202, t.i)) =
      some (1, 2, 3, 0x200) := by decide

/-- T66: X = 0 stores one byte. -/
theorem test_ldMemVx_one :
    after 0xF055 ((base [(0, 0xAA), (1, 0xBB)]).setI 0x300)
      (fun t => (t.readByte 0x300, t.readByte 0x301)) = some (0xAA, 0) := by decide

/-- T70: an instruction loads its own encoding. -/
theorem test_ldVxMem :
    after 0xF265 ((base [(2, 7), (3, 9)]).setI 0x200)
      (fun t => (t.getV 0, t.getV 1, t.getV 2, t.getV 3)) = some (0xF2, 0x65, 0, 9) := by decide

/-- T72. -/
theorem test_ldVxMem_out :
    after 0xF065 (State.reset.setI 0x1000) (fun t => t.fault) =
      some (some (.address .data 0x1000 0x200)) := by decide

/-! ### Display -/

/-- T74: the X nibble is ignored. -/
theorem test_cls :
    after 0x07E0 (lit 31 63 (lit 0 0 State.reset)) (fun t => (t.pixel 0 0, t.pixel 31 63)) =
      some (false, false) := by decide

/-- T84 and T77: clipped columns neither toggle nor collide, and do not come back on the left. -/
theorem test_drw_clip :
    after 0xD121 (((lit 0 63 (base [(1, 60)])).setI 0x300).writeBytes 0x300 [0x0F])
      (fun t => (t.pixel 0 63, t.pixel 0 0, t.getV vf)) = some (true, false, 0) := by decide

/-- T85: the old VF is the x coordinate; bit 7 is the leftmost pixel. -/
theorem test_drw_vf :
    after 0xDF11 (((base [(0xF, 5), (1, 2)]).setI 0x300).writeBytes 0x300 [0x80])
      (fun t => (t.pixel 2 5, t.pixel 2 12, t.getV vf)) = some (true, false, 0) := by decide

/-! ### Keys, timers, random -/

/-- T91 with 0x8000, the key latch of key 15, and T88. -/
theorem test_skp :
    after 0xE19E { base [(1, 15)] with keys := 0x8000 } (fun t => t.pc) = some 0x0204 ∧
    after 0xE19E (base [(1, 5)]) (fun t => t.pc) = some 0x0202 := by decide

/-- T92. -/
theorem test_skp_range :
    after 0xE19E (base [(1, 16)]) (fun t => (t.pc, t.fault)) =
      some (0x0202, some (.keyRange 16 0x200)) := by decide

/-- T89, T90. -/
theorem test_sknp :
    after 0xE1A1 (base [(1, 5)]) (fun t => t.pc) = some 0x0204 ∧
    after 0xE1A1 { base [(1, 5)] with keys := 0x0020 } (fun t => t.pc) = some 0x0202 := by decide

/-- T93. -/
theorem test_sknp_range :
    after 0xE1A1 (base [(1, 0xFF)]) (fun t => t.fault) = some (some (.keyRange 255 0x200)) := by decide

/-- T94: keys 3 and 7 are bits 3 and 7 of the latch. -/
theorem test_ldVxK :
    after 0xF10A { base [(1, 0x99)] with keys := 0x0088 } (fun t => (t.getV 1, t.pc)) =
      some (3, 0x0202) := by decide

/-- T95: rewound. -/
theorem test_ldVxK_none :
    after 0xF10A (base [(1, 0x99)]) (fun t => (t.getV 1, t.pc)) = some (0x99, 0x0200) := by decide

/-- T98. -/
theorem test_ldVxDT :
    after 0xF107 (State.reset.setDT 0x3C) (fun t => (t.getV 1, t.dt)) = some (0x3C, 0x3C) := by decide

/-- T99. -/
theorem test_ldDTVx : after 0xF115 (base [(1, 0x3C)]) (fun t => t.dt) = some 0x3C := by decide

/-- T100. -/
theorem test_ldSTVx :
    after 0xF118 (base [(1, 2)]) (fun t => (t.st, t.tone)) = some (2, true) := by decide

/-- T101 and T102. -/
theorem test_rnd :
    after 0xC10F { State.reset with rnd := 0xB7 } (fun t => t.getV 1) = some 7 ∧
    after 0xC100 { State.reset with rnd := 0xB7 } (fun t => t.getV 1) = some 0 := by decide

/-! ### Fetch, scheduler, faults and reset -/

/-- T110: the last fetchable address. -/
theorem test_fetch_last :
    after 0x6011 (State.reset.setPc 0xFFE) (fun t => (t.getV 0, t.pc)) = some (0x11, 0x1000) := by decide

/-- T112: the second byte would be at 0x1000. -/
theorem test_fetch_out :
    after 0x6011 (State.reset.setPc 0xFFF) (fun t => (t.pc, t.fault)) =
      some (0xFFF, some (.address .fetch 0xFFF 0xFFF)) := by decide

/-- T113: an odd `PC` is legal. -/
theorem test_fetch_odd :
    after 0x6107 (State.reset.setPc 0x201) (fun t => (t.getV 1, t.pc)) = some (7, 0x0203) := by decide

/-- T114 with a key down: nothing but the latch. -/
theorem test_advance_zero :
    afterCall (.advance 0 ([true] ++ List.replicate 15 false) 9) State.reset
      (fun t => (t.pc, t.keys, t.frameReady, t.fault, t.halt)) =
      some (0x200, 1, false, none, false) := by decide

/-- T119 on ROM `1200`: one instruction, one tick, the backlog dropped. -/
theorem test_advance_huge :
    afterCall (.advance 1000000000 noKeys 0)
      { State.reset.writeBytes 0x200 [0x12, 0x00] with dt := 5, st := 1 }
      (fun t => (t.pc, t.dt, t.st, t.frameReady)) = some (0x200, 4, 0, true) ∧
    afterCall (.advance 1000000000 noKeys 0) (State.reset.writeBytes 0x200 [0x12, 0x00])
      (fun t => (t.iacc.num, t.tacc.num)) = some (0, 0) := by decide

/-- T118, first call: `TP mod IP` is 20000/21. -/
theorem test_advance_mod :
    afterCall (.advance (mkRat 50000 3) noKeys 0) (State.reset.writeBytes 0x200 [0x12, 0x00])
      (fun t => (t.iacc.num, t.iacc.den, t.tacc.num)) = some (20000, 21, 0) := by decide

/-- T120, call 1: DecodeFault under Halt; the accumulator is not drained. -/
theorem test_halt :
    afterCall tickCall State.reset (fun t => (t.pc, t.halt, t.faults, t.fault)) =
      some (0x0202, true, 0b000001, some (.decode 0x0000 0x200)) ∧
    afterCall tickCall State.reset (fun t => (t.frameReady, t.iacc.num)) = some (false, 10000) := by
  decide

/-- T121, call 1: DecodeFault under Skip. -/
theorem test_skip :
    afterCall tickCall { State.reset with params := { Config.defaultParams with policy := .skip } }
      (fun t => (t.pc, t.halt, t.faults, t.fault, t.iacc.num)) =
      some (0x0202, false, 0b000001, some (.decode 0x0000 0x200), 0) := by decide

/-- T120, call 2: nothing changes on a halted core. -/
theorem test_halted :
    afterCall (.advance 5000 (List.replicate 16 true) 0) { State.reset with halt := true, faults := 1 }
      (fun t => (t.pc, t.keys, t.iacc.num, t.fault, t.frameReady)) =
      some (0x200, 0, 0, none, false) := by decide

/-- T128: a ROM of one byte. -/
theorem test_reset_one_byte :
    afterCall (.reset [0x12] Config.defaultParams) { State.reset with i := 7, halt := true }
      (fun t => (t.readByte 0x200, t.readByte 0x201, t.i, t.halt, t.fault)) =
      some (0x12, 0, 0, false, none) := by decide

/-- T129: the font of G2 at 0x050. -/
theorem test_reset_font :
    (State.reset.readByte 0x04F, State.reset.readByte 0x050, State.reset.readByte 0x09F,
      State.reset.readByte 0x0A0) = (0, 0xF0, 0x80, 0) := by decide

/-- T126. -/
theorem test_reset_too_large :
    (resetCore (List.replicate 3585 0x12) Config.defaultParams State.reset).fault =
      some (.romTooLarge 3585) ∧
    (resetCore (List.replicate 3585 0x12) Config.defaultParams State.reset).ready = false := by
  rw [resetCore, if_pos (by rw [List.length_replicate]; decide), List.length_replicate]
  exact ⟨rfl, rfl⟩

/-- U11, U12: calls outside the interface. -/
theorem test_refused :
    refusal (.advance 0 noKeys 0) { State.reset with ready := false } = some .advanceAfterFailedReset ∧
    refusal (.advance (-1) noKeys 0) State.reset = some .negativeElapsed ∧
    refusal (.advance 0 [] 0) State.reset = some .badKeySnapshot ∧
    refusal (.reset [] { Config.defaultParams with iperiod := 0 }) State.reset =
      some .illegalParameters := by decide

/-- A word placed with `withFetchWord` is what the next step runs, from reset. -/
theorem test_placed :
    (match step (State.reset.withFetchWord 16 0x6A02) with
      | .next t => some (t.getV 0xA, t.pc)
      | .fault _ => none
      | .refused _ => none) = some (0x02, 0x0202) := by decide

/-! ### Witnesses: for every statement with hypotheses, values that meet them together -/

/-- Reset's memory is canonical. -/
theorem reset_wf : Memory.wf State.reset.params State.reset.mem = true := by decide

/-- The base state with ROM `1200`, a jump to itself, and one call placed. -/
def looping (c : DriverCall) : State :=
  { State.reset.writeBytes 0x200 [0x12, 0x00] with inbox := [c] }

/-- A step of a state answers a next state of which something holds. -/
def Answers (s : State) (p : State → Bool) : Bool :=
  match step s with
  | .next t => p t
  | .fault _ => false
  | .refused _ => false

theorem exists_of_answers {s : State} {p : State → Bool} (h : Answers s p = true) :
    ∃ t, step s = .next t ∧ p t = true := by
  unfold Answers at h
  split at h
  · next t ht => exact ⟨t, ht, h⟩
  · cases h
  · cases h

/-- The hypothesis of every encoding clause, row by row. -/
theorem witness_DecodesBy :
    ∀ i ∈ rowRepresentatives, encodeWord i &&& i.row.mask = i.row.pattern := by decide

theorem witness_DecoderAgreesWithOpcodeTable : decodeWord 0x05EE = .ok .ret := by decide

theorem witness_NoWordSelectsTwoRows :
    Instr.row .ret ∈ opcodeTable ∧ (Instr.row .ret).selects 0x05EE = true := by decide

/-- Depth 1, depth 16, depth 0, and live entries that are return addresses. -/
theorem witness_RetPopsIntoPc :
    0 < ({ State.reset with sp := 1 } : State).sp.val ∧
    0 < ({ State.reset with sp := 16 } : State).sp.val ∧ State.reset.sp.val = 0 ∧
    State.controlOk { State.reset with sp := 1, stack := State.reset.stack.set 0 0x1000 } := by
  unfold State.controlOk
  decide

/-- Depth 0, depth 15 and depth 16. -/
theorem witness_CallPushesAndJumps :
    State.reset.sp.val < 16 ∧ ({ State.reset with sp := 15 } : State).sp.val < 16 ∧
    ({ State.reset with sp := 16 } : State).sp.val = 16 := by decide

/-- The destination is not VF: AddRegSumAndCarry, SubtractDifferenceAndNotBorrow,
ShiftsMoveTheBitOutIntoVF. -/
theorem witness_destination_not_vf : (0 : Reg) ≠ vf ∧ (14 : Reg) ≠ vf := by decide

theorem witness_IndexLoadsSetI : State.reset.params.fontBase ≤ 0x1B0 ∧ 0x1B0 ≤ 0x1B0 := by decide

/-- The last legal and the first illegal `I`. -/
theorem witness_DecimalStoreWritesThreeDigits :
    Memory.wf State.reset.params State.reset.mem = true ∧
    (State.reset.setI 0xFFD).i.toNat + 2 ≤ 0xFFF ∧ (State.reset.setI 0xFFE).i.toNat + 2 > 0xFFF := by
  decide

/-- The last legal and the first illegal `I` for X = F and X = 0; BlockLoadReadsRegisters and
BlockStoreThenLoadRestoresRegisters too. -/
theorem witness_BlockStoreWritesRegisters :
    Memory.wf State.reset.params State.reset.mem = true ∧
    (State.reset.setI 0xFF0).i.toNat + (15 : Reg).val ≤ 0xFFF ∧
    (State.reset.setI 0xFF1).i.toNat + (15 : Reg).val > 0xFFF ∧
    (State.reset.setI 0xFFF).i.toNat + (0 : Reg).val ≤ 0xFFF ∧
    (State.reset.setI 0x1000).i.toNat + (0 : Reg).val > 0xFFF := by decide

/-- No rows at any `I`; the last legal `I` for two rows and the first illegal one;
DrawEqualsTheLoopOfTheSpec too. -/
theorem witness_DrawTogglesSpritePixels :
    ((0 : BitVec 4) = 0 ∨ (State.reset.setI 0xFFFF).i.toNat + (0 : BitVec 4).toNat ≤ 0x1000) ∧
    ((2 : BitVec 4) = 0 ∨ (State.reset.setI 0xFFE).i.toNat + (2 : BitVec 4).toNat ≤ 0x1000) ∧
    (2 : BitVec 4) ≠ 0 ∧ (State.reset.setI 0xFFF).i.toNat + (2 : BitVec 4).toNat > 0x1000 := by decide

theorem witness_DrawTwiceRestoresFramebuffer :
    (1 : Reg) ≠ vf ∧ (14 : Reg) ≠ vf ∧
    (State.reset.setI 0xFFE).i.toNat + (2 : BitVec 4).toNat ≤ 0x1000 := by decide

/-- Key numbers 15 and 16. -/
theorem witness_KeySkipsTestTheSnapshot :
    ((base [(1, 15)]).getV 1).toNat ≤ 15 ∧ ((base [(1, 16)]).getV 1).toNat > 15 := by decide

/-- Keys 3 and 15 down, only key 15, only key 0, none. -/
theorem witness_WaitForKeyTakesTheLowest :
    ((0x8008 : BitVec 16).getLsbD 3 = true ∧
      ∀ j : Fin 16, j < 3 → (0x8008 : BitVec 16).getLsbD j.val = false) ∧
    ((0x8000 : BitVec 16).getLsbD 15 = true ∧
      ∀ j : Fin 16, j < 15 → (0x8000 : BitVec 16).getLsbD j.val = false) ∧
    ((0x0001 : BitVec 16).getLsbD 0 = true ∧
      ∀ j : Fin 16, j < 0 → (0x0001 : BitVec 16).getLsbD j.val = false) ∧
    ∀ k : Fin 16, State.reset.keys.getLsbD k.val = false := by decide

/-- A cycle that faults at decode, and one that faults at fetch. -/
theorem witness_FaultsArePrecise :
    State.reset.fault = none ∧
    (∃ t, instructionCycle State.reset = .next t ∧ t.fault ≠ none) ∧
    ∃ t, instructionCycle (State.reset.setPc 0xFFF) = .next t ∧ t.fault ≠ none :=
  ⟨rfl, ⟨_, instructionCycle_unmatched (e := .unmatched0) (by decide) (by decide),
    Option.some_ne_none _⟩, _, instructionCycle_out (by decide), Option.some_ne_none _⟩

/-- Each of the four faults an instruction can raise. -/
theorem witness_OnlyTheseInstructionsRaise :
    State.reset.fault = none ∧
    (∃ t f, exec .ret State.reset = .next t ∧ t.fault = some f) ∧
    (∃ t f, exec (.call 0) { State.reset with sp := 16 } = .next t ∧ t.fault = some f) ∧
    (∃ t f, exec (.ldVxMem 0) (State.reset.setI 0x1000) = .next t ∧ t.fault = some f) ∧
    ∃ t f, exec (.skp 1) (base [(1, 16)]) = .next t ∧ t.fault = some f :=
  ⟨rfl, ⟨_, _, rfl, rfl⟩, ⟨_, _, rfl, rfl⟩, ⟨_, _, rfl, rfl⟩, _, _, rfl, rfl⟩

theorem witness_InstructionsLeaveTheSchedulerAlone : ∃ t, exec .cls State.reset = .next t := ⟨_, rfl⟩

/-- Each piece of state changed by an instruction that may change it. -/
theorem witness_EachStateHasItsOwnWriters :
    (∃ t, exec (.ldI 5) State.reset = .next t ∧ t.i ≠ State.reset.i) ∧
    (∃ t, exec .cls (lit 0 0 State.reset) = .next t ∧ t.fb ≠ (lit 0 0 State.reset).fb) ∧
    (∃ t, exec (.call 0) State.reset = .next t ∧ t.sp ≠ State.reset.sp) ∧
    (∃ t, exec (.ldDTVx 1) (base [(1, 5)]) = .next t ∧ t.dt ≠ (base [(1, 5)]).dt) ∧
    (∃ t, exec (.ldSTVx 1) (base [(1, 5)]) = .next t ∧ t.st ≠ (base [(1, 5)]).st) ∧
    ∃ t, exec (.ldMemVx 0) ((base [(0, 5)]).setI 0x300) = .next t ∧
      t.mem ≠ ((base [(0, 5)]).setI 0x300).mem :=
  ⟨⟨_, rfl, by decide⟩, ⟨_, rfl, by decide⟩, ⟨_, rfl, by decide⟩, ⟨_, rfl, by decide⟩,
    ⟨_, rfl, by decide⟩, _, rfl, by decide⟩

/-- A destination written, and VF written as a flag. -/
theorem witness_RegistersHaveTheirOwnWriters :
    (∃ t, exec (.ldImm 1 5) State.reset = .next t ∧ t.getV 1 ≠ State.reset.getV 1) ∧
    ∃ t, exec (.sub 1 2) State.reset = .next t ∧ t.getV vf ≠ State.reset.getV vf :=
  ⟨⟨_, rfl, by decide⟩, _, rfl, by decide⟩

theorem witness_OnlyTransfersMovePc :
    ∃ t, exec (.jp 0x300) State.reset = .next t ∧ t.pc ≠ State.reset.pc := ⟨_, rfl, by decide⟩

/-- FX0A sees no draw, CXNN sees no key. -/
theorem witness_InstructionsReadNothingFromOutside :
    (∀ x nn, Instr.ldVxK 3 ≠ .rnd x nn) ∧
    ∀ x, Instr.rnd 3 0xFF ≠ .skp x ∧ Instr.rnd 3 0xFF ≠ .sknp x ∧ Instr.rnd 3 0xFF ≠ .ldVxK x :=
  ⟨(fun _ _ h => nomatch h), fun _ => ⟨(nomatch ·), (nomatch ·), (nomatch ·)⟩⟩

/-- Depths 0, 1, 15 and 16, and 16 pushes against 17. -/
theorem witness_PushAndPopAreAStack :
    State.reset.sp.val = 0 ∧ State.reset.sp.val < 16 ∧
    ({ State.reset with sp := 15 } : State).sp.val < 16 ∧
    ({ State.reset with sp := 16 } : State).sp.val = 16 ∧
    0 < ({ State.reset with sp := 1 } : State).sp.val ∧ 16 ≤ 16 ∧ ¬ 17 ≤ 16 := by decide

theorem witness_MemoryReadsTheLastWrite :
    Memory.wf State.reset.params State.reset.mem = true ∧ 0xFFF < 4096 ∧ 0 ≠ 0xFFF := by decide

theorem witness_StoresAreSeenByTheNextFetch :
    Memory.wf State.reset.params State.reset.mem = true ∧ (State.reset.setPc 0xFFE).pc.toNat ≤ 0xFFE := by
  decide

/-- A period of time in rational microseconds is reached by 20000. -/
theorem due_20000 : mkRat 10000 7 ≤ (0 : ℚ) + 20000 := by
  rw [Rat.mkRat_eq_div]
  norm_num

theorem witness_StepRunsTheDecodedInstruction :
    (looping (.advance 20000 noKeys 7)).inbox = [.advance 20000 noKeys 7] ∧
    (looping (.advance 20000 noKeys 7)).running ∧ (0 : ℚ) ≤ 20000 ∧ noKeys.length = 16 ∧
    (looping (.advance 20000 noKeys 7)).params.iperiod ≤
      (looping (.advance 20000 noKeys 7)).iacc + 20000 ∧
    (looping (.advance 20000 noKeys 7)).pc.toNat ≤ 0xFFE ∧
    decode [(looping (.advance 20000 noKeys 7)).readByte 0x200,
      (looping (.advance 20000 noKeys 7)).readByte 0x201] = .ok (.jp 0x200, []) :=
  ⟨rfl, ⟨rfl, rfl⟩, by norm_num, rfl, due_20000, by decide, by decide⟩

theorem witness_PlacedWordRunsNext :
    Memory.wf State.reset.params State.reset.mem = true ∧ decodeWord 0x6A02 = .ok (.ldImm 0xA 2) ∧
    State.reset.pc.toNat ≤ 0xFFE ∧ (State.reset.setPc 0xFFE).pc.toNat ≤ 0xFFE ∧
    ¬ (State.reset.setPc 0xFFF).pc.toNat ≤ 0xFFE := by decide

theorem witness_FetchOutsideMemoryFaults : (State.reset.setPc 0xFFF).pc.toNat > 0xFFE := by decide

theorem witness_UnmatchedWordRaisesDecodeFault :
    (State.reset.pc.toNat ≤ 0xFFE ∧ decodeWord State.reset.wordAtPc = .error .unmatched0) ∧
    State.reset.fault = none ∧
    ∃ t w a, instructionCycle State.reset = .next t ∧ t.fault = some (.decode w a) :=
  ⟨by decide, rfl, _, _, _,
    instructionCycle_unmatched (e := .unmatched0) (by decide) (by decide), rfl⟩

/-- A halting fault reported; an Advance call on a halted core; a Reset call that ends the halt. -/
theorem witness_HaltingFaultsStopTheCore :
    (State.reset.halt = false ∧ State.reset.frameReady = false ∧
      ({ State.reset with fault := some (.stackUnderflow 0x200) } : State).fault =
        some (.stackUnderflow 0x200) ∧
      Fault.halting State.reset.params.policy (.stackUnderflow 0x200) = true) ∧
    (∃ s : State, s.inbox = [.advance 5 noKeys 0] ∧ s.ready = true ∧ s.halt = true ∧
      (0 : ℚ) ≤ 5 ∧ noKeys.length = 16) ∧
    ∃ s t : State, step s = .next t ∧ s.halt = true ∧ t.halt = false := by
  refine ⟨by decide, ⟨{ State.reset with halt := true, inbox := [.advance 5 noKeys 0] }, rfl, rfl, rfl,
    by norm_num, rfl⟩, ?_⟩
  obtain ⟨t, ht, hp⟩ := exists_of_answers
    (s := { State.reset with halt := true, inbox := [.reset [] Config.defaultParams] })
    (p := fun t => !t.halt) (by decide)
  exact ⟨_, t, ht, rfl, by simpa using hp⟩

/-- Zeroed memory under either policy. -/
theorem witness_DecodeFaultFollowsThePolicy :
    State.reset.pc.toNat ≤ 0xFFE ∧ State.reset.halt = false ∧ State.reset.frameReady = false ∧
    decodeWord State.reset.wordAtPc = .error .unmatched0 ∧ State.reset.params.policy = .halt ∧
    ({ State.reset with params := { Config.defaultParams with policy := .skip } } : State).params.policy
      = .skip := by decide

/-- A call that is not due, a due one that faults (zeroed memory), and a due one that does not. -/
theorem witness_AdvanceFollowsTheSpecSteps :
    (∃ s : State, s.inbox = [.advance 0 noKeys 0] ∧ s.running ∧ (0 : ℚ) ≤ 0 ∧ noKeys.length = 16 ∧
      0 < s.params.iperiod ∧ s.iacc + 0 < s.params.iperiod) ∧
    (∃ s t : State, s.inbox = [.advance 20000 noKeys 0] ∧ s.running ∧ 0 < s.params.iperiod ∧
      s.params.iperiod ≤ s.iacc + 20000 ∧ instructionCycle s = .next t ∧ t.fault ≠ none) ∧
    ∃ s t : State, s.inbox = [.advance 20000 noKeys 0] ∧ s.running ∧ 0 < s.params.iperiod ∧
      s.params.iperiod ≤ s.iacc + 20000 ∧ instructionCycle s = .next t ∧ t.fault = none := by
  have hp : (0 : ℚ) < mkRat 10000 7 := by rw [Rat.mkRat_eq_div]; norm_num
  refine ⟨⟨{ State.reset with inbox := [.advance 0 noKeys 0] }, rfl, ⟨rfl, rfl⟩, le_rfl, rfl, hp, ?_⟩,
    ⟨{ State.reset with inbox := [.advance 20000 noKeys 0] }, _, rfl, ⟨rfl, rfl⟩, hp, due_20000,
      instructionCycle_unmatched (e := .unmatched0) (by decide) (by decide), Option.some_ne_none _⟩,
    looping (.advance 20000 noKeys 0), (looping (.advance 20000 noKeys 0)).setPc 0x200, rfl, ⟨rfl, rfl⟩,
      hp, due_20000, ?_, rfl⟩
  · show (0 : ℚ) + 0 < mkRat 10000 7
    rw [add_zero]
    exact hp
  · rw [instructionCycle_ok (i := .jp 0x200) (by decide) (by decide)]
    rfl

/-- The first and the last fault code, reported; no fault reported. -/
theorem witness_FaultCodesAreOneToSix :
    ({ State.reset with fault := some (.decode 0 0x200) } : State).fault = some (.decode 0 0x200) ∧
    ({ State.reset with fault := some (.keyRange 16 0x200) } : State).fault =
      some (.keyRange 16 0x200) ∧
    State.reset.fault = none := by decide

/-- Key 0 and key 15 of a snapshot. -/
theorem witness_AdvanceFollowsTheSpecSteps_keys :
    0 < 16 ∧ 15 < 16 ∧ (true :: List.replicate 15 false).getD 0 false = true ∧
    (List.replicate 15 false ++ [true]).getD 15 false = true := by decide

/-- A halted core; a call with a tick; one without; a call with no instruction due. -/
theorem witness_FrameReadyExactlyOnATick :
    (({ looping tickCall with halt := true } : State).halt = true ∧
      Answers { looping tickCall with halt := true } (fun t => !t.frameReady) = true) ∧
    Answers (looping (.advance 20000 noKeys 0)) (fun t => t.frameReady) = true ∧
    Answers (looping (.advance 1000 noKeys 0)) (fun t => !t.frameReady) = true ∧
    reaches (usAdd State.reset.iacc 20000) State.reset.params.iperiod = true ∧
    reaches (usAdd State.reset.iacc 1000) State.reset.params.iperiod = false := by decide

theorem witness_BacklogIsDropped :
    0 < (looping (.advance 20000 noKeys 0)).params.iperiod ∧
    (looping (.advance 20000 noKeys 0)).clocksOk ∧ (looping (.advance 20000 noKeys 0)).halt = false ∧
    ∃ t, step (looping (.advance 20000 noKeys 0)) = .next t ∧ t.halt = false := by
  have hp : (0 : ℚ) < mkRat 10000 7 := by rw [Rat.mkRat_eq_div]; norm_num
  obtain ⟨t, ht, h⟩ := exists_of_answers (s := looping (.advance 20000 noKeys 0))
    (p := fun t => !t.halt) (by decide)
  exact ⟨hp, ⟨le_rfl, le_rfl, fun _ => ⟨hp, tperiod_pos⟩⟩, rfl, t, ht, by simpa using h⟩

/-- 5 mod 2 is 1. -/
theorem witness_DrainIsTheRationalRemainder :
    (0 : ℚ) < 2 ∧ (0 : ℚ) ≤ 1 ∧ (1 : ℚ) < 2 ∧ ∃ k : ℤ, (5 : ℚ) - 1 = 2 * k :=
  ⟨by norm_num, by norm_num, by norm_num, 2, by norm_num⟩

theorem witness_TicksCountDownToZero : (0 : Byte) = 0 ∧ (1 : Byte) ≠ 0 ∧ (255 : Byte) ≠ 0 := by decide

/-- Negative time; 15 keys; no time with the accumulators at 0. -/
theorem witness_ElapsedAndKeysAreChecked :
    State.reset.ready = true ∧ (-1 : ℚ) < 0 ∧ ((0 : ℚ) ≤ 0 ∧ (List.replicate 15 false).length ≠ 16) ∧
    noKeys.length = 16 ∧ State.reset.halt = false ∧ State.reset.iacc < State.reset.params.iperiod ∧
    State.reset.tacc < tperiod := by
  refine ⟨rfl, by norm_num, ⟨le_rfl, by decide⟩, rfl, rfl, ?_, tperiod_pos⟩
  show (0 : ℚ) < mkRat 10000 7
  rw [Rat.mkRat_eq_div]
  norm_num

/-- Empty and longest ROM, with the least and the largest `FONT_BASE`; for TooLargeRomFailsReset the
longest and the first too long, with an Advance call after it. -/
theorem witness_ResetLeavesTheStateOfR45 :
    Config.defaultParams.fontBase ≤ 0x1B0 ∧
    ({ Config.defaultParams with fontBase := 0x1B0 } : Params).fontBase ≤ 0x1B0 ∧
    Config.defaultParams.font.length = 80 ∧ 0 < Config.defaultParams.iperiod ∧
    ([] : List Byte).length ≤ 3584 ∧ (List.replicate 3584 (0x12 : Byte)).length ≤ 3584 ∧
    3585 ≤ (List.replicate 3585 (0x12 : Byte)).length ∧
    ∃ e ks b rest', [tickCall] = DriverCall.advance e ks b :: rest' :=
  ⟨by decide, le_rfl, by decide, by rw [Config.defaultParams, Rat.mkRat_eq_div]; norm_num, by decide,
    by rw [List.length_replicate], by rw [List.length_replicate], _, _, _, _, rfl⟩

/-- A placed Reset for each constraint of R8, broken just past its end. -/
theorem witness_IllegalParametersAreRefused :
    (∃ (s : State) (rom : List Byte) (p : Params), s.inbox = [.reset rom p]) ∧
    0x1B0 < ({ Config.defaultParams with fontBase := 0x1B1 } : Params).fontBase ∧
    ({ Config.defaultParams with font := List.replicate 81 0 } : Params).font.length ≠ 80 ∧
    ({ Config.defaultParams with iperiod := 0 } : Params).iperiod ≤ 0 :=
  ⟨⟨{ State.reset with inbox := [.reset [] Config.defaultParams] }, _, _, rfl⟩, by decide, by decide,
    le_rfl⟩

/-- A state with the invariant and a step from it, with a call placed and a return address live. -/
theorem witness_EveryStepKeepsTheInvariant : ∃ s t : State, s.Inv ∧ 0 < s.sp.val ∧ step s = .next t := by
  have hp : (0 : ℚ) < mkRat 10000 7 := by rw [Rat.mkRat_eq_div]; norm_num
  obtain ⟨t, ht, _⟩ := exists_of_answers
    (s := { looping tickCall with sp := 1, stack := State.reset.stack.set 0 0x202 })
    (p := fun t => !t.halt) (by decide)
  refine ⟨_, t, ⟨by decide, by decide, ⟨le_rfl, le_rfl, fun _ => ⟨hp, tperiod_pos⟩⟩, ?_, by decide⟩,
    by decide, ht⟩
  unfold State.controlOk
  decide

/-- Nothing placed; an Advance of no time placed; a Reset placed. -/
theorem witness_ReadyCoreAlwaysGoesOn :
    State.reset.ready = true ∧ State.reset.inbox = [] ∧
    (∃ s : State, s.ready = true ∧ s.inbox = [.advance 0 noKeys 0] ∧ (0 : ℚ) ≤ 0 ∧
      noKeys.length = 16) ∧
    ∃ s : State, s.ready = true ∧ s.inbox = [.reset [] Config.defaultParams] ∧
      Config.defaultParams.fontBase ≤ 0x1B0 ∧ Config.defaultParams.font.length = 80 ∧
      0 < Config.defaultParams.iperiod :=
  ⟨rfl, rfl, ⟨{ State.reset with inbox := [.advance 0 noKeys 0] }, rfl, rfl, le_rfl, rfl⟩,
    { State.reset with inbox := [.reset [] Config.defaultParams] }, rfl, rfl, by decide, by decide,
    by rw [Config.defaultParams, Rat.mkRat_eq_div]; norm_num⟩

end Sys2Proof.Tests
end

section
/-! The refusal of a Reset whose parameters break R8 (00_scope.md). -/

namespace Sys2Proof.Machine

/-- Parameters are not legal exactly when one of the three constraints of R8 is broken. -/
theorem not_legal_iff (p : Params) :
    ¬ p.legal = true ↔ 0x1B0 < p.fontBase ∨ p.font.length ≠ 80 ∨ p.iperiod ≤ 0 := by
  rw [legal_iff, not_and_or, not_and_or, not_le, not_lt]

/-- A placed Reset is refused for its parameters exactly when they are not legal; the state before
it and the ROM have no say. -/
theorem step_reset_refused_iff {s : State} {rom : List Byte} {p : Params} {rest : List DriverCall}
    (h : s.inbox = .reset rom p :: rest) :
    step s = .refused .illegalParameters ↔ ¬ p.legal = true := by
  rw [step_reset h]
  by_cases hp : p.legal = true
  · simp [hp]
  · simp [hp]

/-- Settles O57: a Reset branches on `Params.legal` alone, and `legal_iff` says what that tests. -/
theorem illegalParametersAreRefused : Obligations.IllegalParametersAreRefused :=
  ⟨legal_iff, fun _ _ p _ h => (step_reset_refused_iff h).trans (not_legal_iff p)⟩

end Sys2Proof.Machine
end

section
/-! What each instruction writes, in one table, and the writers of each part of the state
(10_state.md R21 to R32, 20_memory.md R58). -/

namespace Sys2Proof.Machine

/-- `s` with what the instruction may write taken from `t`: the writers that R22, R23, R25, R26, R31,
R32 and R58 name, read instruction by instruction. -/
def State.withWritesOf (s : State) (i : Instr) (t : State) : State :=
  match i with
  | .cls => { s with fb := t.fb }
  | .ret => { s with pc := t.pc, sp := t.sp }
  | .call _ => { s with pc := t.pc, stack := t.stack, sp := t.sp }
  | .jp _ | .jpV0 _ | .seImm _ _ | .sneImm _ _ | .seReg _ _ | .sneReg _ _ | .skp _ | .sknp _ =>
    { s with pc := t.pc }
  | .ldImm _ _ | .addImm _ _ | .ldReg _ _ | .orReg _ _ | .andReg _ _ | .xorReg _ _ | .addReg _ _
  | .sub _ _ | .shr _ | .subn _ _ | .shl _ | .rnd _ _ | .ldVxDT _ | .ldVxMem _ => { s with v := t.v }
  | .ldVxK _ => { s with v := t.v, pc := t.pc }
  | .ldI _ | .ldF _ => { s with i := t.i }
  | .addI _ => { s with i := t.i, v := t.v }
  | .drw _ _ _ => { s with v := t.v, fb := t.fb }
  | .ldDTVx _ => { s with dt := t.dt }
  | .ldSTVx _ => { s with st := t.st }
  | .ldB _ | .ldMemVx _ => { s with mem := t.mem }

/-- A data access goes on as the access does, or with a fault and nothing else (R57, R197). -/
theorem withDataRange_of_next {n : Nat} {s t : State} {access : State → State}
    (h : withDataRange n s access = .next t) :
    t = access s ∨ ∃ f, t = { s with fault := some f } := by
  obtain h' | ⟨f, h'⟩ := withDataRange_next n s access
  · exact .inl (Host.Outcome.next.inj (h.symm.trans h'))
  · exact .inr ⟨f, Host.Outcome.next.inj (h.symm.trans h')⟩

/-- A skip leaves `PC` or moves it past one more instruction (R13). -/
theorem skipIf_of_next {c : Bool} {s t : State} (h : skipIf c s = .next t) : t = s ∨ t = s.skipNext := by
  cases c
  · exact .inl (Host.Outcome.next.inj h).symm
  · exact .inr (Host.Outcome.next.inj h).symm

/-- A key skip is a skip, or a fault and nothing else (R160, R161, R195). -/
theorem skipIfKey_of_next {down : Bool} {x : Reg} {s t : State} (h : skipIfKey down x s = .next t) :
    t = s ∨ t = s.skipNext ∨ ∃ f, t = { s with fault := some f } := by
  unfold skipIfKey at h
  split at h
  · exact .inr (.inr ⟨_, (Host.Outcome.next.inj h).symm⟩)
  · exact (skipIf_of_next h).imp_right .inl

/-- A return pops into `PC`, or is a fault and nothing else (R100, R193). -/
theorem execRet_of_next {s t : State} (h : execRet s = .next t) :
    (∃ (_ : 0 < s.sp.val) (h' : s.sp.val - 1 < 17),
      t = { s with pc := s.stack[s.sp.val - 1], sp := ⟨s.sp.val - 1, h'⟩ }) ∨
    ∃ f, t = { s with fault := some f } := by
  obtain ⟨_, e⟩ | ⟨hp, h', e⟩ := s.pop_cases <;> simp only [execRet, e] at h
  · exact .inr ⟨_, (Host.Outcome.next.inj h).symm⟩
  · exact .inl ⟨hp, h', (Host.Outcome.next.inj h).symm⟩

/-- A call pushes `PC` and jumps, or is a fault and nothing else (R102, R192). -/
theorem execCall_of_next {nnn : BitVec 12} {s t : State} (h : execCall nnn s = .next t) :
    (∃ (_ : s.sp.val < 16) (h' : s.sp.val + 1 < 17),
      t = { s with pc := addr12 nnn, stack := s.stack.set s.sp.val s.pc,
                   sp := ⟨s.sp.val + 1, h'⟩ }) ∨
    ∃ f, t = { s with fault := some f } := by
  obtain ⟨_, e⟩ | ⟨hp, h', e⟩ := s.push_cases s.pc <;> simp only [execCall, e] at h
  · exact .inr ⟨_, (Host.Outcome.next.inj h).symm⟩
  · exact .inl ⟨hp, h', (Host.Outcome.next.inj h).symm⟩

/-- Waiting for a key takes one into `V[X]` or steps back to the same instruction (R162). -/
theorem execLdVxK_of_next {x : Reg} {s t : State} (h : execLdVxK x s = .next t) :
    (∃ b, t = s.setV x b) ∨ t = s.rewind := by
  unfold execLdVxK at h
  split at h
  · exact .inl ⟨_, (Host.Outcome.next.inj h).symm⟩
  · exact .inr (Host.Outcome.next.inj h).symm

/-- FX33 stores three digits at `I`, or is a fault and nothing else (R143). -/
theorem execLdB_of_next {x : Reg} {s t : State} (h : execLdB x s = .next t) :
    t = s.writeBytes s.i.toNat (decimalDigits (s.getV x)) ∨ ∃ f, t = { s with fault := some f } :=
  withDataRange_of_next h

/-- FX55 stores registers at `I`, or is a fault and nothing else (R144). -/
theorem execLdMemVx_of_next {x : Reg} {s t : State} (h : execLdMemVx x s = .next t) :
    t = s.writeBytes s.i.toNat (s.firstV x) ∨ ∃ f, t = { s with fault := some f } :=
  withDataRange_of_next h

/-- FX65 loads registers from `I`, or is a fault and nothing else (R145). -/
theorem execLdVxMem_of_next {x : Reg} {s t : State} (h : execLdVxMem x s = .next t) :
    t = s.loadV x (s.readBytes s.i.toNat (x.val + 1)) ∨ ∃ f, t = { s with fault := some f } :=
  withDataRange_of_next h

/-- WHAT EACH INSTRUCTION WRITES: no more than the table says, or a fault and nothing else (R197). -/
theorem exec_writes {i : Instr} {s t : State} (h : exec i s = .next t) :
    t = s.withWritesOf i t ∨ ∃ f, t = { s with fault := some f } := by
  cases i with
  | ret =>
    obtain ⟨_, _, rfl⟩ | hf := execRet_of_next h
    · exact .inl rfl
    · exact .inr hf
  | call nnn =>
    obtain ⟨_, _, rfl⟩ | hf := execCall_of_next h
    · exact .inl rfl
    · exact .inr hf
  | seImm x nn | sneImm x nn | seReg x y | sneReg x y =>
    obtain rfl | rfl := skipIf_of_next h <;> exact .inl rfl
  | skp x | sknp x =>
    obtain rfl | rfl | hf := skipIfKey_of_next h
    · exact .inl rfl
    · exact .inl rfl
    · exact .inr hf
  | ldVxK x => obtain ⟨b, rfl⟩ | rfl := execLdVxK_of_next h <;> exact .inl rfl
  | drw x y n =>
    obtain rfl | hf := withDataRange_of_next h
    · exact .inl (drawSprite_eq x y n s)
    · exact .inr hf
  | ldB x =>
    obtain rfl | hf := execLdB_of_next h
    · exact .inl rfl
    · exact .inr hf
  | ldMemVx x =>
    obtain rfl | hf := execLdMemVx_of_next h
    · exact .inl rfl
    · exact .inr hf
  | ldVxMem x =>
    obtain rfl | hf := execLdVxMem_of_next h
    · exact .inl (by simp only [State.withWritesOf, State.loadV])
    · exact .inr hf
  | _ =>
    obtain rfl := Host.Outcome.next.inj h
    exact .inl rfl

/-- A part of the state that an instruction changes, the reported fault aside, stands in the table. -/
theorem exec_changes {α : Type} {i : Instr} {s t : State} (part : State → α)
    (hpart : ∀ f, part { s with fault := f } = part s) (h : exec i s = .next t)
    (hne : part t ≠ part s) : part (s.withWritesOf i t) ≠ part s := by
  obtain ht | ⟨f, rfl⟩ := exec_writes h
  · rwa [← ht]
  · exact absurd (hpart _) hne

/-! ### The writers of each part -/

theorem index_writers {i : Instr} {s t : State} (h : (s.withWritesOf i t).i ≠ s.i) :
    (∃ nnn, i = .ldI nnn) ∨ (∃ x, i = .addI x) ∨ ∃ x, i = .ldF x := by
  cases i with
  | ldI nnn => exact .inl ⟨nnn, rfl⟩
  | addI x => exact .inr (.inl ⟨x, rfl⟩)
  | ldF x => exact .inr (.inr ⟨x, rfl⟩)
  | _ => exact absurd rfl h

theorem framebuffer_writers {i : Instr} {s t : State} (h : (s.withWritesOf i t).fb ≠ s.fb) :
    i = .cls ∨ ∃ x y n, i = .drw x y n := by
  cases i with
  | cls => exact .inl rfl
  | drw x y n => exact .inr ⟨x, y, n, rfl⟩
  | _ => exact absurd rfl h

theorem stack_writers {i : Instr} {s t : State}
    (h : ((s.withWritesOf i t).stack, (s.withWritesOf i t).sp) ≠ (s.stack, s.sp)) :
    i = .ret ∨ ∃ nnn, i = .call nnn := by
  cases i with
  | ret => exact .inl rfl
  | call nnn => exact .inr ⟨nnn, rfl⟩
  | _ => exact absurd rfl h

theorem delayTimer_writers {i : Instr} {s t : State} (h : (s.withWritesOf i t).dt ≠ s.dt) :
    ∃ x, i = .ldDTVx x := by
  cases i with
  | ldDTVx x => exact ⟨x, rfl⟩
  | _ => exact absurd rfl h

theorem soundTimer_writers {i : Instr} {s t : State} (h : (s.withWritesOf i t).st ≠ s.st) :
    ∃ x, i = .ldSTVx x := by
  cases i with
  | ldSTVx x => exact ⟨x, rfl⟩
  | _ => exact absurd rfl h

theorem memory_writers {i : Instr} {s t : State} (h : (s.withWritesOf i t).mem ≠ s.mem) :
    (∃ x, i = .ldB x) ∨ ∃ x, i = .ldMemVx x := by
  cases i with
  | ldB x => exact .inl ⟨x, rfl⟩
  | ldMemVx x => exact .inr ⟨x, rfl⟩
  | _ => exact absurd rfl h

theorem pc_writers {i : Instr} {s t : State} (h : (s.withWritesOf i t).pc ≠ s.pc) :
    i.transfers = true := by
  cases i with
  | ret | jp _ | call _ | jpV0 _ | seImm _ _ | sneImm _ _ | seReg _ _ | sneReg _ _ | skp _ | sknp _
  | ldVxK _ => rfl
  | _ => exact absurd rfl h

/-- Settles O35: each part of the state that changed stands in the table of `withWritesOf` for the
instruction. -/
theorem eachStateHasItsOwnWriters : Obligations.EachStateHasItsOwnWriters := by
  intro i s t h
  refine ⟨fun hi => index_writers (exec_changes State.i (fun _ => rfl) h hi),
    fun hfb => framebuffer_writers (exec_changes State.fb (fun _ => rfl) h hfb),
    fun hst => stack_writers (exec_changes (fun u => (u.stack, u.sp)) (fun _ => rfl) h ?_),
    fun hdt => delayTimer_writers (exec_changes State.dt (fun _ => rfl) h hdt),
    fun hst => soundTimer_writers (exec_changes State.st (fun _ => rfl) h hst),
    fun hm => memory_writers (exec_changes State.mem (fun _ => rfl) h hm)⟩
  rwa [Ne, Prod.mk.injEq, not_and_or]

/-- Settles O37: `PC` stands in the table of `withWritesOf` for the instructions of R25 alone. -/
theorem onlyTransfersMovePc : Obligations.OnlyTransfersMovePc :=
  fun _ _ _ h hpc => pc_writers (exec_changes State.pc (fun _ => rfl) h hpc)

/-! ### The registers -/

/-- A register that a write to `V[x]` changed is `V[x]`. -/
theorem eq_of_getV_setV_ne {s : State} {x r : Reg} {b : Byte} (h : (s.setV x b).getV r ≠ s.getV r) :
    r = x := by
  by_contra hr
  exact h (State.getV_setV_ne s b hr)

/-- A register that a write to `V[x]` and then VF changed is one of the two. -/
theorem eq_of_getV_setVThenFlag_ne {s : State} {x r : Reg} {b f : Byte}
    (h : (s.setVThenFlag x b f).getV r ≠ s.getV r) : r = x ∨ r = vf := by
  by_contra hr
  exact h (sameVBut_setVThenFlag s x b f r (by simpa using hr))

/-- Settles O36: where the instruction writes registers, the register operation it ends in says
which; elsewhere the table of `withWritesOf` leaves the register file. -/
theorem registersHaveTheirOwnWriters : Obligations.RegistersHaveTheirOwnWriters := by
  intro i s t r h hr
  have htable := exec_changes (State.getV · r) (fun _ => rfl) h hr
  cases i with
  | ldImm x nn | addImm x nn | ldReg x y | orReg x y | andReg x y | xorReg x y | rnd x nn
  | ldVxDT x =>
    obtain rfl := Host.Outcome.next.inj h
    exact .inl (beq_iff_eq.2 (eq_of_getV_setV_ne hr))
  | addReg x y | sub x y | shr x | subn x y | shl x =>
    obtain rfl := Host.Outcome.next.inj h
    exact (eq_of_getV_setVThenFlag_ne hr).imp beq_iff_eq.2 fun hvf => ⟨hvf, rfl⟩
  | addI x =>
    obtain rfl := Host.Outcome.next.inj h
    exact .inr ⟨eq_of_getV_setV_ne (s := s.setI _) hr, rfl⟩
  | ldVxK x =>
    obtain ⟨b, rfl⟩ | rfl := execLdVxK_of_next h
    · exact .inl (beq_iff_eq.2 (eq_of_getV_setV_ne hr))
    · exact absurd rfl hr
  | drw x y n =>
    obtain rfl | ⟨f, rfl⟩ := withDataRange_of_next h
    · refine .inr ⟨?_, rfl⟩
      by_contra hvf
      exact hr (drawSprite_getV x y r n s hvf)
    · exact absurd rfl hr
  | ldVxMem x =>
    obtain rfl | ⟨f, rfl⟩ := execLdVxMem_of_next h
    · refine .inl (decide_eq_true ?_)
      by_contra hx
      exact hr (by rw [State.getV_loadV, if_neg hx])
    · exact absurd rfl hr
  | _ => exact absurd rfl htable

end Sys2Proof.Machine
end

section
/-! The invariant holds at reset and every step keeps it (10_state.md R25, R35, R36; 40_flow.md R100;
60_exceptions.md R198). -/

namespace Sys2Proof.Machine

/-! ### `PC` and the stack -/

/-- `controlOk` looks at `PC` and the live stack alone, and asks of `PC` only a bound. -/
theorem State.controlOk.of_pc {s t : State} (hc : s.controlOk) (hpc : t.pc.toNat ≤ 0x10FE)
    (hstack : t.stack = s.stack) (hsp : t.sp = s.sp) : t.controlOk := by
  refine ⟨hpc, ?_⟩
  rw [hstack, hsp]
  exact hc.2

theorem toNat_add_two {w : Word} (h : w.toNat ≤ 0x1000) : (w + 2).toNat = w.toNat + 2 := by
  rw [BitVec.toNat_add]
  exact Nat.mod_eq_of_lt (by change w.toNat + 2 < 65536; omega)

/-- A skip moves `PC` by one instruction at most (R13). -/
theorem skipNext_controlOk {s : State} (hpc : s.pc.toNat ≤ 0x1000) (hc : s.controlOk) :
    s.skipNext.controlOk :=
  hc.of_pc (by rw [State.skipNext_pc, toNat_add_two hpc]; omega) rfl rfl

/-- Popping into `PC` takes the top live entry, an address after a call (R100). -/
theorem popIntoPc_controlOk {s : State} (hp : 0 < s.sp.val) (h' : s.sp.val - 1 < 17)
    (hc : s.controlOk) :
    State.controlOk { s with pc := s.stack[s.sp.val - 1], sp := ⟨s.sp.val - 1, h'⟩ } := by
  obtain ⟨_, hlive⟩ := hc
  have htop := hlive ⟨s.sp.val - 1, by omega⟩ (by change s.sp.val - 1 < s.sp.val; omega)
  exact ⟨le_trans htop.2 (by decide), fun k hk => hlive k (lt_of_lt_of_le hk (Nat.sub_le _ _))⟩

/-- A call pushes `PC`, an address after a call, and jumps to at most 0xFFF (R102). -/
theorem pushPc_controlOk {s : State} {nnn : BitVec 12} (hp : s.sp.val < 16)
    (h' : s.sp.val + 1 < 17) (hlo : 2 ≤ s.pc.toNat) (hhi : s.pc.toNat ≤ 0x1000) (hc : s.controlOk) :
    State.controlOk { s with pc := addr12 nnn, stack := s.stack.set s.sp.val s.pc,
                             sp := ⟨s.sp.val + 1, h'⟩ } := by
  have hnnn := nnn.isLt
  refine ⟨by rw [addr12_toNat]; omega, fun k hk => ?_⟩
  dsimp only at hk ⊢
  by_cases hks : s.sp.val = k.val
  · rw [Vector.getElem_set, if_pos hks]
    exact ⟨hlo, hhi⟩
  · rw [Vector.getElem_set, if_neg hks]
    exact hc.2 k (by omega)

/-- An instruction that is no transfer leaves `PC`, the stack and its depth (R25, R26). -/
theorem exec_control_of_not_transfers {i : Instr} {s t : State} (hi : i.transfers = false)
    (h : exec i s = .next t) : t.pc = s.pc ∧ t.stack = s.stack ∧ t.sp = s.sp := by
  obtain ⟨_, _, hstack, _⟩ := eachStateHasItsOwnWriters i s t h
  have hstay : t.stack = s.stack ∧ t.sp = s.sp := by
    by_contra hne
    obtain rfl | ⟨nnn, rfl⟩ := hstack (not_and_or.1 hne) <;> cases hi
  refine ⟨?_, hstay⟩
  by_contra hpc
  exact Bool.false_ne_true (hi.symm.trans (onlyTransfersMovePc i s t h hpc))

/-- No instruction leads `PC` past 0x10FE or leaves a live stack entry that is no address after a
call, when it starts with `PC` just past a word of memory (R25, R100). -/
theorem exec_controlOk {i : Instr} {s t : State} (h : exec i s = .next t) (hlo : 2 ≤ s.pc.toNat)
    (hhi : s.pc.toNat ≤ 0x1000) (hc : s.controlOk) : t.controlOk := by
  cases i with
  | ret =>
    obtain ⟨hp, h', rfl⟩ | ⟨f, rfl⟩ := execRet_of_next h
    · exact popIntoPc_controlOk hp h' hc
    · exact hc
  | call nnn =>
    obtain ⟨hp, h', rfl⟩ | ⟨f, rfl⟩ := execCall_of_next h
    · exact pushPc_controlOk hp h' hlo hhi hc
    · exact hc
  | jp nnn =>
    obtain rfl := Host.Outcome.next.inj h
    have hnnn := nnn.isLt
    exact hc.of_pc (by rw [State.setPc_pc, addr12_toNat]; omega) rfl rfl
  | jpV0 nnn =>
    obtain rfl := Host.Outcome.next.inj h
    have hnnn := nnn.isLt
    have hv := (s.getV 0).isLt
    exact hc.of_pc (by rw [State.setPc_pc, State.offsetTarget_toNat]; omega) rfl rfl
  | seImm x nn | sneImm x nn | seReg x y | sneReg x y =>
    obtain rfl | rfl := skipIf_of_next h
    · exact hc
    · exact skipNext_controlOk hhi hc
  | skp x | sknp x =>
    obtain rfl | rfl | ⟨f, rfl⟩ := skipIfKey_of_next h
    · exact hc
    · exact skipNext_controlOk hhi hc
    · exact hc
  | ldVxK x =>
    obtain ⟨b, rfl⟩ | rfl := execLdVxK_of_next h
    · exact hc
    · refine hc.of_pc ?_ rfl rfl
      have hle : (2 : Word) ≤ s.pc := BitVec.le_def.2 hlo
      rw [State.rewind_pc, BitVec.toNat_sub_of_le hle]
      exact le_trans (Nat.sub_le _ _) hc.1
  | _ =>
    obtain ⟨hpc, hstack, hsp⟩ := exec_control_of_not_transfers rfl h
    exact hc.of_pc (hpc ▸ hc.1) hstack hsp

/-! ### Memory -/

/-- Every instruction keeps memory canonical: it writes none, or bytes through `writeBytes` (R58). -/
theorem exec_wf {i : Instr} {s t : State} (h : exec i s = .next t)
    (hm : Memory.wf s.params s.mem = true) : Memory.wf t.params t.mem = true := by
  obtain ht | ⟨f, rfl⟩ := exec_writes h
  · cases i with
    | ldB x =>
      obtain rfl | ⟨f, rfl⟩ := execLdB_of_next h
      · exact Memory.wf_writeBytes hm
      · exact hm
    | ldMemVx x =>
      obtain rfl | ⟨f, rfl⟩ := execLdMemVx_of_next h
      · exact Memory.wf_writeBytes hm
      · exact hm
    | _ =>
      rw [ht]
      exact hm
  · exact hm

/-! ### The instruction cycle -/

/-- The invariant inside an Advance call on a running core, where the accumulators may have reached
their periods (R176). -/
structure State.MidCall (s : State) : Prop where
  wf : Memory.wf s.params s.mem = true
  legal : s.params.legal = true
  iacc : 0 ≤ s.iacc
  tacc : 0 ≤ s.tacc
  control : s.controlOk
  running : s.halt = false

theorem State.MidCall.iperiod_pos {s : State} (h : s.MidCall) : 0 < s.params.iperiod :=
  ((legal_iff _).1 h.legal).2.2

theorem instructionCycle_wf {s t : State} (h : instructionCycle s = .next t)
    (hm : Memory.wf s.params s.mem = true) : Memory.wf t.params t.mem = true := by
  obtain ⟨i, _, _, e⟩ | ⟨_, _, _, e⟩ | ⟨_, e⟩ := instructionCycle_cases s <;> rw [e] at h
  · exact exec_wf h hm
  · obtain rfl := Host.Outcome.next.inj h
    exact hm
  · obtain rfl := Host.Outcome.next.inj h
    exact hm

/-- A word is fetched at 0xFFE at most, so its instruction starts with `PC` in 0x002 to 0x1000; a
fetch outside memory leaves `PC` (R57, R170). -/
theorem instructionCycle_controlOk {s t : State} (h : instructionCycle s = .next t)
    (hc : s.controlOk) : t.controlOk := by
  obtain ⟨i, hpc, _, e⟩ | ⟨_, hpc, _, e⟩ | ⟨_, e⟩ := instructionCycle_cases s <;> rw [e] at h
  · have hpc' : (s.setPc (s.pc + 2)).pc.toNat = s.pc.toNat + 2 := toNat_add_two (by omega)
    exact exec_controlOk h (by omega) (by omega)
      (hc.of_pc (by omega) rfl rfl)
  · obtain rfl := Host.Outcome.next.inj h
    exact hc.of_pc (by rw [toNat_add_two (by omega)]; omega) rfl rfl
  · obtain rfl := Host.Outcome.next.inj h
    exact hc

theorem instructionCycle_midCall {s t : State} (h : instructionCycle s = .next t)
    (hs : s.MidCall) : t.MidCall := by
  obtain ⟨t', ht', hiacc, htacc, hhalt, _, hparams, _⟩ := instructionCycle_next s
  obtain rfl := Host.Outcome.next.inj (h.symm.trans ht')
  exact ⟨instructionCycle_wf h hs.wf, hparams ▸ hs.legal, hiacc ▸ hs.iacc, htacc ▸ hs.tacc,
    instructionCycle_controlOk h hs.control, hhalt ▸ hs.running⟩

/-! ### The rest of an Advance call -/

/-- A recorded fault leaves `FAULTS` nonzero (R36). -/
theorem recordFault_ne_zero (faults : BitVec 6) (f : Fault) :
    faults ||| (1#6 <<< (f.code - 1)) ≠ 0 := by
  intro h0
  have hcode : 1 ≤ f.code ∧ f.code ≤ 6 := by cases f <;> simp [Fault.code]
  have hbit := recordFault_getLsbD faults f (k := f.code - 1) (by omega)
  rw [h0, decide_eq_true (by omega : f.code - 1 + 1 = f.code), Bool.or_true] at hbit
  simp at hbit

/-- The timer part ends a call in the invariant when the instruction accumulator is below its
period (R35, R176). -/
theorem timerPart_inv {s : State} (hs : s.MidCall) (hi : s.iacc < s.params.iperiod) :
    (timerPart s).Inv := by
  have hhalt : s.halt = true → s.faults ≠ 0 := fun h =>
    absurd (hs.running.symm.trans h) Bool.false_ne_true
  obtain ⟨_, h⟩ | ⟨hlt, h⟩ := timerPart_cases s <;> rw [h]
  · exact ⟨hs.wf, hs.legal, ⟨hs.iacc, usMod_nonneg _ _ tperiod_pos,
      fun _ => ⟨hi, usMod_lt _ _ tperiod_pos⟩⟩, hs.control, hhalt⟩
  · exact ⟨hs.wf, hs.legal, ⟨hs.iacc, hs.tacc, fun _ => ⟨hi, hlt⟩⟩, hs.control, hhalt⟩

/-- Draining takes the instruction accumulator below its period (R175, R176). -/
theorem timerPart_drainIacc_inv {s : State} (hs : s.MidCall) : (timerPart (drainIacc s)).Inv :=
  timerPart_inv (s := drainIacc s)
    ⟨hs.wf, hs.legal, usMod_nonneg _ _ hs.iperiod_pos, hs.tacc, hs.control, hs.running⟩
    (usMod_lt _ _ hs.iperiod_pos)

/-- After the instruction cycle a call either halts, with its fault on record and the accumulators
as they are, or drains them (R176, R198, R199). -/
theorem afterInstruction_inv {s : State} (hs : s.MidCall) : (afterInstruction s).Inv := by
  cases hf : s.fault with
  | none =>
    rw [afterInstruction_none hf hs.running]
    exact timerPart_drainIacc_inv hs
  | some f =>
    cases hh : f.halting s.params.policy with
    | true =>
      rw [afterInstruction_halting hf hh]
      exact ⟨hs.wf, hs.legal, ⟨hs.iacc, hs.tacc, fun h => absurd h.symm Bool.false_ne_true⟩,
        hs.control, fun _ => recordFault_ne_zero _ f⟩
    | false =>
      rw [afterInstruction_recorded hf hh hs.running]
      exact timerPart_drainIacc_inv
        ⟨hs.wf, hs.legal, hs.iacc, hs.tacc, hs.control, hs.running⟩

/-! ### The calls -/

/-- Latching a call that is not negative in time begins it (R176). -/
theorem advanceEntry_midCall {s : State} {e : ℚ} {ks : List Bool} {b : Byte}
    {rest : List DriverCall} (hs : s.Inv) (hh : s.halt = false) (he : 0 ≤ e) :
    (advanceEntry e ks b rest s).MidCall := by
  obtain ⟨hwf, hlegal, ⟨hiacc, htacc, _⟩, hcontrol, _⟩ := hs
  exact ⟨hwf, hlegal, add_nonneg hiacc he, add_nonneg htacc he, hcontrol, hh⟩

theorem advance_inv {s t : State} {e : ℚ} {ks : List Bool} {b : Byte}
    (h : advance e ks b s = .next t) (hs : s.Inv) : t.Inv := by
  obtain ⟨hr, he, hk⟩ := advance_next h
  cases hh : s.halt with
  | true =>
    rw [advance_halted b hr hh he hk] at h
    obtain rfl := Host.Outcome.next.inj h
    exact hs
  | false =>
    have hmid : (advanceEntry e ks b s.inbox s).MidCall := advanceEntry_midCall hs hh he
    rw [advance_running b hr hh he hk] at h
    obtain ⟨hlt, h'⟩ | ⟨_, u, hu, h'⟩ := advanceRunning_cases e ks b s <;>
      obtain rfl := Host.Outcome.next.inj (h'.symm.trans h)
    · exact timerPart_inv hmid hlt
    · exact afterInstruction_inv (instructionCycle_midCall hu hmid)

/-- The reset values have the invariant with any canonical memory and legal parameters (R45). -/
theorem resetValues_inv {p : Params} {m : Memory} (inbox : List DriverCall) (calls : Nat)
    (hm : Memory.wf p m = true) (hp : p.legal = true) :
    State.Inv { State.reset with params := p, mem := m, inbox := inbox, calls := calls } :=
  ⟨hm, hp, ⟨le_rfl, le_rfl, fun _ => ⟨((legal_iff p).1 hp).2.2, tperiod_pos⟩⟩,
    ⟨(by decide : (0x200 : Word).toNat ≤ 0x10FE), fun k hk => absurd hk (Nat.not_lt_zero k.val)⟩,
    fun h => absurd h Bool.false_ne_true⟩

/-- The state a Reset with a ROM that fits leaves (R45, R220). -/
theorem resetCore_of_le {rom : List Byte} (p : Params) (s : State) (h : rom.length ≤ 3584) :
    resetCore rom p s = { State.reset with
      params := p, mem := Memory.ofBytes p 0x200 rom, inbox := s.inbox, calls := s.calls } := by
  rw [resetCore, if_neg (by rw [romMax]; omega), progBase]

/-- A ROM that is too long is reported and changes nothing else of the core but its readiness
(R222). -/
theorem resetCore_of_gt {rom : List Byte} (p : Params) (s : State) (h : 3584 < rom.length) :
    resetCore rom p s = { s with
      fault := some (.romTooLarge rom.length), frameReady := false, ready := false } := by
  rw [resetCore, if_pos (by rw [romMax]; omega)]

/-- Reset keeps the invariant: a ROM that is too long changes nothing it speaks of, and any other
fits in memory from 0x200 on (R220, R222). -/
theorem resetCore_inv {s : State} {rom : List Byte} {p : Params} (hs : s.Inv)
    (hp : p.legal = true) : (resetCore rom p s).Inv := by
  by_cases h : rom.length ≤ 3584
  · rw [resetCore_of_le p s h]
    exact resetValues_inv s.inbox s.calls (Memory.wf_ofBytes (by rw [memSize]; omega)) hp
  · rw [resetCore_of_gt p s (by omega)]
    exact hs

/-- Settles O58: the state of R45 with the memory of an empty ROM and the default parameters. -/
theorem invariantHoldsAtReset : Obligations.InvariantHoldsAtReset :=
  resetValues_inv [] 0 (Memory.wf_nil _)
    ((legal_iff _).2 ⟨by decide, by decide, by rw [Config.defaultParams, Rat.mkRat_eq_div]; norm_num⟩)

/-- Settles O59, by the driver's next call: none placed, an Advance or a Reset. Taking the call
changes no field that the invariant speaks of. -/
theorem everyStepKeepsTheInvariant : Obligations.EveryStepKeepsTheInvariant := by
  intro s t hs h
  match hin : s.inbox with
  | [] =>
    obtain ⟨e, ks, b, _, _, hstep⟩ := step_free hin
    rw [hstep] at h
    exact advance_inv h hs
  | .advance e ks b :: rest =>
    rw [step_advance hin] at h
    exact advance_inv h hs
  | .reset rom p :: rest =>
    rw [step_reset hin] at h
    split at h
    · next hp =>
      obtain rfl := Host.Outcome.next.inj h
      exact resetCore_inv hs hp
    · cases h

end Sys2Proof.Machine
end

section
/-! The call stack as such (10_state.md R26 to R28), and the state after Reset (R45; 20_memory.md
R51; 70_reset_and_hazards.md R220). -/

namespace Sys2Proof.Machine

/-! ### Push and pop -/

/-- A push below depth 16 stores at the depth, raises it, and a pop gives both back (R27, R28). -/
theorem push_of_lt {s : State} (addr : Word) (h : s.sp.val < 16) : ∃ t, s.push addr = some t ∧
    t = { s with stack := s.stack.set s.sp.val addr, sp := t.sp } ∧ t.sp.val = s.sp.val + 1 ∧
    ∃ u, t.pop = some (addr, u) ∧ u.sp = s.sp := by
  obtain ⟨h16, _⟩ | ⟨_, h', e⟩ := s.push_cases addr
  · omega
  · refine ⟨_, e, rfl, rfl, { s with stack := s.stack.set s.sp.val addr }, ?_, rfl⟩
    simp [State.pop]

theorem push_full {s : State} (addr : Word) (h : s.sp.val = 16) : s.push addr = none := by
  obtain ⟨_, e⟩ | ⟨_, _, _⟩ := s.push_cases addr
  · exact e
  · omega

theorem pop_of_pos {s : State} (h : 0 < s.sp.val) :
    ∃ t, s.pop = some (s.stack[s.sp.val - 1], t) ∧ t = { s with sp := t.sp } ∧
      t.sp.val = s.sp.val - 1 := by
  obtain ⟨_, _⟩ | ⟨_, _, e⟩ := s.pop_cases
  · omega
  · exact ⟨_, e, rfl, rfl⟩

theorem pop_empty {s : State} (h : s.sp.val = 0) : s.pop = none := by
  obtain ⟨_, e⟩ | ⟨_, _, _⟩ := s.pop_cases
  · exact e
  · omega

/-- A call at depth 16 raises StackOverflow and writes nothing (R192). -/
theorem exec_call_full {s : State} (nnn : BitVec 12) (h : s.sp.val = 16) :
    exec (.call nnn) s = .next { s with fault := some (.stackOverflow (s.pc - 2)) } := by
  simp only [exec, execCall, push_full s.pc h]
  rfl

/-- A return at depth 0 raises StackUnderflow and writes nothing (R193). -/
theorem exec_ret_empty {s : State} (h : s.sp.val = 0) :
    exec .ret s = .next { s with fault := some (.stackUnderflow (s.pc - 2)) } := by
  simp only [exec, execRet, pop_empty h]
  rfl

/-- Pushes in a row succeed exactly when the stack has room for all of them (R27). -/
theorem pushTimes_iff (addr : Word) (n : Nat) (s : State) :
    (∃ t, pushTimes addr n s = some t ∧ t.sp.val = s.sp.val + n) ↔ s.sp.val + n ≤ 16 := by
  induction n generalizing s with
  | zero =>
    have := s.sp.isLt
    exact ⟨fun _ => by omega, fun _ => ⟨s, rfl, rfl⟩⟩
  | succ n ih =>
    by_cases h : s.sp.val < 16
    · obtain ⟨u, hu, _, hsp, _⟩ := push_of_lt addr h
      have hroom := ih u
      rw [hsp, Nat.add_assoc, Nat.add_comm 1 n] at hroom
      simpa only [pushTimes, hu] using hroom
    · have hfull : s.push addr = none := push_full addr (by have := s.sp.isLt; omega)
      simp only [pushTimes, hfull]
      exact ⟨fun ⟨_, hnone, _⟩ => (nomatch hnone), fun hle => by omega⟩

/-- Settles O39: each clause is what `push_cases` and `pop_cases` say at that depth. -/
theorem pushAndPopAreAStack : Obligations.PushAndPopAreAStack :=
  ⟨fun _ addr h => push_of_lt addr h,
    fun _ addr h => ⟨push_full addr h, fun nnn => exec_call_full nnn h⟩,
    fun _ h => pop_of_pos h,
    fun _ h => ⟨pop_empty h, exec_ret_empty h⟩,
    fun s addr n h => by simpa only [h, Nat.zero_add] using pushTimes_iff addr n s⟩

/-! ### Reset -/

/-- The initial image holds the font at `FONT_BASE` (R51). -/
theorem initialByte_font (p : Params) {k : Nat} (hk : k < 80) :
    initialByte p (p.fontBase + k) = p.font.getD k 0 := by
  rw [initialByte, fontBytes, if_pos ⟨by omega, by omega⟩, Nat.add_sub_cancel_left]

/-- The initial image is 0 outside the font (R51). -/
theorem initialByte_outside {p : Params} {a : Nat} (ha : a < p.fontBase ∨ p.fontBase + 80 ≤ a) :
    initialByte p a = 0 := by
  rw [initialByte, fontBytes, if_neg (by omega)]

/-- A placed Reset with legal parameters and a ROM that fits leaves the state of R45. -/
theorem step_reset_of_le {s : State} {rom : List Byte} {p : Params} {rest : List DriverCall}
    (hin : s.inbox = .reset rom p :: rest) (hp : p.legal = true) (h : rom.length ≤ 3584) :
    step s = .next { State.reset with
      params := p, mem := Memory.ofBytes p 0x200 rom, inbox := rest, calls := s.calls } := by
  rw [step_reset hin, if_pos hp, resetCore_of_le p _ h]

theorem reset_getV (r : Reg) : State.reset.getV r = 0 := by
  rw [State.getV, State.reset, Vector.getElem_replicate]

theorem reset_pixel (y x : Nat) : State.reset.pixel y x = false := by
  rw [State.pixel]
  split
  · rw [State.reset, Vector.getElem_replicate]
    exact BitVec.getLsbD_zero
  · rfl

/-- Settles O55: memory holds the ROM over the initial image, which holds the font below 0x200 and 0
elsewhere; every other field is one of `State.reset`. -/
theorem resetLeavesTheStateOfR45 : Obligations.ResetLeavesTheStateOfR45 := by
  intro s rom p rest hin hbase hfont hperiod hrom
  have hp : p.legal = true := (legal_iff p).2 ⟨hbase, hfont, hperiod⟩
  refine ⟨_, step_reset_of_le hin hp hrom, fun k hk => ?font,
    fun k hk => Memory.read_ofBytes_inside hk, fun a ha hout => ?low, fun a ha => ?high,
    reset_getV, rfl, rfl, rfl, reset_pixel, rfl, rfl, rfl, rfl, rfl, rfl, rfl, rfl, rfl, rfl, rfl⟩
  case font => exact (Memory.read_ofBytes_outside (by omega)).trans (initialByte_font p hk)
  case low => exact (Memory.read_ofBytes_outside (by omega)).trans (initialByte_outside hout)
  case high =>
    exact (Memory.read_ofBytes_outside (by omega)).trans (initialByte_outside (p := p) (by omega))

end Sys2Proof.Machine
end

section
/-! Memory as a program sees it: a byte written reads back, stored code is what is fetched, and
nothing is fetched outside memory (20_memory.md R53, R54, R57, R64). -/

namespace Sys2Proof.Machine

/-- A single byte written in range reads back (R53). -/
theorem State.readByte_writeByte_same {s : State} {a : Nat} (w : Byte)
    (h : Memory.wf s.params s.mem = true) (ha : a < 4096) :
    (s.writeBytes a [w]).readByte a = w :=
  State.readByte_writeBytes (k := 0) h (by rw [List.length_singleton]; omega) Nat.one_pos

/-- A single byte written leaves every other address as it was (R53). -/
theorem State.readByte_writeByte_ne {s : State} {a b : Nat} (w : Byte)
    (h : Memory.wf s.params s.mem = true) (hb : b ≠ a) :
    (s.writeBytes a [w]).readByte b = s.readByte b :=
  sameMemoryOutside_writeBytes h b (by rw [List.length_singleton]; omega)

/-- Settles O40: the read-back rule of `writeBytes` and its frame, for a block of one byte. -/
theorem memoryReadsTheLastWrite : Obligations.MemoryReadsTheLastWrite :=
  fun _ _ _ w h ha => ⟨State.readByte_writeByte_same w h ha, State.readByte_writeByte_ne w h, rfl⟩

/-- Two bytes stored at `PC` are the bytes fetched there (R64). -/
theorem fetch_writeBytes_pc {s : State} (hi lo : Byte) (h : Memory.wf s.params s.mem = true)
    (hpc : s.pc.toNat ≤ 0xFFE) : fetch (s.writeBytes s.pc.toNat [hi, lo]) = some [hi, lo] := by
  have hin : s.pc.toNat + [hi, lo].length ≤ 4096 := by
    simp only [List.length_cons, List.length_nil]
    omega
  have hhi : (s.writeBytes s.pc.toNat [hi, lo]).readByte s.pc.toNat = hi :=
    State.readByte_writeBytes (k := 0) h hin Nat.two_pos
  have hlo : (s.writeBytes s.pc.toNat [hi, lo]).readByte (s.pc.toNat + 1) = lo :=
    State.readByte_writeBytes (k := 1) h hin Nat.one_lt_two
  rw [fetch_in (s := s.writeBytes s.pc.toNat [hi, lo]) hpc, State.writeBytes_pc, hhi, hlo]

/-- The word of two bytes is big-endian (R54). -/
theorem wordOfBytes_toNat (hi lo : Byte) :
    (wordOfBytes hi lo).toNat = hi.toNat * 256 + lo.toNat :=
  toNat_append_add hi lo

/-- Settles O41: the fetch reads back the stored bytes, and `wordOfBytes` puts the first one high. -/
theorem storesAreSeenByTheNextFetch : Obligations.StoresAreSeenByTheNextFetch :=
  fun _ hi lo h hpc => ⟨fetch_writeBytes_pc hi lo h hpc, wordOfBytes_toNat hi lo⟩

/-- Settles O44: this is the branch of the instruction cycle with nothing fetched. -/
theorem fetchOutsideMemoryFaults : Obligations.FetchOutsideMemoryFaults :=
  fun _ h => instructionCycle_out h

end Sys2Proof.Machine
end

section
/-! The decoder, the encoder and the opcode table against one another (30_encoding.md R81 to R87): a
word that selects a row decodes to the row's instruction, and a word that decodes is the canonical
word of its instruction but for the ignored nibble. -/

namespace Sys2Proof

/-- The instruction of `i`'s row with its operands read from `w` (R81, R82). -/
def Instr.withFieldsOf (i : Instr) (w : Word) : Instr :=
  match i with
  | .cls => .cls
  | .ret => .ret
  | .jp _ => .jp (fieldNNN w)
  | .call _ => .call (fieldNNN w)
  | .seImm _ _ => .seImm (fieldX w) (fieldNN w)
  | .sneImm _ _ => .sneImm (fieldX w) (fieldNN w)
  | .seReg _ _ => .seReg (fieldX w) (fieldY w)
  | .ldImm _ _ => .ldImm (fieldX w) (fieldNN w)
  | .addImm _ _ => .addImm (fieldX w) (fieldNN w)
  | .ldReg _ _ => .ldReg (fieldX w) (fieldY w)
  | .orReg _ _ => .orReg (fieldX w) (fieldY w)
  | .andReg _ _ => .andReg (fieldX w) (fieldY w)
  | .xorReg _ _ => .xorReg (fieldX w) (fieldY w)
  | .addReg _ _ => .addReg (fieldX w) (fieldY w)
  | .sub _ _ => .sub (fieldX w) (fieldY w)
  | .shr _ => .shr (fieldX w)
  | .subn _ _ => .subn (fieldX w) (fieldY w)
  | .shl _ => .shl (fieldX w)
  | .sneReg _ _ => .sneReg (fieldX w) (fieldY w)
  | .ldI _ => .ldI (fieldNNN w)
  | .jpV0 _ => .jpV0 (fieldNNN w)
  | .rnd _ _ => .rnd (fieldX w) (fieldNN w)
  | .drw _ _ _ => .drw (fieldX w) (fieldY w) (fieldN w)
  | .skp _ => .skp (fieldX w)
  | .sknp _ => .sknp (fieldX w)
  | .ldVxDT _ => .ldVxDT (fieldX w)
  | .ldDTVx _ => .ldDTVx (fieldX w)
  | .ldSTVx _ => .ldSTVx (fieldX w)
  | .ldVxK _ => .ldVxK (fieldX w)
  | .addI _ => .addI (fieldX w)
  | .ldF _ => .ldF (fieldX w)
  | .ldB _ => .ldB (fieldX w)
  | .ldMemVx _ => .ldMemVx (fieldX w)
  | .ldVxMem _ => .ldVxMem (fieldX w)

@[simp] theorem Instr.row_withFieldsOf (i : Instr) (w : Word) : (i.withFieldsOf w).row = i.row := by
  cases i <;> rfl

@[simp] theorem Instr.ignoredBits_withFieldsOf (i : Instr) (w : Word) :
    (i.withFieldsOf w).ignoredBits = i.ignoredBits := by
  cases i <;> rfl

/-- No operand is lost in the canonical word (R81). -/
@[simp] theorem Instr.withFieldsOf_encodeWord (i : Instr) : i.withFieldsOf (encodeWord i) = i := by
  cases i <;> simp [Instr.withFieldsOf, encodeWord]

/-- A row's mask tests no ignored bit (R85, R86). -/
theorem Instr.not_ignoredBits_and_mask (i : Instr) :
    ~~~i.ignoredBits &&& i.row.mask = i.row.mask := by
  cases i <;> simp only [Instr.ignoredBits, Instr.row] <;> decide

/-- The encoding clauses of the 34 rules as one (R84, R86). -/
theorem decodesBy_row (i : Instr) : DecodesBy i.row.mask i.row.pattern i.withFieldsOf := by
  cases i with
  | cls => exact decodesBy_cls
  | ret => exact decodesBy_ret
  | jp => exact decodesBy_jp
  | call => exact decodesBy_call
  | seImm => exact decodesBy_seImm
  | sneImm => exact decodesBy_sneImm
  | seReg => exact decodesBy_seReg
  | ldImm => exact decodesBy_ldImm
  | addImm => exact decodesBy_addImm
  | ldReg => exact decodesBy_ldReg
  | orReg => exact decodesBy_orReg
  | andReg => exact decodesBy_andReg
  | xorReg => exact decodesBy_xorReg
  | addReg => exact decodesBy_addReg
  | sub => exact decodesBy_sub
  | shr => exact decodesBy_shr
  | subn => exact decodesBy_subn
  | shl => exact decodesBy_shl
  | sneReg => exact decodesBy_sneReg
  | ldI => exact decodesBy_ldI
  | jpV0 => exact decodesBy_jpV0
  | rnd => exact decodesBy_rnd
  | drw => exact decodesBy_drw
  | skp => exact decodesBy_skp
  | sknp => exact decodesBy_sknp
  | ldVxDT => exact decodesBy_ldVxDT
  | ldDTVx => exact decodesBy_ldDTVx
  | ldSTVx => exact decodesBy_ldSTVx
  | ldVxK => exact decodesBy_ldVxK
  | addI => exact decodesBy_addI
  | ldF => exact decodesBy_ldF
  | ldB => exact decodesBy_ldB
  | ldMemVx => exact decodesBy_ldMemVx
  | ldVxMem => exact decodesBy_ldVxMem

theorem OpcodeRow.selects_iff {r : OpcodeRow} {w : Word} :
    r.selects w = true ↔ w &&& r.mask = r.pattern :=
  beq_iff_eq

/-- A word that selects a row decodes to the row's instruction with the word's operands (R84). -/
theorem decodeWord_of_selects {i : Instr} {w : Word} (h : i.row.selects w = true) :
    decodeWord w = .ok (i.withFieldsOf w) :=
  decodesBy_row i w (OpcodeRow.selects_iff.mp h)

/-- Settles O7, by the lemma of `Laws.RowSelect` for each constructor. -/
theorem encodedWordsSelectTheirRow : Obligations.EncodedWordsSelectTheirRow := by
  intro i
  cases i with
  | cls => exact Laws.RowSelect.cls
  | ret => exact Laws.RowSelect.ret
  | jp nnn => exact Laws.RowSelect.jp nnn
  | call nnn => exact Laws.RowSelect.call nnn
  | seImm x nn => exact Laws.RowSelect.seImm x nn
  | sneImm x nn => exact Laws.RowSelect.sneImm x nn
  | seReg x y => exact Laws.RowSelect.seReg x y
  | ldImm x nn => exact Laws.RowSelect.ldImm x nn
  | addImm x nn => exact Laws.RowSelect.addImm x nn
  | ldReg x y => exact Laws.RowSelect.ldReg x y
  | orReg x y => exact Laws.RowSelect.orReg x y
  | andReg x y => exact Laws.RowSelect.andReg x y
  | xorReg x y => exact Laws.RowSelect.xorReg x y
  | addReg x y => exact Laws.RowSelect.addReg x y
  | sub x y => exact Laws.RowSelect.sub x y
  | shr x => exact Laws.RowSelect.shr x
  | subn x y => exact Laws.RowSelect.subn x y
  | shl x => exact Laws.RowSelect.shl x
  | sneReg x y => exact Laws.RowSelect.sneReg x y
  | ldI nnn => exact Laws.RowSelect.ldI nnn
  | jpV0 nnn => exact Laws.RowSelect.jpV0 nnn
  | rnd x nn => exact Laws.RowSelect.rnd x nn
  | drw x y n => exact Laws.RowSelect.drw x y n
  | skp x => exact Laws.RowSelect.skp x
  | sknp x => exact Laws.RowSelect.sknp x
  | ldVxDT x => exact Laws.RowSelect.ldVxDT x
  | ldDTVx x => exact Laws.RowSelect.ldDTVx x
  | ldSTVx x => exact Laws.RowSelect.ldSTVx x
  | ldVxK x => exact Laws.RowSelect.ldVxK x
  | addI x => exact Laws.RowSelect.addI x
  | ldF x => exact Laws.RowSelect.ldF x
  | ldB x => exact Laws.RowSelect.ldB x
  | ldMemVx x => exact Laws.RowSelect.ldMemVx x
  | ldVxMem x => exact Laws.RowSelect.ldVxMem x

theorem selects_encodeWord (i : Instr) : i.row.selects (encodeWord i) = true :=
  (encodedWordsSelectTheirRow i).1

/-- The canonical word selects its row, and the operands read back from it are its own. -/
theorem decodeWord_encodeWord (i : Instr) : decodeWord (encodeWord i) = .ok i := by
  rw [decodeWord_of_selects (selects_encodeWord i), i.withFieldsOf_encodeWord]

theorem encodeWord_injective : Function.Injective encodeWord := fun i j h =>
  Except.ok.inj ((decodeWord_encodeWord i).symm.trans (h ▸ decodeWord_encodeWord j))

/-- Settles O2: the bytes of the canonical word are read back as that word, and it decodes to the
instruction. -/
theorem decodeOfEncodeIsTheInstruction : Obligations.DecodeOfEncodeIsTheInstruction := by
  intro i rest
  rw [encode, decode_bytesOfWord, decodeWord_encodeWord]

/-! A word is put together from its fields (R81), with each ignored nibble at zero (R85). -/

/-- A word is the canonical word of `i` but for the nibble `i` ignores (R85). -/
def Instr.MatchesUpToIgnored (i : Instr) (w : Word) : Prop :=
  w &&& ~~~i.ignoredBits = encodeWord i

theorem encodeA_fields (w : Word) : encodeA (fieldC w) (fieldNNN w) = w := by
  apply BitVec.eq_of_toNat_eq
  rw [encodeA_toNat, fieldC_toNat, fieldNNN_toNat]
  omega

theorem encodeRI_fields (w : Word) : encodeRI (fieldC w) (fieldX w) (fieldNN w) = w := by
  apply BitVec.eq_of_toNat_eq
  rw [encodeRI_toNat, fieldC_toNat, fieldX_val, fieldNN_toNat]
  omega

theorem encodeRR_fields (w : Word) :
    encodeRR (fieldC w) (fieldX w) (fieldY w) (fieldN w) = w := by
  apply BitVec.eq_of_toNat_eq
  rw [encodeRR_toNat, fieldC_toNat, fieldX_val, fieldY_val, fieldN_toNat]
  omega

/-- Masking a word of format `RR` with everything but `N`. -/
theorem encodeRR_and_not_N (c : BitVec 4) (x y : Reg) (n : BitVec 4) :
    encodeRR c x y n &&& ~~~0x000F = encodeRR c x y 0 := by
  show (c ++ (BitVec.ofFin x : BitVec 4) ++ (BitVec.ofFin y : BitVec 4) ++ n :
      BitVec (4 + 4 + 4 + 4)) &&&
    (BitVec.allOnes 4 ++ BitVec.allOnes 4 ++ BitVec.allOnes 4 ++ 0#4 : BitVec (4 + 4 + 4 + 4)) = _
  simp only [append_and, BitVec.and_allOnes, BitVec.and_zero]
  rfl

/-- Masking a word of format `RR` with everything but `Y`. -/
theorem encodeRR_and_not_Y (c : BitVec 4) (x y : Reg) (n : BitVec 4) :
    encodeRR c x y n &&& ~~~0x00F0 = encodeRR c x 0 n := by
  show (c ++ (BitVec.ofFin x : BitVec 4) ++ (BitVec.ofFin y : BitVec 4) ++ n :
      BitVec (4 + 4 + 4 + 4)) &&&
    (BitVec.allOnes 4 ++ BitVec.allOnes 4 ++ 0#4 ++ BitVec.allOnes 4 : BitVec (4 + 4 + 4 + 4)) = _
  simp only [append_and, BitVec.and_allOnes, BitVec.and_zero]
  rfl

/-- Masking a word of format `RI` with everything but `X`. -/
theorem encodeRI_and_not_X (c : BitVec 4) (x : Reg) (nn : Byte) :
    encodeRI c x nn &&& ~~~0x0F00 = encodeRI c 0 nn :=
  (encodeRI_and c 0xF x nn 0xFF).trans
    (congrArg₂ (encodeRI · 0 ·) BitVec.and_allOnes BitVec.and_allOnes)

section
/-! What the decoder has tested, as a word of the encoder. -/

variable {w : Word} {c n : BitVec 4} {nn : Byte}

theorem eq_encodeA (hc : (fieldC w).toNat = c.toNat) : w &&& ~~~0 = encodeA c (fieldNNN w) := by
  rw [← BitVec.eq_of_toNat_eq hc, encodeA_fields]
  exact BitVec.and_allOnes

theorem eq_encodeRI (hc : (fieldC w).toNat = c.toNat) (hn : (fieldNN w).toNat = nn.toNat) :
    w &&& ~~~0 = encodeRI c (fieldX w) nn := by
  rw [← BitVec.eq_of_toNat_eq hc, ← BitVec.eq_of_toNat_eq hn, encodeRI_fields]
  exact BitVec.and_allOnes

theorem eq_encodeRI_but_X (hc : (fieldC w).toNat = c.toNat) (hn : (fieldNN w).toNat = nn.toNat) :
    w &&& ~~~0x0F00 = encodeRI c 0 nn := by
  rw [← BitVec.eq_of_toNat_eq hc, ← BitVec.eq_of_toNat_eq hn, ← encodeRI_and_not_X _ (fieldX w),
    encodeRI_fields]

theorem eq_encodeRR (hc : (fieldC w).toNat = c.toNat) (hn : (fieldN w).toNat = n.toNat) :
    w &&& ~~~0 = encodeRR c (fieldX w) (fieldY w) n := by
  rw [← BitVec.eq_of_toNat_eq hc, ← BitVec.eq_of_toNat_eq hn, encodeRR_fields]
  exact BitVec.and_allOnes

theorem eq_encodeRR_but_Y (hc : (fieldC w).toNat = c.toNat) (hn : (fieldN w).toNat = n.toNat) :
    w &&& ~~~0x00F0 = encodeRR c (fieldX w) 0 n := by
  rw [← BitVec.eq_of_toNat_eq hc, ← BitVec.eq_of_toNat_eq hn, ← encodeRR_and_not_Y _ _ (fieldY w),
    encodeRR_fields]

theorem eq_encodeRR_but_N (hc : (fieldC w).toNat = c.toNat) :
    w &&& ~~~0x000F = encodeRR c (fieldX w) (fieldY w) 0 := by
  rw [← BitVec.eq_of_toNat_eq hc, ← encodeRR_and_not_N _ _ _ (fieldN w), encodeRR_fields]

end

section
variable {w : Word} {i : Instr}

theorem matchesUpToIgnored_of_decodeClass0 (hc : (fieldC w).toNat = 0x0)
    (h : decodeClass0 w = .ok i) : i.MatchesUpToIgnored w := by
  unfold decodeClass0 at h
  split at h <;> cases h
  all_goals next hn => exact eq_encodeRI_but_X hc hn

theorem matchesUpToIgnored_of_decodeClass8 (hc : (fieldC w).toNat = 0x8)
    (h : decodeClass8 w = .ok i) : i.MatchesUpToIgnored w := by
  unfold decodeClass8 at h
  split at h <;> cases h
  case h_7.refl hn | h_9.refl hn => exact eq_encodeRR_but_Y hc hn
  all_goals next hn => exact eq_encodeRR hc hn

theorem matchesUpToIgnored_of_decodeClassE (hc : (fieldC w).toNat = 0xE)
    (h : decodeClassE w = .ok i) : i.MatchesUpToIgnored w := by
  unfold decodeClassE at h
  split at h <;> cases h
  all_goals next hn => exact eq_encodeRI hc hn

theorem matchesUpToIgnored_of_decodeClassF (hc : (fieldC w).toNat = 0xF)
    (h : decodeClassF w = .ok i) : i.MatchesUpToIgnored w := by
  unfold decodeClassF at h
  split at h <;> cases h
  all_goals next hn => exact eq_encodeRI hc hn

/-- A word decodes only to an instruction whose canonical word it is but for the ignored nibble, by
the arms of the decoder. -/
theorem matchesUpToIgnored_of_decodeWord (h : decodeWord w = .ok i) : i.MatchesUpToIgnored w := by
  unfold decodeWord at h
  split at h
  next hc => exact matchesUpToIgnored_of_decodeClass0 hc h
  next hc => cases h; exact eq_encodeA hc
  next hc => cases h; exact eq_encodeA hc
  next hc => cases h; exact eq_encodeRI hc rfl
  next hc => cases h; exact eq_encodeRI hc rfl
  next hc => cases h; exact eq_encodeRR_but_N hc
  next hc => cases h; exact eq_encodeRI hc rfl
  next hc => cases h; exact eq_encodeRI hc rfl
  next hc => exact matchesUpToIgnored_of_decodeClass8 hc h
  next hc => cases h; exact eq_encodeRR_but_N hc
  next hc => cases h; exact eq_encodeA hc
  next hc => cases h; exact eq_encodeA hc
  next hc => cases h; exact eq_encodeRI hc rfl
  next hc => cases h; exact eq_encodeRR hc rfl
  next hc => exact matchesUpToIgnored_of_decodeClassE hc h
  next =>
    have := (fieldC w).isLt
    have hc : (fieldC w).toNat = 0xF := by simp only [imp_false] at *; omega
    exact matchesUpToIgnored_of_decodeClassF hc h

/-- The ignored nibble has no say in which row is selected (R85). -/
theorem Instr.MatchesUpToIgnored.selects (h : i.MatchesUpToIgnored w) : i.row.selects w = true := by
  rw [OpcodeRow.selects_iff]
  calc w &&& i.row.mask
      = (w &&& ~~~i.ignoredBits) &&& i.row.mask := by
        rw [BitVec.and_assoc, i.not_ignoredBits_and_mask]
    _ = encodeWord i &&& i.row.mask := by rw [h]
    _ = i.row.pattern := OpcodeRow.selects_iff.mp (selects_encodeWord i)

/-- The selected row gives an instruction that ignores the same nibble as `i`, so its canonical word
is the one of `i`, and it is `i`. -/
theorem Instr.MatchesUpToIgnored.decodes (h : i.MatchesUpToIgnored w) : decodeWord w = .ok i := by
  have hd := decodeWord_of_selects h.selects
  have hw := matchesUpToIgnored_of_decodeWord hd
  rw [Instr.MatchesUpToIgnored, i.ignoredBits_withFieldsOf] at hw
  rw [hd, encodeWord_injective (hw.symm.trans h)]

end

/-- Settles O3: the arms of the decoder one way, the rows of the table the other. -/
theorem ignoredNibblesAreIgnored : Obligations.IgnoredNibblesAreIgnored := fun _ _ =>
  ⟨matchesUpToIgnored_of_decodeWord, Instr.MatchesUpToIgnored.decodes⟩

theorem Instr.row_mem_opcodeTable (i : Instr) : i.row ∈ opcodeTable := by
  cases i <;> exact of_decide_eq_true rfl

/-- The table lists the rows of the instructions and no others (R86). -/
theorem mem_opcodeTable_iff {r : OpcodeRow} : r ∈ opcodeTable ↔ ∃ i : Instr, i.row = r := by
  constructor
  · intro h
    obtain ⟨i, _, hi⟩ := List.mem_map.mp h
    exact ⟨i, hi⟩
  · rintro ⟨i, rfl⟩
    exact i.row_mem_opcodeTable

theorem selects_of_decodeWord {w : Word} {i : Instr} (h : decodeWord w = .ok i) :
    i.row.selects w = true :=
  (matchesUpToIgnored_of_decodeWord h).selects

/-- A word is unmatched exactly when no instruction's row is selected (R87). -/
theorem decodeWord_error_iff_no_row (w : Word) :
    (∃ e, decodeWord w = .error e) ↔ ∀ r ∈ opcodeTable, r.selects w = false := by
  constructor
  · rintro ⟨e, he⟩ r hr
    obtain ⟨i, rfl⟩ := mem_opcodeTable_iff.mp hr
    by_contra hs
    cases he.symm.trans (decodeWord_of_selects (eq_true_of_ne_false hs))
  · intro h
    cases hd : decodeWord w with
    | error e => exact ⟨e, rfl⟩
    | ok i =>
      have hs : i.row.selects w ≠ true := Bool.eq_false_iff.mp (h _ i.row_mem_opcodeTable)
      exact absurd (selects_of_decodeWord hd) hs

/-- Settles O4: the rows of the table are those of the instructions, and a word decodes exactly when
it selects one. -/
theorem decoderAgreesWithOpcodeTable : Obligations.DecoderAgreesWithOpcodeTable :=
  ⟨fun _ i h => ⟨selects_of_decodeWord h, i.row_mem_opcodeTable⟩, decodeWord_error_iff_no_row⟩

/-- The row a word selects is the row of the instruction it decodes to (R84). -/
theorem eq_row_of_selects {w : Word} {r : OpcodeRow} {i : Instr} (hr : r ∈ opcodeTable)
    (hs : r.selects w = true) (hd : decodeWord w = .ok i) : r = i.row := by
  obtain ⟨j, rfl⟩ := mem_opcodeTable_iff.mp hr
  rw [Except.ok.inj (hd.symm.trans (decodeWord_of_selects hs)), j.row_withFieldsOf]

/-- Settles O5: two selected rows are both the row of the one instruction the word decodes to. -/
theorem noWordSelectsTwoRows : Obligations.NoWordSelectsTwoRows := by
  refine ⟨rfl, by decide, fun w r hr r' hr' hs hs' => ?_⟩
  obtain ⟨i, rfl⟩ := mem_opcodeTable_iff.mp hr
  have hd := decodeWord_of_selects hs
  exact (eq_row_of_selects hr hs hd).trans (eq_row_of_selects hr' hs' hd).symm

/-! The unmatched words (R87), class by class. -/

theorem decodeClass0_error_iff (w : Word) :
    (∃ e, decodeClass0 w = .error e) ↔ fieldNN w ∉ [0xE0, 0xEE] := by
  unfold decodeClass0
  split <;> simp_all [BitVec.toNat_eq]

theorem decodeClass8_error_iff (w : Word) : (∃ e, decodeClass8 w = .error e) ↔
    fieldN w ∈ [0x8, 0x9, 0xA, 0xB, 0xC, 0xD, 0xF] := by
  unfold decodeClass8
  split
  case h_10 =>
    have := (fieldN w).isLt
    refine iff_of_true ⟨_, rfl⟩ ?_
    simp only [imp_false, List.mem_cons, BitVec.toNat_eq, BitVec.ofNat_eq_ofNat,
      BitVec.toNat_ofNat] at *
    omega
  all_goals next hn => simp [BitVec.toNat_eq, hn]

theorem decodeClassE_error_iff (w : Word) :
    (∃ e, decodeClassE w = .error e) ↔ fieldNN w ∉ [0x9E, 0xA1] := by
  unfold decodeClassE
  split <;> simp_all [BitVec.toNat_eq]

theorem decodeClassF_error_iff (w : Word) : (∃ e, decodeClassF w = .error e) ↔
    fieldNN w ∉ [0x07, 0x0A, 0x15, 0x18, 0x1E, 0x29, 0x33, 0x55, 0x65] := by
  unfold decodeClassF
  split <;> simp_all [BitVec.toNat_eq]

/-- Only the four classes with a selector leave words unmatched (R84). -/
theorem decodeWord_error_iff (w : Word) : (∃ e, decodeWord w = .error e) ↔
    (fieldC w = 0x0 ∧ ∃ e, decodeClass0 w = .error e) ∨
    (fieldC w = 0x8 ∧ ∃ e, decodeClass8 w = .error e) ∨
    (fieldC w = 0xE ∧ ∃ e, decodeClassE w = .error e) ∨
    (fieldC w = 0xF ∧ ∃ e, decodeClassF w = .error e) := by
  unfold decodeWord
  split
  case h_16 =>
    have := (fieldC w).isLt
    have hc : (fieldC w).toNat = 0xF := by simp only [imp_false] at *; omega
    simp [BitVec.toNat_eq, hc]
  all_goals next hc => simp [BitVec.toNat_eq, hc]

/-- Settles O6, class by class: in each of the four the selector decides. -/
theorem unmatchedWordsAreExactlyTheFourSets : Obligations.UnmatchedWordsAreExactlyTheFourSets := by
  intro w
  rw [decodeWord_error_iff, decodeClass0_error_iff, decodeClass8_error_iff, decodeClassE_error_iff,
    decodeClassF_error_iff]

/-- Settles O1: the decoder computes on closed words. -/
theorem sampleWordsDecodeAsWritten : Obligations.SampleWordsDecodeAsWritten := by
  unfold Obligations.SampleWordsDecodeAsWritten
  decide

end Sys2Proof
end

section
/-! Control transfer (40_flow.md): the state each of the four jumps leads to, and the two stack
faults. -/

namespace Sys2Proof.Machine

/-- The top live entry is an address after a call (R100). -/
theorem State.controlOk.top {s : State} (hc : s.controlOk) (h : 0 < s.sp.val) :
    2 ≤ s.stack[s.sp.val - 1].toNat ∧ s.stack[s.sp.val - 1].toNat ≤ 0x1000 :=
  hc.2 ⟨s.sp.val - 1, by omega⟩ (Nat.sub_lt h Nat.one_pos)

/-- A return at depth 1 to 16 pops into `PC` (R100). -/
theorem exec_ret_of_pos {s : State} (h : 0 < s.sp.val) : exec .ret s =
    .next { s with pc := s.stack[s.sp.val - 1], sp := ⟨s.sp.val - 1, by omega⟩ } := by
  obtain ⟨h0, _⟩ | ⟨_, _, hpop⟩ := s.pop_cases
  · omega
  · simp only [exec, execRet, hpop]
    rfl

/-- A call at depth 0 to 15 pushes `PC`, the address after itself, and jumps (R102). -/
theorem exec_call_of_lt {s : State} (nnn : BitVec 12) (h : s.sp.val < 16) : exec (.call nnn) s =
    .next { s with pc := addr12 nnn, stack := s.stack.set s.sp.val s.pc,
                   sp := ⟨s.sp.val + 1, by omega⟩ } := by
  obtain ⟨h16, _⟩ | ⟨_, _, hpush⟩ := s.push_cases s.pc
  · omega
  · simp only [exec, execCall, hpush]
    rfl

/-- The target of BNNN is at most 0xFFF + 0xFF (R103). -/
theorem State.offsetTarget_le (s : State) (nnn : BitVec 12) :
    (s.offsetTarget nnn).toNat ≤ 0x10FE := by
  have hnnn := nnn.isLt
  have hv := (s.getV 0).isLt
  rw [s.offsetTarget_toNat]
  omega

/-- Settles O8: `pop_cases` decides between the pop and the fault, and `controlOk` bounds the entry
that is popped. -/
theorem retPopsIntoPc : Obligations.RetPopsIntoPc :=
  ⟨decodesBy_ret, fun _ =>
    ⟨fun h => ⟨_, exec_ret_of_pos h, rfl, rfl, fun hc => hc.top h, rfl, .of_eq rfl rfl⟩,
      exec_ret_empty⟩⟩

/-- Settles O10: `push_cases` decides between the jump and the fault. -/
theorem callPushesAndJumps : Obligations.CallPushesAndJumps :=
  ⟨decodesBy_call, fun nnn _ =>
    ⟨fun h => ⟨_, exec_call_of_lt nnn h, addr12_toNat nnn, rfl, rfl, rfl, .of_eq rfl rfl⟩,
      exec_call_full nnn⟩⟩

/-- Settles O9: the target is the zero-extended address. -/
theorem jpSetsPc : Obligations.JpSetsPc :=
  ⟨decodesBy_jp, fun nnn _ => ⟨_, rfl, addr12_toNat nnn, rfl, .of_eq rfl rfl⟩⟩

/-- Settles O11: the sum stays below 0x10000, so it is never reduced. -/
theorem jpV0AddsRegisterZero : Obligations.JpV0AddsRegisterZero :=
  ⟨decodesBy_jpV0, fun nnn s =>
    ⟨_, rfl, s.offsetTarget_toNat nnn, s.offsetTarget_le nnn, rfl, .of_eq rfl rfl⟩⟩

end Sys2Proof.Machine
end

section
/-! Register skips (41_skip.md): the state a skip on a condition leads to. -/

namespace Sys2Proof.Machine

/-- A skip on a test that decides `p` moves `PC` two further exactly when `p` holds (R110 to R113). -/
theorem skipIf_of_iff {c : Bool} {p : Prop} [Decidable p] (h : c = true ↔ p) (s : State) :
    skipIf c s = .next { s with pc := if p then s.pc + 2 else s.pc } := by
  by_cases hp : p
  · rw [h.mpr hp, if_pos hp]
    rfl
  · rw [eq_false_of_ne_true (mt h.mp hp), if_neg hp]
    rfl

/-- Settles O12: the two tests of `skipIf` decide equality and inequality. -/
theorem registerSkipsMovePcOnTheirCondition : Obligations.RegisterSkipsMovePcOnTheirCondition :=
  ⟨decodesBy_seImm, decodesBy_sneImm, decodesBy_seReg, decodesBy_sneReg, fun _ _ _ s =>
    ⟨skipIf_of_iff beq_iff_eq s, skipIf_of_iff bne_iff_ne s,
      skipIf_of_iff beq_iff_eq s, skipIf_of_iff bne_iff_ne s⟩⟩

end Sys2Proof.Machine
end

section
/-! Register load and arithmetic (42_alu.md): an instruction that ends in a register write, without
and with a flag, and the number each arithmetic result is. -/

namespace Sys2Proof.Machine

/-! ### The two ways to write a register -/

/-- A plain register write leaves the rest of the state, VF included, as it was. -/
theorem State.setV_frame (s : State) (x : Reg) (b : Byte) :
    SameVBut [x] s (s.setV x b) ∧ s.setV x b = { s with v := (s.setV x b).v } ∧
      SameMemory s (s.setV x b) :=
  ⟨sameVBut_setV s x b, rfl, .of_eq rfl rfl⟩

/-- An instruction that writes a result and then a flag: `V[X]` holds the result unless X is F, where
the flag has the last word (00_scope.md R12). -/
theorem exec_setVThenFlag {i : Instr} {s : State} {x : Reg} {b f flag : Byte} {n : Nat}
    (h : exec i s = .next (s.setVThenFlag x b f)) (hb : b.toNat = n) (hf : f = flag) :
    ∃ t, exec i s = .next t ∧ (x ≠ vf → (t.getV x).toNat = n) ∧ t.getV vf = flag ∧
      SameVBut [x, vf] s t ∧ t = { s with v := t.v } ∧ SameMemory s t := by
  refine ⟨_, h, fun hx => ?_, ?_, sameVBut_setVThenFlag s x b f, rfl, .of_eq rfl rfl⟩
  · rw [State.getV_setVThenFlag, if_neg hx, if_pos rfl, hb]
  · rw [State.getV_setVThenFlag_vf, hf]

/-! ### The results as numbers -/

/-- The difference of two bytes, modulo 256. -/
theorem toNat_byte_sub (a b : Byte) : (a - b).toNat = (256 + a.toNat - b.toNat) % 256 := by
  have hb := b.isLt
  rw [BitVec.toNat_sub]
  omega

theorem toNat_byte_shiftRight_one (a : Byte) : (a >>> 1).toNat = a.toNat / 2 := by
  rw [BitVec.toNat_ushiftRight, Nat.shiftRight_one]

theorem toNat_byte_shiftLeft_one (a : Byte) : (a <<< 1).toNat = 2 * a.toNat % 256 := by
  rw [BitVec.toNat_shiftLeft, Nat.shiftLeft_eq, pow_one, Nat.mul_comm]

/-! ### The obligations -/

/-- Settles O15: the sum of two bytes wraps at 256, and `carryFlag` tests the sum of the old
values. -/
theorem addRegSumAndCarry : Obligations.AddRegSumAndCarry :=
  ⟨decodesBy_addReg, fun _ _ _ => exec_setVThenFlag rfl (BitVec.toNat_add _ _) (flagByte_decide _)⟩

/-- Settles O16: 8XY7 is 8XY5 with the operands exchanged. -/
theorem subtractDifferenceAndNotBorrow : Obligations.SubtractDifferenceAndNotBorrow :=
  ⟨decodesBy_sub, decodesBy_subn, fun _ _ _ =>
    ⟨exec_setVThenFlag rfl (toNat_byte_sub _ _) (flagByte_decide _),
      exec_setVThenFlag rfl (toNat_byte_sub _ _) (flagByte_decide _)⟩⟩

/-- Settles O17: a shift by one halves or doubles, and the flag is the bit that leaves. -/
theorem shiftsMoveTheBitOutIntoVF : Obligations.ShiftsMoveTheBitOutIntoVF :=
  ⟨decodesBy_shr, decodesBy_shl, fun _ _ =>
    ⟨exec_setVThenFlag rfl (toNat_byte_shiftRight_one _) rfl,
      exec_setVThenFlag rfl (toNat_byte_shiftLeft_one _) rfl⟩⟩

/-- Settles O13: both instructions end in a plain register write. -/
theorem immediateLoadAndAddWriteOnlyVx : Obligations.ImmediateLoadAndAddWriteOnlyVx := by
  refine ⟨decodesBy_ldImm, decodesBy_addImm, fun x nn s =>
    ⟨⟨_, rfl, s.getV_setV_same x nn, s.setV_frame x _⟩, ⟨_, rfl, ?_, s.setV_frame x _⟩⟩⟩
  rw [State.getV_setV_same, BitVec.toNat_add]

/-- Settles O14: the four instructions end in a plain register write, and the library's bitwise
operations are bit by bit. -/
theorem copyAndLogicWriteOnlyVx : Obligations.CopyAndLogicWriteOnlyVx := by
  refine ⟨decodesBy_ldReg, decodesBy_orReg, decodesBy_andReg, decodesBy_xorReg, fun x y s =>
    ⟨⟨_, rfl, s.getV_setV_same x _, s.setV_frame x _⟩,
      ⟨_, rfl, fun k => ?_, s.setV_frame x _⟩,
      ⟨_, rfl, fun k => ?_, s.setV_frame x _⟩,
      ⟨_, rfl, fun k => ?_, s.setV_frame x _⟩⟩⟩
  · rw [State.getV_setV_same, BitVec.getLsbD_or]
  · rw [State.getV_setV_same, BitVec.getLsbD_and]
  · rw [State.getV_setV_same, BitVec.getLsbD_xor]

end Sys2Proof.Machine
end

section
/-! Index register and memory (43_index_memory.md): the state each instruction leads to when its range
lies in memory, and what a program reads back from it. -/

namespace Sys2Proof.Machine

/-! ### The operands as numbers -/

/-- Zero-extension keeps the value of a register (R141). -/
theorem State.getV16_toNat (s : State) (x : Reg) : (s.getV16 x).toNat = (s.getV x).toNat :=
  BitVec.toNat_setWidth_of_le (by decide)

/-- A legal `FONT_BASE` keeps every glyph address below 0x10000 (R8, R142). -/
theorem State.glyphAddr_toNat_of_le {s : State} (b : Byte) (h : s.params.fontBase ≤ 0x1B0) :
    (s.glyphAddr b).toNat = s.params.fontBase + 5 * (b.toNat % 16) := by
  rw [s.glyphAddr_toNat]
  omega

/-- The digits of a decimal store as numbers (R143). -/
theorem decimalDigits_toNat (b : Byte) :
    ((decimalDigits b).getD 0 0).toNat = b.toNat / 100 ∧
      ((decimalDigits b).getD 1 0).toNat = b.toNat / 10 % 10 ∧
      ((decimalDigits b).getD 2 0).toNat = b.toNat % 10 :=
  ⟨BitVec.toNat_udiv, BitVec.toNat_umod.trans (congrArg (· % 10) BitVec.toNat_udiv),
    BitVec.toNat_umod⟩

/-! ### The data accesses -/

theorem exec_ldB (x : Reg) (s : State) : exec (.ldB x) s =
    withDataRange 3 s fun s => s.writeBytes s.i.toNat (decimalDigits (s.getV x)) := rfl

theorem exec_ldMemVx (x : Reg) (s : State) : exec (.ldMemVx x) s =
    withDataRange (x.val + 1) s fun s => s.writeBytes s.i.toNat (s.firstV x) := rfl

theorem exec_ldVxMem (x : Reg) (s : State) : exec (.ldVxMem x) s =
    withDataRange (x.val + 1) s fun s => s.loadV x (s.readBytes s.i.toNat (x.val + 1)) := rfl

/-- FX33 in range stores the three digits at `I` (R143). -/
theorem exec_ldB_in {s : State} (x : Reg) (h : s.i.toNat + 2 ≤ 0xFFF) :
    exec (.ldB x) s = .next (s.writeBytes s.i.toNat (decimalDigits (s.getV x))) := by
  rw [exec_ldB, withDataRange_in (by omega)]

/-- FX55 in range stores the first registers at `I` (R144). -/
theorem exec_ldMemVx_in {s : State} {x : Reg} (h : s.i.toNat + x.val ≤ 0xFFF) :
    exec (.ldMemVx x) s = .next (s.writeBytes s.i.toNat (s.firstV x)) := by
  rw [exec_ldMemVx, withDataRange_in (by omega)]

/-- FX65 in range loads the first registers from `I` (R145). -/
theorem exec_ldVxMem_in {s : State} {x : Reg} (h : s.i.toNat + x.val ≤ 0xFFF) :
    exec (.ldVxMem x) s = .next (s.loadV x (s.readBytes s.i.toNat (x.val + 1))) := by
  rw [exec_ldVxMem, withDataRange_in (by omega)]

/-! ### What is read back -/

/-- Digit k of a decimal store is read back at offset k (R143). -/
theorem readByte_storeDigits {s : State} {a k : Nat} (b : Byte)
    (hwf : Memory.wf s.params s.mem = true) (ha : a + 2 ≤ 0xFFF) (hk : k < 3) :
    (s.writeBytes a (decimalDigits b)).readByte (a + k) = (decimalDigits b).getD k 0 :=
  State.readByte_writeBytes hwf (by rw [decimalDigits_length]; omega) hk

/-- Register k of a block store is read back at offset k (R144). -/
theorem readByte_storeFirstV {s : State} {a : Nat} {x k : Reg}
    (hwf : Memory.wf s.params s.mem = true) (ha : a + x.val ≤ 0xFFF) (hk : k ≤ x) :
    (s.writeBytes a (s.firstV x)).readByte (a + k.val) = s.getV k := by
  have hlen := s.firstV_length x
  rw [State.readByte_writeBytes hwf (by omega) (hlen ▸ Nat.lt_succ_of_le hk), s.firstV_getD x k hk]

/-- A block load puts the byte at offset k into register k (R145). -/
theorem getV_loadBlock_of_le (s : State) (a : Nat) {x k : Reg} (hk : k ≤ x) :
    (s.loadV x (s.readBytes a (x.val + 1))).getV k = s.readByte (a + k.val) := by
  rw [State.getV_loadV, if_pos hk, s.readBytes_getD a (Nat.lt_succ_of_le hk)]

/-- A block load leaves the registers above X as they were (R145). -/
theorem getV_loadV_of_lt (s : State) (bs : List Byte) {x k : Reg} (hk : x < k) :
    (s.loadV x bs).getV k = s.getV k := by
  rw [State.getV_loadV, if_neg (not_le.mpr hk)]

/-- A block load from where the first registers were stored gives them back (R144, R145). -/
theorem getV_loadBlock_storeFirstV {s : State} {a : Nat} {x : Reg}
    (hwf : Memory.wf s.params s.mem = true) (ha : a + x.val ≤ 0xFFF) (k : Reg) :
    ((s.writeBytes a (s.firstV x)).loadV x
      ((s.writeBytes a (s.firstV x)).readBytes a (x.val + 1))).getV k = s.getV k := by
  obtain hk | hk := le_or_gt k x
  · rw [getV_loadBlock_of_le _ a hk, readByte_storeFirstV hwf ha hk]
  · rw [getV_loadV_of_lt _ _ hk]
    exact State.getV_congr (State.writeBytes_v s a _) k

/-! ### The obligations -/

/-- Settles O19: VF is written after the sum, from the old `I` and the old `V[X]`. -/
theorem addIndexSumAndCarry : Obligations.AddIndexSumAndCarry := by
  refine ⟨decodesBy_addI, fun x s => ⟨_, rfl, ?_, ?_, sameVBut_setV (s.setI _) vf _, rfl,
    .of_eq rfl rfl⟩⟩
  · rw [State.setV_i, State.setI_i, BitVec.toNat_add, s.getV16_toNat]
  · rw [State.getV_setV_same]
    exact flagByte_decide _

/-- Settles O20: the three digits are read back one by one, and `withDataRange` decides between the
store and the fault. -/
theorem decimalStoreWritesThreeDigits : Obligations.DecimalStoreWritesThreeDigits := by
  refine ⟨decodesBy_ldB, fun x s hwf => ⟨fun h => ?_,
    fun h => (exec_ldB x s).trans (withDataRange_out (by decide) (by omega))⟩⟩
  obtain ⟨hundreds, tens, ones⟩ := decimalDigits_toNat (s.getV x)
  refine ⟨_, exec_ldB_in x h, ?_, ?_, ?_,
    sameMemoryOutside_writeBytes (bs := decimalDigits (s.getV x)) hwf, rfl⟩
  · rw [← hundreds, ← readByte_storeDigits _ hwf h (by decide : 0 < 3), Nat.add_zero]
  · rw [← tens, readByte_storeDigits _ hwf h (by decide)]
  · rw [← ones, readByte_storeDigits _ hwf h (by decide)]

/-- Settles O21: every stored register is read back, and `withDataRange` decides between the store
and the fault. -/
theorem blockStoreWritesRegisters : Obligations.BlockStoreWritesRegisters :=
  ⟨decodesBy_ldMemVx, fun x s hwf =>
    ⟨fun h => ⟨_, exec_ldMemVx_in h, fun _ => readByte_storeFirstV hwf h,
        s.firstV_length x ▸ sameMemoryOutside_writeBytes hwf, rfl⟩,
      fun h => (exec_ldMemVx x s).trans
        (withDataRange_out (Nat.succ_ne_zero _) (by omega))⟩⟩

/-- Settles O22: the registers up to X get the bytes read, those above keep their values, and
`withDataRange` decides between the load and the fault. -/
theorem blockLoadReadsRegisters : Obligations.BlockLoadReadsRegisters :=
  ⟨decodesBy_ldVxMem, fun x s =>
    ⟨fun h => ⟨_, exec_ldVxMem_in h, fun _ => getV_loadBlock_of_le s _,
        fun _ => getV_loadV_of_lt s _, rfl, .of_eq rfl rfl⟩,
      fun h => (exec_ldVxMem x s).trans
        (withDataRange_out (Nat.succ_ne_zero _) (by omega))⟩⟩

/-- Settles O23: the store leaves `I` as it was, so the load reads the range just written. -/
theorem blockStoreThenLoadRestoresRegisters : Obligations.BlockStoreThenLoadRestoresRegisters :=
  fun _ _ hwf h =>
    ⟨_, _, exec_ldMemVx_in h, exec_ldVxMem_in h, getV_loadBlock_storeFirstV hwf h, rfl⟩

/-- Settles O18: both instructions end in `setI`, and a legal `FONT_BASE` keeps the glyph address
from wrapping. -/
theorem indexLoadsSetI : Obligations.IndexLoadsSetI :=
  ⟨decodesBy_ldI, decodesBy_ldF,
    fun nnn _ => ⟨_, rfl, addr12_toNat nnn, rfl, .of_eq rfl rfl⟩,
    fun _ s => ⟨_, rfl, s.glyphAddr_toNat _, State.glyphAddr_toNat_of_le _, rfl, .of_eq rfl rfl⟩⟩

end Sys2Proof.Machine
end

section
/-! Display (44_display.md): which cells a sprite covers, and the loops of R151 followed cell by cell. -/

namespace Sys2Proof.Machine

/-! ### The cells of the framebuffer -/

/-- Every cell of a cleared framebuffer is off (R150). -/
@[simp] theorem State.pixel_clearFb (s : State) (y x : Nat) : s.clearFb.pixel y x = false := by
  simp [State.pixel]

/-- A cell that is on lies in the grid. -/
theorem State.lt_of_pixel {s : State} {y x : Nat} (h : s.pixel y x = true) : y < 32 ∧ x < 64 := by
  constructor
  · by_contra hy
    simp [State.pixel, hy] at h
  · by_contra hx
    simp [s.pixel_of_ge y x (by omega)] at h

/-- A toggle changes the framebuffer alone. -/
theorem State.togglePixel_frame (s : State) (y x : Nat) :
    s.togglePixel y x = { s with fb := (s.togglePixel y x).fb } := by
  unfold State.togglePixel
  split <;> rfl

/-- A toggle inside the grid changes that cell alone. -/
theorem State.pixel_togglePixel (s : State) {y : Nat} (x : Nat) (hy : y < 32) {r c : Nat}
    (hc : c < 64) :
    (s.togglePixel y x).pixel r c = (s.pixel r c ^^ (decide (r = y) && decide (c = x))) := by
  by_cases hr : r < 32
  · have hbit : (1#64 <<< x).getLsbD c = decide (c = x) := by
      rw [← BitVec.twoPow_eq, BitVec.getLsbD_twoPow]
      simp only [← Bool.decide_and, decide_eq_decide]
      omega
    simp only [State.togglePixel, hy, dite_true, State.pixel_of_lt _ _ hr, Vector.getElem_set]
    by_cases h : y = r
    · subst h
      simp [hbit]
    · simp [h, Ne.symm h]
  · simp [State.pixel, hr, show r ≠ y by omega]

/-! ### The cells a sprite covers -/

/-- A sprite of no rows covers no cell. -/
@[simp] theorem spriteMask_nil (x0 y0 y : Nat) : spriteMask [] x0 y0 y = 0 := by
  simp [spriteMask]

/-- One more sprite row covers the cells of that row as well. -/
theorem spriteMask_append_singleton_getLsbD (rows : List Byte) (b : Byte) (x0 y0 r c : Nat) :
    (spriteMask (rows ++ [b]) x0 y0 r).getLsbD c = ((spriteMask rows x0 y0 r).getLsbD c ||
      (decide (r = y0 + rows.length) && (spriteRow x0 b).getLsbD c)) := by
  unfold spriteMask
  by_cases hy : r < y0
  · simp [hy, show r ≠ y0 + rows.length by omega]
  · rw [if_neg hy, if_neg hy]
    obtain hlt | heq | hgt := Nat.lt_trichotomy (r - y0) rows.length
    · simp [List.getElem?_append_left hlt, show r ≠ y0 + rows.length by omega]
    · simp [show r = y0 + rows.length by omega]
    · simp [List.getElem?_eq_none, show rows.length + 1 ≤ r - y0 from hgt, hgt.le,
        show r ≠ y0 + rows.length by omega]

/-- The sprite bit that falls on a cell of the grid, read from memory (R151). -/
theorem spriteMask_sprite_getLsbD (s : State) (n : BitVec 4) (x0 y0 r : Nat) {c : Nat}
    (hc : c < 64) : (spriteMask (s.sprite n) x0 y0 r).getLsbD c =
      (decide (y0 ≤ r ∧ r < y0 + n.toNat ∧ x0 ≤ c ∧ c < x0 + 8) &&
        (s.readByte (s.i.toNat + (r - y0))).getLsbD (7 - (c - x0))) := by
  rw [spriteMask_getLsbD, State.sprite, State.readBytes_length]
  by_cases hr : y0 ≤ r ∧ r < y0 + n.toNat
  · have hk : r - y0 < n.toNat := by omega
    rw [State.readBytes_getD _ _ hk]
    simp [hk, hc, hr]
  · have hmask : (decide (y0 ≤ r) && decide (r - y0 < n.toNat)) = false := by
      simp only [Bool.and_eq_false_iff, decide_eq_false_iff_not]
      omega
    have hhit : decide (y0 ≤ r ∧ r < y0 + n.toNat ∧ x0 ≤ c ∧ c < x0 + 8) = false :=
      decide_eq_false fun ⟨hlo, hhi, _⟩ => hr ⟨hlo, hhi⟩
    simp only [hmask, hhit, Bool.false_and]

/-- The cells a collision looks at lie in the grid. -/
theorem State.spriteCollides_iff_grid {s : State} {rows : List Byte} {x0 y0 : Nat}
    (hit : Nat → Nat → Bool)
    (h : ∀ r c, c < 64 → (spriteMask rows x0 y0 r).getLsbD c = hit r c) :
    s.spriteCollides rows x0 y0 = true ↔
      ∃ r c, r < 32 ∧ c < 64 ∧ s.pixel r c = true ∧ hit r c = true := by
  rw [State.spriteCollides_iff]
  refine exists₂_congr fun r c => and_congr_right fun _ => ?_
  constructor
  · rintro ⟨hon, hmask⟩
    have hc := (State.lt_of_pixel hon).2
    exact ⟨hc, hon, h r c hc ▸ hmask⟩
  · rintro ⟨hc, hon, hhit⟩
    exact ⟨hon, (h r c hc).trans hhit⟩

/-! ### The draw -/

/-- VF after a draw: whether a covered cell was on (R151). -/
theorem drawSprite_vf_eq (x y : Reg) (n : BitVec 4) (s : State) {p : Prop}
    (h : s.spriteCollides (s.sprite n) (s.originX x) (s.originY y) = true ↔ p) :
    (drawSprite x y n s).getV vf = 1 ∧ p ∨ (drawSprite x y n s).getV vf = 0 ∧ ¬ p := by
  rw [drawSprite_getV_vf, collisionFlag, ← h]
  cases s.spriteCollides (s.sprite n) (s.originX x) (s.originY y)
  · exact .inr ⟨rfl, Bool.false_ne_true⟩
  · exact .inl ⟨rfl, rfl⟩

/-- A draw of no rows leaves the framebuffer as it was and reports no collision (R151). -/
theorem drawSprite_zero (x y : Reg) (s : State) :
    (drawSprite x y 0 s).getV vf = 0 ∧ (drawSprite x y 0 s).fb = s.fb := by
  have hnil : s.sprite 0 = [] := rfl
  constructor
  · have hno : ¬ s.spriteCollides [] (s.originX x) (s.originY y) = true := by
      simp [State.spriteCollides_iff]
    rw [drawSprite_getV_vf, hnil, collisionFlag, Bool.eq_false_iff.2 hno, flagByte_false]
  · apply fb_ext
    intro r c _ _
    rw [drawSprite_pixel, hnil]
    simp

/-- A second draw at the same place covers the same cells (R151). -/
theorem drawSprite_twice_fb {x y : Reg} (n : BitVec 4) (s : State) (hx : x ≠ vf) (hy : y ≠ vf) :
    (drawSprite x y n (drawSprite x y n s)).fb = s.fb := by
  have hsprite : (drawSprite x y n s).sprite n = s.sprite n := by
    simp [State.sprite, State.readBytes, State.readByte]
  have hcol : (drawSprite x y n s).originX x = s.originX x := by
    rw [State.originX, drawSprite_getV x y x n s hx, State.originX]
  have hrow : (drawSprite x y n s).originY y = s.originY y := by
    rw [State.originY, drawSprite_getV x y y n s hy, State.originY]
  apply fb_ext
  intro r c _ _
  rw [drawSprite_pixel, hsprite, hcol, hrow, drawSprite_pixel, Bool.xor_assoc, Bool.xor_self,
    Bool.xor_false]

/-! ### The loops of R151 -/

/-- The loops of R151, started in `s`, have toggled the cells of `cells` once each: nothing else
differs from `s`, and the collision says whether one of those cells was on. -/
structure HasToggled (s : State) (cells : Nat → Nat → Bool) (acc : State × Bool) : Prop where
  frame : acc.1 = { s with fb := acc.1.fb }
  pixel : ∀ r c, r < 32 → c < 64 → acc.1.pixel r c = (s.pixel r c ^^ cells r c)
  collision : acc.2 = true ↔ ∃ r c, r < 32 ∧ s.pixel r c = true ∧ cells r c = true

/-- Before the first step nothing is toggled. -/
theorem HasToggled.start (s : State) : HasToggled s (fun _ _ => false) (s, false) :=
  ⟨rfl, by simp, by simp⟩

/-- Only the cells of the grid count. -/
theorem HasToggled.congr {s : State} {cells cells' : Nat → Nat → Bool} {acc : State × Bool}
    (h : HasToggled s cells acc) (heq : ∀ r c, r < 32 → c < 64 → cells' r c = cells r c) :
    HasToggled s cells' acc := by
  refine ⟨h.frame, fun r c hr hc => by rw [heq r c hr hc, h.pixel r c hr hc], h.collision.trans ?_⟩
  refine exists₂_congr fun r c => and_congr_right fun hr => and_congr_right fun hp => ?_
  rw [heq r c hr (State.lt_of_pixel hp).2]

/-- The inner step of R151 on a set sprite bit: one cell more, not toggled before. -/
theorem HasToggled.toggle {s : State} {cells : Nat → Nat → Bool} {acc : State × Bool} {y x : Nat}
    (h : HasToggled s cells acc) (hy : y < 32) (hx : x < 64) (hnew : cells y x = false) :
    HasToggled s (fun r c => cells r c || (decide (r = y) && decide (c = x)))
      (acc.1.togglePixel y x, acc.2 || acc.1.pixel y x) := by
  refine ⟨?_, fun r c hr hc => ?_, ?_⟩
  · show acc.1.togglePixel y x = _
    rw [State.togglePixel_frame]
    generalize (acc.1.togglePixel y x).fb = fb
    rw [h.frame]
  · show (acc.1.togglePixel y x).pixel r c = _
    rw [State.pixel_togglePixel _ x hy hc, h.pixel r c hr hc, Bool.xor_assoc]
    by_cases hcell : r = y ∧ c = x
    · obtain ⟨rfl, rfl⟩ := hcell
      simp [hnew]
    · have : (decide (r = y) && decide (c = x)) = false := by simpa using hcell
      simp [this]
  · have hp : acc.1.pixel y x = s.pixel y x := by rw [h.pixel y x hy hx, hnew, Bool.xor_false]
    show (acc.2 || acc.1.pixel y x) = true ↔ _
    rw [Bool.or_eq_true, h.collision, hp]
    constructor
    · rintro (⟨r, c, hr, hon, hcell⟩ | hon)
      · exact ⟨r, c, hr, hon, by simp [hcell]⟩
      · exact ⟨y, x, hy, hon, by simp⟩
    · rintro ⟨r, c, hr, hon, hcell⟩
      obtain hcell | hcell := Bool.or_eq_true_iff.1 hcell
      · exact .inl ⟨r, c, hr, hon, hcell⟩
      · obtain ⟨rfl, rfl⟩ : r = y ∧ c = x := by simpa using hcell
        exact .inr hon

/-- The cells of row y that the first n columns of a sprite byte cover. -/
def columnCells (b : Byte) (x0 y n r c : Nat) : Bool :=
  decide (r = y) && (decide (x0 ≤ c) && decide (c < x0 + n) && b.getLsbD (7 - (c - x0)))

/-- Column n of a sprite byte covers one cell, if its bit is set. -/
theorem columnCells_succ (b : Byte) (x0 y n r c : Nat) :
    columnCells b x0 y (n + 1) r c = (columnCells b x0 y n r c ||
      (decide (r = y) && decide (c = x0 + n) && b.getLsbD (7 - n))) := by
  unfold columnCells
  obtain hlt | heq | hgt := Nat.lt_trichotomy c (x0 + n)
  · simp [hlt, hlt.ne, show c < x0 + (n + 1) by omega]
  · simp [heq, ← Nat.add_assoc]
  · simp [hgt.ne', hgt.le, show ¬ c < x0 + (n + 1) by omega]

/-- The inner loop of R151 in a row of the grid not drawn to before, after n columns. -/
theorem HasToggled.columns {s : State} {cells : Nat → Nat → Bool} {acc : State × Bool} {y : Nat}
    (h : HasToggled s cells acc) (hy : y < 32) (hnew : ∀ c, cells y c = false) (b : Byte)
    (x0 n : Nat) :
    HasToggled s (fun r c => cells r c || columnCells b x0 y n r c)
      ((List.range n).foldl (loopColumn b x0 y) acc) := by
  induction n with
  | zero => exact h.congr fun r c _ _ => by simp [columnCells]
  | succ n ih =>
    rw [List.range_succ, List.foldl_concat, loopColumn]
    simp only [columnCells_succ, ← Bool.or_assoc]
    split
    next hset =>
      obtain ⟨hcol, hbit⟩ := hset
      simpa [hbit] using ih.toggle hy (by omega : x0 + n < 64) (by simp [hnew, columnCells])
    next hclear =>
      refine ih.congr fun r c _ hc => ?_
      have hnone : (decide (c = x0 + n) && b.getLsbD (7 - n)) = false := by
        by_cases hcn : c = x0 + n
        · have hcol : x0 + n ≤ 63 := by omega
          rw [Bool.eq_false_iff.2 fun hbit => hclear ⟨hcol, hbit⟩, Bool.and_false]
        · simp [hcn]
      rw [Bool.and_assoc, hnone, Bool.and_false, Bool.or_false]

/-- The outer step of R151: sprite row k, in a framebuffer row not drawn to before. -/
theorem HasToggled.row {s : State} {cells : Nat → Nat → Bool} {acc : State × Bool} {y0 k : Nat}
    (h : HasToggled s cells acc) (hnew : ∀ c, cells (y0 + k) c = false) (b : Byte) (x0 : Nat) :
    HasToggled s
      (fun r c => cells r c || (decide (r = y0 + k) && (spriteRow x0 b).getLsbD c))
      (loopRow x0 y0 acc (b, k)) := by
  unfold loopRow
  split
  next hin =>
    refine (h.columns (by omega : y0 + k < 32) hnew b x0 8).congr fun r c _ hc => ?_
    rw [spriteRow_getLsbD, decide_eq_true hc, Bool.true_and, columnCells]
  next hout =>
    exact h.congr fun r c hr _ => by simp [show r ≠ y0 + k by omega]

/-- The loops of R151 toggle the cells the sprite covers. -/
theorem hasToggled_drawLoop (rows : List Byte) (x0 y0 : Nat) (s : State) :
    HasToggled s (fun r c => (spriteMask rows x0 y0 r).getLsbD c) (drawLoop rows x0 y0 s) := by
  induction rows using List.reverseRecOn with
  | nil => exact (HasToggled.start s).congr fun r c _ _ => by simp
  | append_singleton rows b ih =>
    have hloop : drawLoop (rows ++ [b]) x0 y0 s =
        loopRow x0 y0 (drawLoop rows x0 y0 s) (b, rows.length) := by
      simp [drawLoop, List.zipIdx_append]
    have hnew : ∀ c, (spriteMask rows x0 y0 (y0 + rows.length)).getLsbD c = false := by
      simp [spriteMask_getLsbD]
    rw [hloop]
    exact (ih.row hnew b x0).congr fun r c _ _ =>
      spriteMask_append_singleton_getLsbD rows b x0 y0 r c

/-- The XOR of the whole sprite is the loops of R151. -/
theorem drawLoop_fst (rows : List Byte) (x0 y0 : Nat) (s : State) :
    (drawLoop rows x0 y0 s).1 = s.xorSprite rows x0 y0 := by
  have h := hasToggled_drawLoop rows x0 y0 s
  have hfb : (drawLoop rows x0 y0 s).1.fb = (s.xorSprite rows x0 y0).fb := by
    apply fb_ext
    intro r c hr hc
    rw [h.pixel r c hr hc, State.pixel_xorSprite, decide_eq_true hr, Bool.true_and]
  rw [h.frame, hfb]
  rfl

/-- The collision of the whole sprite is the one the loops of R151 find. -/
theorem drawLoop_snd (rows : List Byte) (x0 y0 : Nat) (s : State) :
    (drawLoop rows x0 y0 s).2 = s.spriteCollides rows x0 y0 :=
  Bool.eq_iff_iff.2 ((hasToggled_drawLoop rows x0 y0 s).collision.trans
    (s.spriteCollides_iff rows x0 y0).symm)

/-! ### The obligations -/

/-- Settles O26: the loops toggle the cells the sprite covers, each once. -/
theorem drawEqualsTheLoopOfTheSpec : Obligations.DrawEqualsTheLoopOfTheSpec := by
  intro x y n s hrange loop
  rw [exec_drw_next hrange, drawSprite]
  show _ = Host.Outcome.next ((drawLoop _ _ _ s).1.setV vf (flagByte (drawLoop _ _ _ s).2))
  rw [drawLoop_fst, drawLoop_snd]
  rfl

/-- Settles O25: each clause is what `drawSprite` does to that part of the state, and
`withDataRange` decides between the draw and the fault. -/
theorem drawTogglesSpritePixels : Obligations.DrawTogglesSpritePixels := by
  refine ⟨decodesBy_drw, fun x y n s => ⟨fun hrange => ?_, fun hn => ?_, fun hn hout => ?_⟩⟩
  · refine ⟨_, exec_drw_next hrange, fun r c hr hc => ?_, drawSprite_vf_eq x y n s ?_,
      fun r hr => drawSprite_getV x y r n s (by simpa using hr), drawSprite_eq x y n s,
      .of_eq (drawSprite_mem x y n s) (drawSprite_params x y n s)⟩
    · rw [drawSprite_pixel, spriteMask_sprite_getLsbD s n _ _ r hc, decide_eq_true hr,
        Bool.true_and]
      rfl
    · exact State.spriteCollides_iff_grid _ fun r c hc => spriteMask_sprite_getLsbD s n _ _ r hc
  · subst hn
    exact ⟨_, exec_drw_next (.inl rfl), drawSprite_zero x y s⟩
  · have hn' : n.toNat ≠ 0 := fun h => hn (BitVec.eq_of_toNat_eq h)
    exact (exec_drw x y n s).trans (withDataRange_out hn' hout)

/-- Settles O27: the second draw reads the same sprite and the same origin, and a cell toggled twice
is as it was. -/
theorem drawTwiceRestoresFramebuffer : Obligations.DrawTwiceRestoresFramebuffer :=
  fun x y n s hx hy hrange =>
    ⟨_, _, exec_drw_next hrange, exec_drw_next ((drawSprite_i x y n s).symm ▸ hrange),
      drawSprite_twice_fb n s hx hy⟩

/-- Settles O24: the instruction ends in `clearFb`. -/
theorem clsClearsEveryCell : Obligations.ClsClearsEveryCell :=
  ⟨decodesBy_cls, fun s => ⟨s.clearFb, rfl, s.pixel_clearFb, rfl, .of_eq rfl rfl⟩⟩

end Sys2Proof.Machine
end

section
/-! Keys, timers, random (45_keys_timers_random.md): when a key skip moves `PC` and when it faults, and
which key FX0A takes. -/

namespace Sys2Proof.Machine

/-! ### The key skips -/

/-- With a key number up to 15 the skip tests that key of the snapshot (R160, R161). -/
theorem skipIfKey_of_le {x : Reg} {s : State} (down : Bool) (h : (s.getV x).toNat ≤ 15) :
    skipIfKey down x s = .next
      { s with pc := if s.keys.getLsbD (s.getV x).toNat = down then s.pc + 2 else s.pc } := by
  rw [skipIfKey, if_neg (Nat.not_lt.mpr h)]
  exact skipIf_of_iff beq_iff_eq s

/-- A key number above 15 is a fault, whichever way the skip tests (R195). -/
theorem skipIfKey_of_gt {x : Reg} {s : State} (down : Bool) (h : 15 < (s.getV x).toNat) :
    skipIfKey down x s = .next { s with fault := some (.keyRange (s.getV x) (s.pc - 2)) } := by
  rw [skipIfKey, if_pos h]
  rfl

/-! ### Waiting for a key -/

/-- A pressed key below which none is pressed is the lowest (R162). -/
theorem State.lowestKey_eq_some {s : State} {k : Reg} (hdown : s.keyDown k.val = true)
    (hbelow : ∀ j : Reg, j < k → s.keyDown j.val = false) : s.lowestKey = some k := by
  cases h : s.lowestKey with
  | none => exact absurd hdown (Bool.eq_false_iff.1 (State.lowestKey_none h k))
  | some j =>
    obtain ⟨hj, hbelowj⟩ := State.lowestKey_some h
    obtain hjk | rfl | hkj := lt_trichotomy j k
    · exact absurd hj (Bool.eq_false_iff.1 (hbelow j hjk))
    · rfl
    · exact absurd hdown (Bool.eq_false_iff.1 (hbelowj k hkj))

/-- No key is the lowest when none is pressed (R162). -/
theorem State.lowestKey_eq_none {s : State} (h : ∀ k : Reg, s.keyDown k.val = false) :
    s.lowestKey = none := by
  cases hl : s.lowestKey with
  | none => rfl
  | some j => exact absurd (State.lowestKey_some hl).1 (Bool.eq_false_iff.1 (h j))

/-- FX0A with a lowest pressed key takes its number (R162). -/
theorem exec_ldVxK_some {s : State} {k : Reg} (x : Reg) (h : s.lowestKey = some k) :
    exec (.ldVxK x) s = .next (s.setV x (BitVec.ofNat 8 k.val)) := by
  simp only [exec, execLdVxK, h]

/-- FX0A with no key pressed goes back to itself (R162). -/
theorem exec_ldVxK_none {s : State} (x : Reg) (h : s.lowestKey = none) :
    exec (.ldVxK x) s = .next s.rewind := by
  simp only [exec, execLdVxK, h]

/-- A key's number fits in a register (R34). -/
theorem keyNumber_toNat (k : Reg) : (BitVec.ofNat 8 k.val).toNat = k.val :=
  (BitVec.toNat_ofNat k.val 8).trans (Nat.mod_eq_of_lt (lt_trans k.isLt (by decide)))

/-! ### Timers and random -/

/-- The tone is on exactly when `ST` is not 0 (R43). -/
theorem State.tone_iff (s : State) : s.tone = true ↔ s.st ≠ 0 := bne_iff_ne

/-- A masked byte has no bit outside the mask (R166). -/
theorem masked_and_not_mask (b mask : Byte) : (b &&& mask) &&& ~~~mask = 0 := by
  rw [BitVec.and_assoc, BitVec.and_not_self]
  exact BitVec.and_zero

/-! ### The obligations -/

/-- Settles O29: `lowestKey` decides between the write and the way back. -/
theorem waitForKeyTakesTheLowest : Obligations.WaitForKeyTakesTheLowest := by
  refine ⟨decodesBy_ldVxK, fun x s => ⟨fun k hdown hbelow => ?_,
    fun h => exec_ldVxK_none x (State.lowestKey_eq_none h)⟩⟩
  refine ⟨_, exec_ldVxK_some x (State.lowestKey_eq_some hdown hbelow), ?_, s.setV_frame x _⟩
  rw [State.getV_setV_same, keyNumber_toNat]

/-- Settles O28: both are `skipIfKey`, which decides between the skip and the fault. -/
theorem keySkipsTestTheSnapshot : Obligations.KeySkipsTestTheSnapshot :=
  ⟨decodesBy_skp, decodesBy_sknp, fun _ _ =>
    ⟨fun h => ⟨skipIfKey_of_le true h, skipIfKey_of_le false h⟩,
      fun h => ⟨skipIfKey_of_gt true h, skipIfKey_of_gt false h⟩⟩⟩

/-- Settles O30: FX07 ends in a plain register write, FX15 and FX18 in `setDT` and `setST`. -/
theorem timerInstructionsCopyBytes : Obligations.TimerInstructionsCopyBytes :=
  ⟨decodesBy_ldVxDT, decodesBy_ldDTVx, decodesBy_ldSTVx, fun x s =>
    ⟨⟨_, rfl, s.getV_setV_same x s.dt, s.setV_frame x _⟩, rfl,
      ⟨_, rfl, rfl, (s.setST (s.getV x)).tone_iff⟩⟩⟩

/-- Settles O31: the drawn byte is a field of the state, so the clauses hold for any. -/
theorem randomByteIsMasked : Obligations.RandomByteIsMasked := by
  refine ⟨decodesBy_rnd, fun x nn s =>
    ⟨_, rfl, s.getV_setV_same x _, ?_, s.setV_frame x _⟩⟩
  rw [State.getV_setV_same, masked_and_not_mask]

end Sys2Proof.Machine
end

section
/-! What an instruction neither writes nor reads: the fields of the scheduler and of the driver's
call around it (46_cycle_scheduler_timers.md R171; 10_state.md R34 to R36). -/

namespace Sys2Proof.Machine

/-- An instruction writes architectural fields of its own, or raises a fault and writes nothing else
(R171, R197). -/
theorem exec_frame {i : Instr} {s t : State} (h : exec i s = .next t) :
    InstrFrame s t ∨ ∃ f, t = { s with fault := some f } := by
  obtain ⟨u, hu, hframe⟩ | ⟨f, hf⟩ := exec_next i s
  · obtain rfl := Host.Outcome.next.inj (h.symm.trans hu)
    exact .inl hframe
  · exact .inr ⟨f, Host.Outcome.next.inj (h.symm.trans hf)⟩

/-- Settles O34: neither a frame of architectural fields nor a reported fault holds one of these. -/
theorem instructionsLeaveTheSchedulerAlone : Obligations.InstructionsLeaveTheSchedulerAlone := by
  intro i s t h
  obtain hframe | ⟨f, rfl⟩ := exec_frame h
  · rw [hframe]
    exact ⟨rfl, rfl, rfl, rfl, rfl, rfl, rfl, rfl, rfl, rfl, rfl⟩
  · exact ⟨rfl, rfl, rfl, rfl, rfl, rfl, rfl, rfl, rfl, rfl, rfl⟩

/-- `s` with what comes from outside an instruction taken from `o`: the latches of the call, the
accumulators, `HALT`, `FAULTS` and the model's own fields of the driver. -/
def State.withOutsideOf (s o : State) : State :=
  { s with keys := o.keys, rnd := o.rnd, iacc := o.iacc, tacc := o.tacc, halt := o.halt,
           faults := o.faults, frameReady := o.frameReady, ready := o.ready, inbox := o.inbox,
           calls := o.calls }

/-- An instruction leaves what comes from outside it (R171). -/
theorem exec_keeps_outside {i : Instr} {s t : State} (h : exec i s = .next t) :
    t = t.withOutsideOf s := by
  obtain hframe | ⟨f, rfl⟩ := exec_frame h
  · rw [hframe]
    rfl
  · rfl

theorem drawSprite_withOutsideOf (x y : Reg) (n : BitVec 4) (s o : State) :
    (drawSprite x y n s).withOutsideOf o = drawSprite x y n (s.withOutsideOf o) := rfl

/-- A key skip reads `KEYS` and else nothing from outside (R160, R161). -/
theorem skipIfKey_withOutsideOf {s o : State} (down : Bool) (x : Reg) (h : o.keys = s.keys) :
    skipIfKey down x (s.withOutsideOf o) = onNext (·.withOutsideOf o) (skipIfKey down x s) := by
  have hkey : (s.withOutsideOf o).keyDown = s.keyDown := by
    funext k
    exact congrArg (·.getLsbD k) h
  have hv : (s.withOutsideOf o).getV x = s.getV x := rfl
  rw [skipIfKey, skipIfKey, hkey, hv]
  split
  · rfl
  · exact skipIf_onNext (f := (·.withOutsideOf o)) _ rfl

/-- Waiting for a key reads `KEYS` and else nothing from outside (R162). -/
theorem execLdVxK_withOutsideOf {s o : State} (x : Reg) (h : o.keys = s.keys) :
    execLdVxK x (s.withOutsideOf o) = onNext (·.withOutsideOf o) (execLdVxK x s) := by
  have hkey : (s.withOutsideOf o).lowestKey = s.lowestKey := by
    simp only [State.lowestKey, State.keyDown, State.withOutsideOf, h]
  rw [execLdVxK, execLdVxK, hkey]
  cases s.lowestKey <;> rfl

/-- WHAT AN INSTRUCTION READS FROM OUTSIDE: CXNN the draw, EX9E, EXA1 and FX0A the keys, and else
nothing. Replacing all the rest beforehand is replacing it afterwards (R171). -/
theorem exec_withOutsideOf {i : Instr} {s o : State}
    (hrnd : (∀ x nn, i ≠ .rnd x nn) ∨ o.rnd = s.rnd)
    (hkeys : (∀ x, i ≠ .skp x ∧ i ≠ .sknp x ∧ i ≠ .ldVxK x) ∨ o.keys = s.keys) :
    exec i (s.withOutsideOf o) = onNext (·.withOutsideOf o) (exec i s) := by
  have range (n : Nat) (g : State → State)
      (hg : (g s).withOutsideOf o = g (s.withOutsideOf o)) :
      withDataRange n (s.withOutsideOf o) g = onNext (·.withOutsideOf o) (withDataRange n s g) :=
    withDataRange_onNext (f := (·.withOutsideOf o)) n g rfl rfl hg fun _ => rfl
  cases i with
  | rnd x nn =>
    have h : o.rnd = s.rnd := hrnd.resolve_left fun h => h x nn rfl
    simp only [exec, execRnd, onNext, State.withOutsideOf, State.setV, h]
  | skp x => exact skipIfKey_withOutsideOf true x (hkeys.resolve_left fun h => (h x).1 rfl)
  | sknp x => exact skipIfKey_withOutsideOf false x (hkeys.resolve_left fun h => (h x).2.1 rfl)
  | ldVxK x => exact execLdVxK_withOutsideOf x (hkeys.resolve_left fun h => (h x).2.2 rfl)
  | seImm x nn | sneImm x nn | seReg x y | sneReg x y =>
    exact skipIf_onNext (f := (·.withOutsideOf o)) _ rfl
  | ret =>
    obtain ⟨h0, _⟩ | ⟨hpos, _⟩ := s.pop_cases
    · rw [exec_ret_empty h0, exec_ret_empty (s := s.withOutsideOf o) h0]
      rfl
    · rw [exec_ret_of_pos hpos, exec_ret_of_pos (s := s.withOutsideOf o) hpos]
      rfl
  | call nnn =>
    obtain ⟨h16, _⟩ | ⟨hlt, _⟩ := s.push_cases s.pc
    · rw [exec_call_full nnn h16, exec_call_full (s := s.withOutsideOf o) nnn h16]
      rfl
    · rw [exec_call_of_lt nnn hlt, exec_call_of_lt (s := s.withOutsideOf o) nnn hlt]
      rfl
  | drw x y n => exact range _ _ (drawSprite_withOutsideOf x y n s o)
  | ldB x => exact range _ (fun s => s.writeBytes s.i.toNat (decimalDigits (s.getV x))) rfl
  | ldMemVx x => exact range _ (fun s => s.writeBytes s.i.toNat (s.firstV x)) rfl
  | ldVxMem x => exact range _ (fun s => s.loadV x (s.readBytes s.i.toNat (x.val + 1))) rfl
  | _ => rfl

/-- A change of what comes from outside that looks at nothing else. -/
def RewritesOutside (f : State → State) : Prop :=
  ∀ s o : State, f (s.withOutsideOf o) = s.withOutsideOf (f o)

/-- An instruction that does not read what a change rewrites commutes with the change (R171). -/
theorem exec_rewritesOutside {i : Instr} {s : State} {f : State → State} (hf : RewritesOutside f)
    (hrnd : (∀ x nn, i ≠ .rnd x nn) ∨ (f s).rnd = s.rnd)
    (hkeys : (∀ x, i ≠ .skp x ∧ i ≠ .sknp x ∧ i ≠ .ldVxK x) ∨ (f s).keys = s.keys) :
    exec i (f s) = onNext f (exec i s) := by
  have hfs : f s = s.withOutsideOf (f s) := hf s s
  have hafter : onNext (·.withOutsideOf (f s)) (exec i s) = onNext f (exec i s) := by
    cases h : exec i s with
    | next t =>
      have ht : f t = t.withOutsideOf (f s) :=
        (congrArg f (exec_keeps_outside h)).trans (hf t s)
      exact congrArg Host.Outcome.next ht.symm
    | fault e => rfl
    | refused e => rfl
  calc exec i (f s) = exec i (s.withOutsideOf (f s)) := congrArg (exec i) hfs
    _ = onNext (·.withOutsideOf (f s)) (exec i s) := exec_withOutsideOf hrnd hkeys
    _ = onNext f (exec i s) := hafter

/-- Settles O38: each of the three changes rewrites what comes from outside, and only the second and
the third touch the draw and the keys. -/
theorem instructionsReadNothingFromOutside : Obligations.InstructionsReadNothingFromOutside :=
  fun _ _ =>
    ⟨fun p q h fr rd fs ib n => exec_rewritesOutside
        (f := ({ · with iacc := p, tacc := q, halt := h, faults := fs, frameReady := fr, ready := rd,
                        inbox := ib, calls := n }))
        (fun _ _ => rfl) (.inr rfl) (.inr rfl),
      fun h b => exec_rewritesOutside (f := ({ · with rnd := b })) (fun _ _ => rfl) (.inl h)
        (.inr rfl),
      fun h k => exec_rewritesOutside (f := ({ · with keys := k })) (fun _ _ => rfl) (.inr rfl)
        (.inl h)⟩

end Sys2Proof.Machine
end

section
/-! The clocks as such: the remainder that draining leaves and the countdown of the timers
(46_cycle_scheduler_timers.md R173 to R175). -/

namespace Sys2Proof.Machine

/-! ### The remainder of R175 -/

/-- `r` is what is left of `q` when whole periods `p` are taken off. -/
structure IsRemainder (q p r : ℚ) : Prop where
  nonneg : 0 ≤ r
  lt : r < p
  whole : ∃ k : ℤ, q - r = p * k

/-- What is below a period already is its own remainder. -/
theorem isRemainder_self {q p : ℚ} (h0 : 0 ≤ q) (h : q < p) : IsRemainder q p q :=
  ⟨h0, h, 0, by rw [sub_self, Int.cast_zero, mul_zero]⟩

/-- Draining leaves the remainder (R175). -/
theorem isRemainder_usMod (q : ℚ) {p : ℚ} (hp : 0 < p) : IsRemainder q p (usMod q p) :=
  ⟨usMod_nonneg q p hp, usMod_lt q p hp, ⌊q / p⌋, by rw [usMod_eq q p hp, sub_sub_cancel]⟩

/-- A remainder is the drained value: the periods taken off are the floor of the quotient. -/
theorem IsRemainder.eq_usMod {q p r : ℚ} (h : IsRemainder q p r) (hp : 0 < p) : r = usMod q p := by
  obtain ⟨hnonneg, hlt, k, hk⟩ := h
  have hfloor : ⌊q / p⌋ = k :=
    Int.floor_eq_iff.2 ⟨(le_div_iff₀ hp).2 (by linarith), (div_lt_iff₀ hp).2 (by linarith)⟩
  rw [usMod_eq q p hp, hfloor, ← hk, sub_sub_cancel]

/-- Settles O52: the remainder that draining leaves, and that there is no other. -/
theorem drainIsTheRationalRemainder : Obligations.DrainIsTheRationalRemainder := by
  intro q p hp
  obtain ⟨hnonneg, hlt, hwhole⟩ := isRemainder_usMod q hp
  exact ⟨⟨hnonneg, hlt, hwhole⟩, fun r h0 h hk => IsRemainder.eq_usMod ⟨h0, h, hk⟩ hp⟩

/-! ### The countdown of R174 -/

/-- Ticks in a row take their number off both timers, down to zero (R174). -/
theorem tickTimes_toNat (n : Nat) (s : State) :
    (tickTimes n s).dt.toNat = s.dt.toNat - n ∧ (tickTimes n s).st.toNat = s.st.toNat - n := by
  induction n generalizing s with
  | zero => exact ⟨rfl, rfl⟩
  | succ n ih =>
    obtain ⟨hdt, hst⟩ := ih (timerTick s)
    have hdt1 : (timerTick s).dt.toNat = s.dt.toNat - 1 := tickTimer_toNat s.dt
    have hst1 : (timerTick s).st.toNat = s.st.toNat - 1 := tickTimer_toNat s.st
    rw [tickTimes]
    omega

/-- Settles O53: the two branches of `tickTimer`, and the countdown by induction on the ticks. -/
theorem ticksCountDownToZero : Obligations.TicksCountDownToZero :=
  ⟨fun _ => rfl, fun _ => ⟨fun h => if_pos h, fun h => if_neg h⟩, tickTimes_toNat⟩

end Sys2Proof.Machine
end

section
/-! The Advance transaction (46_cycle_scheduler_timers.md R176 to R182): the two ways a call on a
running core goes, the three ways it ends, and the calls that are refused. -/

namespace Sys2Proof.Machine

/-! ### A call on a running core -/

/-- A placed legal call on a running core: no instruction is due, or one instruction cycle runs and
the rest of the call follows (R176). -/
theorem step_running_cases {s : State} {e : ℚ} {ks : List Bool} {b : Byte} {rest : List DriverCall}
    (hin : s.inbox = .advance e ks b :: rest) (hrun : s.running) (he : 0 ≤ e) (hk : ks.length = 16) :
    (s.iacc + e < s.params.iperiod ∧ step s = .next (timerPart (advanceEntry e ks b rest s))) ∨
    (s.params.iperiod ≤ s.iacc + e ∧ ∃ t, instructionCycle (advanceEntry e ks b rest s) = .next t ∧
      step s = .next (afterInstruction t)) := by
  obtain ⟨hr, hh⟩ := hrun
  rw [step_advance hin, advance_running (s := { s with inbox := rest }) b hr hh he hk]
  exact advanceRunning_cases e ks b { s with inbox := rest }

/-- A due call whose word decodes runs exec of it, with `PC` past the word, and then the rest of the
call (R170, R176). -/
theorem step_due {s : State} {e : ℚ} {ks : List Bool} {b : Byte} {rest : List DriverCall} {i : Instr}
    (hin : s.inbox = .advance e ks b :: rest) (hrun : s.running) (he : 0 ≤ e) (hk : ks.length = 16)
    (hdue : s.params.iperiod ≤ s.iacc + e) (hpc : s.pc.toNat ≤ 0xFFE)
    (hd : decodeWord s.wordAtPc = .ok i) :
    ∃ t, exec i ((advanceEntry e ks b rest s).setPc (s.pc + 2)) = .next t ∧
      step s = .next (afterInstruction t) := by
  obtain ⟨hlt, _⟩ | ⟨_, t, ht, hstep⟩ := step_running_cases hin hrun he hk
  · exact absurd hdue (not_le_of_gt hlt)
  · exact ⟨t, (instructionCycle_ok (s := advanceEntry e ks b rest s) hpc hd).symm.trans ht, hstep⟩

/-- Decoding two bytes is decoding their word. -/
theorem decodeWord_of_decode_pair {hi lo : Byte} {i : Instr} (h : decode [hi, lo] = .ok (i, [])) :
    decodeWord (wordOfBytes hi lo) = .ok i := by
  rw [decode] at h
  split at h
  · next j hj =>
    obtain ⟨rfl, _⟩ := Prod.mk.inj (Except.ok.inj h)
    exact hj
  · cases h

/-- Settles O42: the due call, with the two bytes at `PC` read as their word. -/
theorem stepRunsTheDecodedInstruction : Obligations.StepRunsTheDecodedInstruction :=
  fun _ _ _ _ _ _ hin hrun he hk hdue hpc hd =>
    step_due hin hrun he hk hdue hpc (decodeWord_of_decode_pair hd)

/-! ### The instruction part of a call -/

/-- `u` is the state of a placed call after its instruction part: the call latched, and where an
instruction was due, one instruction cycle on that (R176). -/
def InstructionPart (e : ℚ) (ks : List Bool) (b : Byte) (rest : List DriverCall) (s u : State) :
    Prop :=
  s.iacc + e < s.params.iperiod ∧ u = advanceEntry e ks b rest s ∨
    s.params.iperiod ≤ s.iacc + e ∧ instructionCycle (advanceEntry e ks b rest s) = .next u

/-- The instruction part leaves the scheduler's fields as the latched call has them (R171). -/
theorem InstructionPart.scheduler {e : ℚ} {ks : List Bool} {b : Byte} {rest : List DriverCall}
    {s u : State} (h : InstructionPart e ks b rest s u) :
    u.iacc = s.iacc + e ∧ u.tacc = s.tacc + e ∧ u.halt = s.halt ∧ u.params = s.params ∧
      u.frameReady = false := by
  obtain ⟨_, rfl⟩ | ⟨_, hu⟩ := h
  · exact ⟨rfl, rfl, rfl, rfl, rfl⟩
  · obtain ⟨u', hu', hiacc, htacc, hhalt, _, hparams, hframe, _⟩ :=
      instructionCycle_next (advanceEntry e ks b rest s)
    obtain rfl := Host.Outcome.next.inj (hu.symm.trans hu')
    exact ⟨hiacc, htacc, hhalt, hparams, hframe⟩

/-! ### The pseudocode of R176 -/

/-- The timer part with its tick and its drain written out (R173, R175, R176). -/
theorem timerPart_eq (s : State) : timerPart s =
    if tperiod ≤ s.tacc then
      { s with
        dt := if s.dt = 0 then 0 else s.dt - 1
        st := if s.st = 0 then 0 else s.st - 1
        tacc := s.tacc - tperiod * ⌊s.tacc / tperiod⌋
        frameReady := true }
    else { s with frameReady := false } := by
  obtain ⟨h, e⟩ | ⟨h, e⟩ := timerPart_cases s
  · rw [e, if_pos h, usMod_eq _ _ tperiod_pos]
    rfl
  · rw [e, if_neg (not_le_of_gt h)]

/-- Settles O49: a call that is not due is its timer part; a due one is the rest of the call after
the cycle, by what the cycle reports: nothing, a halting fault or one that does not halt. -/
theorem advanceFollowsTheSpecSteps : Obligations.AdvanceFollowsTheSpecSteps := by
  refine ⟨keyBits_getLsbD, tperiod_eq, fun s e ks b rest hin hrun he hk hp => ?_⟩
  intro s1 drain timer
  have hrest {u : State} (hu : u.params = s.params) : timerPart (drainIacc u) = timer (drain u) := by
    rw [timerPart_eq, drainIacc_eq (hu ▸ hp)]
  obtain ⟨hlt, hstep⟩ | ⟨hle, t, ht, hstep⟩ := step_running_cases hin hrun he hk
  · exact ⟨fun _ => hstep.trans (congrArg _ (timerPart_eq s1)), fun h => absurd h (not_le_of_gt hlt)⟩
  · obtain ⟨_, _, hhalt, hparams, _⟩ := InstructionPart.scheduler (.inr ⟨hle, ht⟩)
    have hh : t.halt = false := hhalt.trans hrun.2
    refine ⟨fun h => absurd hle (not_le_of_gt h), fun _ => ⟨t, ht, fun hf => ?_, fun f hf => ⟨?_, ?_⟩⟩⟩
    · exact hstep.trans (congrArg _ ((afterInstruction_none hf hh).trans (hrest hparams)))
    · intro hhalting
      rw [hstep, afterInstruction_halting hf (hparams ▸ hhalting)]
    · intro hgoes
      exact hstep.trans (congrArg _
        ((afterInstruction_recorded hf (hparams ▸ hgoes) hh).trans (hrest hparams)))

/-! ### The three ways a call ends -/

/-- `q` is left in the instruction accumulator of `u`, no less than a remainder wherever there is
one (R177). -/
def Drained (u : State) (q : ℚ) : Prop :=
  0 < u.params.iperiod → 0 ≤ u.iacc → IsRemainder u.iacc u.params.iperiod q

/-- THE WAYS A CALL ENDS after its instruction part `u`: with a halting fault, or drained and with
one tick, or drained and without (R176, R177, R198). -/
inductive EndsCall (u : State) : State → Prop
  | halted (fs : BitVec 6) : EndsCall u { u with faults := fs, halt := true }
  | ticked (q : ℚ) (fs : BitVec 6) (hq : Drained u q) (h : tperiod ≤ u.tacc) :
      EndsCall u { u with
        iacc := q, faults := fs, dt := tickTimer u.dt, st := tickTimer u.st,
        tacc := usMod u.tacc tperiod, frameReady := true }
  | quiet (q : ℚ) (fs : BitVec 6) (hq : Drained u q) (h : u.tacc < tperiod) :
      EndsCall u { u with iacc := q, faults := fs, frameReady := false }

theorem endsCall_timerPart {u : State} {q : ℚ} (fs : BitVec 6) (hq : Drained u q) :
    EndsCall u (timerPart { u with iacc := q, faults := fs }) := by
  obtain ⟨h, e⟩ | ⟨h, e⟩ := timerPart_cases { u with iacc := q, faults := fs } <;> rw [e]
  · exact .ticked q fs hq h
  · exact .quiet q fs hq h

theorem endsCall_afterInstruction {u : State} (hh : u.halt = false) :
    EndsCall u (afterInstruction u) := by
  have hq : Drained u (usMod u.iacc u.params.iperiod) := fun hp _ => isRemainder_usMod _ hp
  cases hf : u.fault with
  | none =>
    rw [afterInstruction_none hf hh]
    exact endsCall_timerPart u.faults hq
  | some f =>
    cases hhalting : f.halting u.params.policy with
    | true =>
      rw [afterInstruction_halting hf hhalting]
      exact .halted _
    | false =>
      rw [afterInstruction_recorded hf hhalting hh]
      exact endsCall_timerPart _ hq

/-- WHAT A PLACED LEGAL CALL ON A RUNNING CORE DOES: its instruction part and one of the three ends
(R176). -/
theorem step_running {s : State} {e : ℚ} {ks : List Bool} {b : Byte} {rest : List DriverCall}
    (hin : s.inbox = .advance e ks b :: rest) (hrun : s.running) (he : 0 ≤ e) (hk : ks.length = 16) :
    ∃ u t, InstructionPart e ks b rest s u ∧ step s = .next t ∧ EndsCall u t := by
  obtain ⟨hlt, hstep⟩ | ⟨hle, u, hu, hstep⟩ := step_running_cases hin hrun he hk
  · exact ⟨_, _, .inl ⟨hlt, rfl⟩, hstep,
      endsCall_timerPart (u := advanceEntry e ks b rest s) s.faults
        fun _ h0 => isRemainder_self h0 hlt⟩
  · have hu' : InstructionPart e ks b rest s u := .inr ⟨hle, hu⟩
    obtain ⟨_, _, hhalt, _⟩ := hu'.scheduler
    exact ⟨u, _, hu', hstep, endsCall_afterInstruction (hhalt.trans hrun.2)⟩

/-- Frame-ready reports the end with a tick (R178). -/
theorem EndsCall.frameReady_iff {u t : State} (h : EndsCall u t) (hh : u.halt = false)
    (hframe : u.frameReady = false) : t.frameReady = true ↔ tperiod ≤ u.tacc ∧ t.halt = false := by
  cases h with
  | halted fs => simp [hframe]
  | ticked q fs hq h => simp [h, hh]
  | quiet q fs hq h => simp [h]

/-- Both timers are ticked at the end that frame-ready reports, and at no other (R173, R178). -/
theorem EndsCall.timers {u t : State} (h : EndsCall u t) (hframe : u.frameReady = false) :
    (t.frameReady = true → t.dt = tickTimer u.dt ∧ t.st = tickTimer u.st) ∧
      (t.frameReady = false → t.dt = u.dt ∧ t.st = u.st) := by
  cases h with
  | halted fs => exact ⟨fun h => absurd (hframe.symm.trans h) Bool.false_ne_true, fun _ => ⟨rfl, rfl⟩⟩
  | ticked q fs hq h => exact ⟨fun _ => ⟨rfl, rfl⟩, fun h => (nomatch h)⟩
  | quiet q fs hq h => exact ⟨fun h => (nomatch h), fun _ => ⟨rfl, rfl⟩⟩

/-- Settles O50: a halted core answers at once; on a running one the call's end says it. -/
theorem frameReadyExactlyOnATick : Obligations.FrameReadyExactlyOnATick := by
  intro s e ks b rest hin hr he hk s1
  cases hh : s.halt with
  | true =>
    exact ⟨_, (step_advance hin).trans (advance_halted b hr hh he hk), fun _ => ⟨rfl, rfl, rfl⟩,
      fun h => (nomatch h), fun h => (nomatch h)⟩
  | false =>
    obtain ⟨u, t, hu, hstep, hend⟩ := step_running hin ⟨hr, hh⟩ he hk
    obtain ⟨_, htacc, hhalt, _, hframe⟩ := hu.scheduler
    exact ⟨t, hstep, fun h => (nomatch h),
      fun _ => htacc ▸ hend.frameReady_iff (hhalt.trans hh) hframe,
      fun _ => ⟨u, hu, hend.timers hframe⟩⟩

/-- An end of a call changes the timers, once or not at all, and the scheduler's own fields (R177). -/
theorem EndsCall.frame {u t : State} (h : EndsCall u t) :
    (t.dt = u.dt ∧ t.st = u.st ∨ t.dt = tickTimer u.dt ∧ t.st = tickTimer u.st) ∧
      t = { u with
        dt := t.dt, st := t.st, iacc := t.iacc, tacc := t.tacc, frameReady := t.frameReady,
        halt := t.halt, faults := t.faults } := by
  cases h with
  | halted fs => exact ⟨.inl ⟨rfl, rfl⟩, rfl⟩
  | ticked q fs hq h => exact ⟨.inr ⟨rfl, rfl⟩, rfl⟩
  | quiet q fs hq h => exact ⟨.inl ⟨rfl, rfl⟩, rfl⟩

/-- An end that is no halt leaves the remainders in both accumulators (R177). -/
theorem EndsCall.remainders {u t : State} (h : EndsCall u t) (hp : 0 < u.params.iperiod)
    (hiacc : 0 ≤ u.iacc) (htacc : 0 ≤ u.tacc) (hh : t.halt = false) :
    IsRemainder u.iacc u.params.iperiod t.iacc ∧ IsRemainder u.tacc tperiod t.tacc := by
  cases h with
  | halted fs => cases hh
  | ticked q fs hq h => exact ⟨hq hp hiacc, isRemainder_usMod _ tperiod_pos⟩
  | quiet q fs hq h => exact ⟨hq hp hiacc, isRemainder_self htacc h⟩

/-- Settles O51: the frame of a call's end, and the remainders it leaves. -/
theorem backlogIsDropped : Obligations.BacklogIsDropped := by
  intro s t e ks b rest hin hp ⟨hiacc0, htacc0, _⟩ hh hstep s1
  obtain ⟨hr, he, hk⟩ := advance_next ((step_advance hin).symm.trans hstep)
  obtain ⟨u, t', hu, hstep', hend⟩ := step_running hin ⟨hr, hh⟩ he hk
  obtain rfl := Host.Outcome.next.inj (hstep.symm.trans hstep')
  obtain ⟨hiacc, htacc, _, hparams, _⟩ := hu.scheduler
  refine ⟨⟨u, hu, hend.frame⟩, fun hgoes => ?_⟩
  have hrem := hend.remainders (hparams ▸ hp) (hiacc ▸ add_nonneg hiacc0 he)
    (htacc ▸ add_nonneg htacc0 he) hgoes
  rw [hiacc, htacc, hparams] at hrem
  obtain ⟨⟨hi0, hi, hik⟩, ⟨ht0, ht, htk⟩⟩ := hrem
  exact ⟨hi0, hi, ht0, ht, hik, htk⟩

/-! ### The calls that are refused and the calls that go on -/

/-- A negative elapsed time is refused first (R181). -/
theorem advance_negative {s : State} {e : ℚ} (ks : List Bool) (b : Byte) (hr : s.ready = true)
    (he : e < 0) : advance e ks b s = .refused .negativeElapsed := by
  have hel : elapsedLegal e = false :=
    Bool.eq_false_iff.2 fun h => not_le_of_gt he ((elapsedLegal_iff e).1 h)
  rw [advance, if_neg (by rw [hr]; decide), if_pos (by rw [hel]; decide)]

/-- A snapshot of not exactly 16 keys is refused next (R181). -/
theorem advance_badKeys {s : State} {e : ℚ} {ks : List Bool} (b : Byte) (hr : s.ready = true)
    (he : 0 ≤ e) (hk : ks.length ≠ 16) : advance e ks b s = .refused .badKeySnapshot := by
  have hkl : keysLegal ks = false := Bool.eq_false_iff.2 fun h => hk ((keysLegal_iff ks).1 h)
  rw [advance, if_neg (by rw [hr]; decide), if_neg (by rw [(elapsedLegal_iff e).2 he]; decide),
    if_pos (by rw [hkl]; decide)]

/-- Settles O54: the two refusals of `advance`; a call of no time is neither due nor ticks. -/
theorem elapsedAndKeysAreChecked : Obligations.ElapsedAndKeysAreChecked := by
  intro s e ks b rest hin hr
  refine ⟨fun he => (step_advance hin).trans (advance_negative ks b hr he),
    fun he hk => (step_advance hin).trans (advance_badKeys b hr he hk), ?_⟩
  rintro rfl hk hh hi ht
  have hentry : advanceEntry 0 ks b rest s =
      { s with inbox := rest, keys := keyBits ks, rnd := b, fault := none, frameReady := false } := by
    simp only [advanceEntry, add_zero]
  obtain ⟨_, hstep⟩ | ⟨hle, _⟩ := step_running_cases hin ⟨hr, hh⟩ le_rfl hk
  · obtain ⟨hle, _⟩ | ⟨_, htimer⟩ := timerPart_cases (advanceEntry 0 ks b rest s)
    · rw [hentry] at hle
      exact absurd hle (not_le_of_gt ht)
    · rw [hstep, htimer, hentry]
  · rw [add_zero] at hle
    exact absurd hle (not_le_of_gt hi)

/-- A legal Advance call after a successful Reset goes on, halted core or not (R176, R182). -/
theorem advance_goes_on {s : State} {e : ℚ} {ks : List Bool} (b : Byte) (hr : s.ready = true)
    (he : 0 ≤ e) (hk : ks.length = 16) : ∃ t, advance e ks b s = .next t := by
  cases hh : s.halt with
  | true => exact ⟨_, advance_halted b hr hh he hk⟩
  | false =>
    rw [advance_running b hr hh he hk]
    obtain ⟨_, h⟩ | ⟨_, _, _, h⟩ := advanceRunning_cases e ks b s <;> exact ⟨_, h⟩

/-- Settles O60, by the driver's next call: the free driver's, an Advance or a Reset. -/
theorem readyCoreAlwaysGoesOn : Obligations.ReadyCoreAlwaysGoesOn := by
  rintro s hr (hin | ⟨e, ks, b, rest, hin, he, hk⟩ | ⟨rom, p, rest, hin, hp⟩)
  · obtain ⟨e, ks, b, he, hk, hstep⟩ := step_free hin
    rw [hstep]
    exact advance_goes_on b hr he hk
  · rw [step_advance hin]
    exact advance_goes_on b hr he hk
  · rw [step_reset hin, if_pos ((legal_iff p).2 hp)]
    exact ⟨_, rfl⟩

end Sys2Proof.Machine
end

section
/-! The word that `withFetchWord` places is what the next step runs (46_cycle_scheduler_timers.md R170,
R176; notes/assumptions/25.md). -/

namespace Sys2Proof.Machine

/-! ### The stored word -/

/-- The byte of a stored word that fetch takes first is its high one (R54). -/
theorem State.readByte_writeWord_high {s : State} {a : Nat} (w : Word)
    (hm : Memory.wf s.params s.mem = true) (ha : a ≤ 0xFFE) :
    (s.writeBytes a (bytesOfWord w)).readByte a = w.extractLsb' 8 8 :=
  State.readByte_writeBytes (k := 0) (bs := bytesOfWord w) hm (by change a + 2 ≤ 4096; omega)
    Nat.two_pos

/-- The byte after it is the low one (R54). -/
theorem State.readByte_writeWord_low {s : State} {a : Nat} (w : Word)
    (hm : Memory.wf s.params s.mem = true) (ha : a ≤ 0xFFE) :
    (s.writeBytes a (bytesOfWord w)).readByte (a + 1) = w.extractLsb' 0 8 :=
  State.readByte_writeBytes (k := 1) (bs := bytesOfWord w) hm (by change a + 2 ≤ 4096; omega)
    Nat.one_lt_two

theorem highByte_toNat (w : Word) : (w.extractLsb' 8 8).toNat = w.toNat / 256 := by
  have := w.isLt
  rw [BitVec.extractLsb'_toNat, Nat.shiftRight_eq_div_pow]
  omega

theorem lowByte_toNat (w : Word) : (w.extractLsb' 0 8).toNat = w.toNat % 256 := by
  rw [BitVec.extractLsb'_toNat, Nat.shiftRight_zero]

/-! ### The placed call -/

/-- The state that places a word at `PC`: its bytes stored, the core running, and a legal call first
that takes the instruction accumulator to its period. -/
def placedState (w : Word) (s : State) : State :=
  { s with
    mem := (s.writeBytes s.pc.toNat (bytesOfWord w)).mem, halt := false, ready := true,
    inbox := .advance (max 0 (s.params.iperiod - s.iacc)) (keyList s.keys) s.rnd :: s.inbox }

/-- The state in which a word placed at `PC` is executed: its bytes stored, `PC` past them, the
accumulators moved on until the instruction is due (R170, R176). -/
def placedEntry (w : Word) (s : State) : State :=
  { s with
    mem := (s.writeBytes s.pc.toNat (bytesOfWord w)).mem, pc := s.pc + 2, halt := false,
    ready := true, fault := none, frameReady := false, iacc := max s.iacc s.params.iperiod,
    tacc := s.tacc + max 0 (s.params.iperiod - s.iacc) }

theorem placeInstruction_of_le {s : State} (w : Word) (hpc : s.pc.toNat ≤ 0xFFE) :
    placeInstruction (bytesOfWord w) s = placedState w s := by
  rw [placeInstruction, if_pos (by rw [memSize]; omega), dueCall_eq]
  rfl

theorem pc_setPc_0x200_le (s : State) : (s.setPc 0x200).pc.toNat ≤ 0xFFE :=
  (by decide : (0x200 : Word).toNat ≤ 0xFFE)

/-- Where nothing can be fetched at `PC`, the word is placed as at 0x200. -/
theorem placeInstruction_of_gt {s : State} (bytes : List Byte) (hpc : 0xFFE < s.pc.toNat) :
    placeInstruction bytes s = placeInstruction bytes (s.setPc 0x200) := by
  have hpc' : (s.setPc 0x200).pc.toNat + 2 ≤ memSize := Nat.add_le_add_right (pc_setPc_0x200_le s) 2
  rw [placeInstruction, if_neg (by rw [memSize]; omega), placeInstruction, if_pos hpc']

/-- The placed word is the one at `PC` (R54). -/
theorem wordAtPc_placedState {s : State} (w : Word) (hm : Memory.wf s.params s.mem = true)
    (hpc : s.pc.toNat ≤ 0xFFE) : (placedState w s).wordAtPc = w :=
  (congrArg₂ wordOfBytes (State.readByte_writeWord_high w hm hpc)
    (State.readByte_writeWord_low w hm hpc)).trans (wordOfBytes_bytesOfWord w)

/-- The least time that makes an instruction due takes the accumulator to its period, or leaves it
where it has passed the period already. -/
theorem add_gap_eq_max (acc period : ℚ) : acc + max 0 (period - acc) = max acc period := by
  rw [add_max, add_zero, add_sub_cancel]

/-- The placed call, latched, and `PC` past the word make the state in which the word is executed. -/
theorem advanceEntry_placedState (w : Word) (s : State) :
    (advanceEntry (max 0 (s.params.iperiod - s.iacc)) (keyList s.keys) s.rnd s.inbox
      (placedState w s)).setPc (s.pc + 2) = placedEntry w s := by
  simp only [advanceEntry, State.setPc, placedState, placedEntry, keyBits_keyList, add_gap_eq_max]

/-- A word placed at `PC` is what the next step runs: the placed call is legal and due. -/
theorem step_placedState {s : State} {w : Word} {i : Instr}
    (hm : Memory.wf s.params s.mem = true) (hd : decodeWord w = .ok i) (hpc : s.pc.toNat ≤ 0xFFE) :
    ∃ t, exec i (placedEntry w s) = .next t ∧
      step (placedState w s) = .next (afterInstruction t) := by
  have hdue : s.params.iperiod ≤ s.iacc + max 0 (s.params.iperiod - s.iacc) := by
    rw [add_gap_eq_max]
    exact le_max_right _ _
  have hword : decodeWord (placedState w s).wordAtPc = .ok i := by
    rw [wordAtPc_placedState w hm hpc, hd]
  rw [← advanceEntry_placedState]
  exact step_due (s := placedState w s) rfl ⟨rfl, rfl⟩ (le_max_left _ _) (keyList_length s.keys)
    hdue hpc hword

/-- What `PlacedWordRunsNext` says of the state in which the placed word runs (R170). -/
theorem placedEntry_word_and_pc {s : State} (w : Word) (hm : Memory.wf s.params s.mem = true)
    (hpc : s.pc.toNat ≤ 0xFFE) :
    ((placedEntry w s).readByte s.pc.toNat).toNat = w.toNat / 256 ∧
      ((placedEntry w s).readByte (s.pc.toNat + 1)).toNat = w.toNat % 256 ∧
      SameMemoryOutside s.pc.toNat 2 s (placedEntry w s) ∧
      (placedEntry w s).pc.toNat = s.pc.toNat + 2 :=
  ⟨(congrArg BitVec.toNat (State.readByte_writeWord_high w hm hpc)).trans (highByte_toNat w),
    (congrArg BitVec.toNat (State.readByte_writeWord_low w hm hpc)).trans (lowByte_toNat w),
    sameMemoryOutside_writeBytes (bs := bytesOfWord w) hm, toNat_add_two (by omega)⟩

theorem withFetchWord_toNat (s : State) (w : Word) :
    s.withFetchWord 16 w.toNat = placeInstruction (bytesOfWord w) s := by
  rw [State.withFetchWord, Nat.mod_eq_of_lt w.isLt, BitVec.ofNat_toNat, BitVec.setWidth_eq]

/-- Settles O43: the word is placed at `PC`, or as at 0x200; either way the next step runs it in
`placedEntry`. -/
theorem placedWordRunsNext : Obligations.PlacedWordRunsNext := by
  intro s w i hm hd a
  rw [withFetchWord_toNat]
  by_cases hpc : s.pc.toNat ≤ 0xFFE
  · have ha : a = s.pc.toNat := if_pos hpc
    obtain ⟨t, ht, hstep⟩ := step_placedState hm hd hpc
    obtain ⟨hhi, hlo, hmem, hnext⟩ := placedEntry_word_and_pc w hm hpc
    rw [placeInstruction_of_le w hpc, ha]
    exact ⟨_, t, ht, hstep, hhi, hlo, hmem, hnext, rfl⟩
  · have ha : a = (s.setPc 0x200).pc.toNat := if_neg hpc
    have hpc' := pc_setPc_0x200_le s
    obtain ⟨t, ht, hstep⟩ := step_placedState (s := s.setPc 0x200) hm hd hpc'
    obtain ⟨hhi, hlo, hmem, hnext⟩ := placedEntry_word_and_pc (s := s.setPc 0x200) w hm hpc'
    rw [placeInstruction_of_gt _ (by omega), placeInstruction_of_le w hpc', ha]
    exact ⟨_, t, ht, hstep, hhi, hlo, hmem, hnext, rfl⟩

end Sys2Proof.Machine
end

section
/-! Exceptions (60_exceptions.md R190 to R201) and a Reset that fails (70_reset_and_hazards.md R222): which
fault an instruction raises, what the call does with it, and what follows a ROM that is too long. -/

namespace Sys2Proof.Machine

/-! ### The fault an instruction raises -/

section
variable {s t : State} {f : Fault} (hs : s.fault = none) (hf : t.fault = some f)
include hs hf

/-- Where no fault stood before, a reported one is a change. -/
theorem fault_changed : t.fault ≠ s.fault := by
  rw [hs, hf]
  exact Option.some_ne_none f

/-- The one fault of a return is StackUnderflow (R193). -/
theorem execRet_fault (h : execRet s = .next t) : f = .stackUnderflow (s.pc - 2) := by
  obtain h0 | hpos := Nat.eq_zero_or_pos s.sp.val
  · obtain rfl := Host.Outcome.next.inj ((exec_ret_empty h0).symm.trans h)
    exact (Option.some.inj hf).symm
  · obtain rfl := Host.Outcome.next.inj ((exec_ret_of_pos hpos).symm.trans h)
    exact absurd rfl (fault_changed hs hf)

/-- The one fault of a call is StackOverflow (R192). -/
theorem execCall_fault {nnn : BitVec 12} (h : execCall nnn s = .next t) :
    f = .stackOverflow (s.pc - 2) := by
  obtain hlt | hge := lt_or_ge s.sp.val 16
  · obtain rfl := Host.Outcome.next.inj ((exec_call_of_lt nnn hlt).symm.trans h)
    exact absurd rfl (fault_changed hs hf)
  · have hfull : s.sp.val = 16 := by have := s.sp.isLt; omega
    obtain rfl := Host.Outcome.next.inj ((exec_call_full nnn hfull).symm.trans h)
    exact (Option.some.inj hf).symm

/-- The one fault of a key skip is KeyRangeFault (R195). -/
theorem skipIfKey_fault {down : Bool} {x : Reg} (h : skipIfKey down x s = .next t) :
    f = .keyRange (s.getV x) (s.pc - 2) := by
  obtain hle | hgt := le_or_gt (s.getV x).toNat 15
  · obtain rfl := Host.Outcome.next.inj ((skipIfKey_of_le down hle).symm.trans h)
    exact absurd rfl (fault_changed hs hf)
  · obtain rfl := Host.Outcome.next.inj ((skipIfKey_of_gt down hgt).symm.trans h)
    exact (Option.some.inj hf).symm

/-- The one fault of a data access is AddressFault (R57, R194), where the access itself reports
none. -/
theorem withDataRange_fault {n : Nat} {access : State → State}
    (h : withDataRange n s access = .next t) (ha : (access s).fault = s.fault) :
    f = .address .data (max s.i.toNat 4096) (s.pc - 2) := by
  obtain ⟨_, e⟩ | ⟨_, e⟩ := withDataRange_cases n s access
  · obtain rfl := Host.Outcome.next.inj (e.symm.trans h)
    exact absurd ha (fault_changed hs hf)
  · obtain rfl := Host.Outcome.next.inj (e.symm.trans h)
    exact (Option.some.inj hf).symm

end

@[simp] theorem drawSprite_fault (x y : Reg) (n : BitVec 4) (s : State) :
    (drawSprite x y n s).fault = s.fault := by
  rw [drawSprite_eq]

/-- Settles O33: the instructions that can raise end in one of four shared operations, each with one
fault of its own; the others report what they found. -/
theorem onlyTheseInstructionsRaise : Obligations.OnlyTheseInstructionsRaise := by
  intro i s t f hs h hf
  cases i with
  | ret =>
    obtain rfl := execRet_fault hs hf h
    exact ⟨rfl, rfl⟩
  | call nnn =>
    obtain rfl := execCall_fault hs hf h
    exact ⟨⟨nnn, rfl⟩, rfl⟩
  | drw x y n =>
    obtain rfl := withDataRange_fault hs hf ((exec_drw x y n s).symm.trans h) (drawSprite_fault x y n s)
    exact ⟨.inl ⟨x, y, n, rfl⟩, rfl, le_max_right _ _, rfl⟩
  | ldB x =>
    obtain rfl := withDataRange_fault hs hf ((exec_ldB x s).symm.trans h) rfl
    exact ⟨.inr ⟨x, .inl rfl⟩, rfl, le_max_right _ _, rfl⟩
  | ldMemVx x =>
    obtain rfl := withDataRange_fault hs hf ((exec_ldMemVx x s).symm.trans h) rfl
    exact ⟨.inr ⟨x, .inr (.inl rfl)⟩, rfl, le_max_right _ _, rfl⟩
  | ldVxMem x =>
    obtain rfl := withDataRange_fault hs hf ((exec_ldVxMem x s).symm.trans h) rfl
    exact ⟨.inr ⟨x, .inr (.inr rfl)⟩, rfl, le_max_right _ _, rfl⟩
  | skp x =>
    obtain rfl := skipIfKey_fault hs hf h
    exact ⟨⟨x, .inl rfl, rfl⟩, rfl⟩
  | sknp x =>
    obtain rfl := skipIfKey_fault hs hf h
    exact ⟨⟨x, .inr rfl, rfl⟩, rfl⟩
  | seImm x nn | sneImm x nn | seReg x y | sneReg x y =>
    obtain rfl | rfl := skipIf_of_next h <;> exact absurd rfl (fault_changed hs hf)
  | ldVxK x =>
    obtain ⟨b, rfl⟩ | rfl := execLdVxK_of_next h <;> exact absurd rfl (fault_changed hs hf)
  | _ =>
    obtain rfl := Host.Outcome.next.inj h
    exact absurd rfl (fault_changed hs hf)

/-! ### The fault an instruction cycle reports -/

/-- A fault that an instruction reports is all that it changed (R197). -/
theorem exec_precise {i : Instr} {s t : State} (h : exec i s = .next t) (hs : s.fault = none)
    (hf : t.fault ≠ none) : t = { s with fault := t.fault } := by
  obtain hframe | ⟨f, rfl⟩ := exec_frame h
  · have hkeep : t.fault = s.fault := (congrArg State.fault hframe :)
    exact absurd (hkeep.trans hs) hf
  · rfl

/-- Settles O32: totality is `exec_next` and `instructionCycle_next`, and each way a cycle goes is
precise: an instruction by `exec_precise`, the other two by what they raise. -/
theorem faultsArePrecise : Obligations.FaultsArePrecise := by
  refine ⟨fun i s => ?exec, fun s hs => ?cycle⟩
  case exec =>
    obtain ⟨t, ht, _⟩ | ⟨f, ht⟩ := exec_next i s <;> exact ⟨_, ht⟩
  case cycle =>
    obtain ⟨t, ht, _⟩ := instructionCycle_next s
    refine ⟨t, ht, fun hf => ?_⟩
    obtain ⟨i, hpc, _, e⟩ | ⟨_, hpc, _, e⟩ | ⟨hpc, e⟩ := instructionCycle_cases s
    · rw [if_pos hpc]
      exact exec_precise (e.symm.trans ht) hs hf
    · obtain rfl := Host.Outcome.next.inj (e.symm.trans ht)
      rw [if_pos hpc]
    · obtain rfl := Host.Outcome.next.inj (e.symm.trans ht)
      rw [if_neg (not_le_of_gt hpc)]

/-- Settles O45: of the three ways a cycle goes, only the one of an unmatched word reports a
DecodeFault; an instruction never does, by O33. -/
theorem unmatchedWordRaisesDecodeFault : Obligations.UnmatchedWordRaisesDecodeFault := by
  refine fun s => ⟨fun e hpc hd => instructionCycle_unmatched hpc hd, fun t w' a hs ht hf => ?_⟩
  obtain ⟨i, _, _, e⟩ | ⟨err, hpc, hd, e⟩ | ⟨_, e⟩ := instructionCycle_cases s
  · exact (onlyTheseInstructionsRaise i (s.setPc (s.pc + 2)) t _ hs (e.symm.trans ht) hf).elim
  · obtain rfl := Host.Outcome.next.inj (e.symm.trans ht)
    obtain ⟨rfl, rfl⟩ := Fault.decode.inj (Option.some.inj hf)
    exact ⟨hpc, rfl, rfl, err, hd⟩
  · obtain rfl := Host.Outcome.next.inj (e.symm.trans ht)
    cases hf

/-! ### What the call does with a fault -/

/-- A DecodeFault halts exactly under policy Halt (R199). -/
theorem halting_decode_iff (p : DecodeFaultPolicy) (w a : Word) :
    Fault.halting p (.decode w a) = true ↔ p = .halt := beq_iff_eq

/-- The call records the fault that its cycle reported, halting or not (R36, R196). -/
theorem afterInstruction_faults_some {s : State} {f : Fault} (hf : s.fault = some f) :
    (afterInstruction s).faults = s.faults ||| (1#6 <<< (f.code - 1)) := by
  rw [afterInstruction_faults, takeFault_some hf]

/-- What follows the cycle leaves `PC` (R176). -/
theorem afterInstruction_pc {s : State} (hh : s.halt = false) : (afterInstruction s).pc = s.pc :=
  (congrArg State.pc (endsCall_afterInstruction hh).frame.2 :)

/-- What follows the cycle leaves the reported fault, which the call returns (R42, R176). -/
theorem afterInstruction_fault {s : State} (hh : s.halt = false) :
    (afterInstruction s).fault = s.fault :=
  (congrArg State.fault (endsCall_afterInstruction hh).frame.2 :)

/-- The timer part leaves `HALT` (R176). -/
theorem timerPart_halt (s : State) : (timerPart s).halt = s.halt := by
  rw [timerPart_frame]

/-- Settles O48: `recordFault_getLsbD` is the clause on the bits. -/
theorem faultCodesAreOneToSix : Obligations.FaultCodesAreOneToSix := by
  refine ⟨fun _ _ _ _ _ => ⟨rfl, rfl, rfl, rfl, rfl, rfl⟩, fun s f hf k hk => ?_, fun s hf => ?_⟩
  · rw [afterInstruction_faults_some hf, recordFault_getLsbD s.faults f hk]
  · rw [afterInstruction_faults, takeFault_none hf]

/-- The sticky bit of a DecodeFault is bit 0 (R36). -/
theorem recordFault_decode (faults : BitVec 6) (w a : Word) :
    faults ||| (1#6 <<< ((Fault.decode w a).code - 1)) = faults ||| 1 := rfl

/-- A DecodeFault is recorded under either policy (R199). -/
theorem afterInstruction_faults_decode {s : State} {w a : Word}
    (hf : s.fault = some (.decode w a)) : (afterInstruction s).faults = s.faults ||| 1 := by
  rw [afterInstruction_faults_some hf, recordFault_decode]

/-- A DecodeFault under policy Halt ends the call (R198, R199). -/
theorem afterInstruction_decode_halt {s : State} {w a : Word} (hf : s.fault = some (.decode w a))
    (hp : s.params.policy = .halt) :
    afterInstruction s = { s with faults := s.faults ||| 1, halt := true } := by
  rw [afterInstruction_halting hf ((halting_decode_iff _ w a).2 hp), recordFault_decode]

/-- A DecodeFault under policy Skip is recorded and the call goes on (R199). -/
theorem afterInstruction_decode_skip {s : State} {w a : Word} (hf : s.fault = some (.decode w a))
    (hp : s.params.policy = .skip) (hh : s.halt = false) :
    afterInstruction s = timerPart (drainIacc { s with faults := s.faults ||| 1 }) := by
  have hgoes : Fault.halting s.params.policy (.decode w a) = false := by
    rw [hp]
    rfl
  rw [afterInstruction_recorded hf hgoes hh, recordFault_decode]

/-- Settles O47: the fault is recorded under either policy, which decides between the halting end of
a call and the one that goes on. -/
theorem decodeFaultFollowsThePolicy : Obligations.DecodeFaultFollowsThePolicy := by
  intro s e hpc hh hframe w hd
  have hne : s.faults ||| 1 ≠ 0 := recordFault_ne_zero s.faults (.decode w s.pc)
  refine ⟨_, instructionCycle_unmatched hpc hd, afterInstruction_fault hh, afterInstruction_pc hh,
    afterInstruction_faults_decode rfl, ?_, fun hp => ?halt, fun hp => ?skip⟩
  · rwa [afterInstruction_faults_decode rfl]
  case halt =>
    rw [afterInstruction_decode_halt rfl]
    · exact ⟨rfl, rfl, rfl, rfl, hframe⟩
    · exact hp
  case skip =>
    rw [afterInstruction_decode_skip rfl]
    · exact ⟨(timerPart_halt _).trans hh, rfl⟩
    · exact hp
    · exact hh

/-! ### A halted core -/

/-- An Advance call leaves a halted core halted (R198). -/
theorem advance_keeps_halt {s t : State} {e : ℚ} {ks : List Bool} {b : Byte}
    (h : advance e ks b s = .next t) (hh : s.halt = true) : t.halt = true := by
  obtain ⟨hr, he, hk⟩ := advance_next h
  rw [advance_halted b hr hh he hk] at h
  obtain rfl := Host.Outcome.next.inj h
  exact hh

/-- A step that clears `HALT` is a Reset (R198). -/
theorem step_clears_halt {s t : State} (h : step s = .next t) (hh : s.halt = true)
    (ht : t.halt = false) : ∃ rom p rest, s.inbox = .reset rom p :: rest := by
  match hin : s.inbox with
  | [] =>
    obtain ⟨e, ks, b, _, _, hstep⟩ := step_free hin
    rw [advance_keeps_halt (hstep.symm.trans h) hh] at ht
    cases ht
  | .advance e ks b :: rest =>
    rw [advance_keeps_halt ((step_advance hin).symm.trans h) hh] at ht
    cases ht
  | .reset rom p :: rest => exact ⟨rom, p, rest, rfl⟩

/-- Settles O46: which faults halt by the definition, then the halting end of a call, the call on a
halted core, and the one step that clears `HALT`. -/
theorem haltingFaultsStopTheCore : Obligations.HaltingFaultsStopTheCore := by
  refine ⟨fun p w a _ _ _ => ⟨rfl, rfl, rfl, rfl, halting_decode_iff p w a⟩,
    fun s f _ hframe hf hhalting => ?_,
    fun s e ks b rest hin hr hh he hk => (step_advance hin).trans (advance_halted b hr hh he hk),
    fun s t => step_clears_halt⟩
  rw [afterInstruction_halting hf hhalting, ← hframe]

/-! ### A Reset that fails -/

/-- An Advance call after a failed Reset is refused before anything else is looked at (R222). -/
theorem advance_notReady {s : State} (e : ℚ) (ks : List Bool) (b : Byte) (hr : s.ready = false) :
    advance e ks b s = .refused .advanceAfterFailedReset := by
  rw [advance, if_pos (by rw [hr]; decide)]

/-- Settles O56: the two branches of `resetCore`, and what `advance` tests first. -/
theorem tooLargeRomFailsReset : Obligations.TooLargeRomFailsReset := by
  intro s rom p rest hin hbase hfont hperiod
  have hp : p.legal = true := (legal_iff p).2 ⟨hbase, hfont, hperiod⟩
  obtain hle | hgt := le_or_gt rom.length 3584
  · exact ⟨_, step_reset_of_le hin hp hle, fun _ => ⟨rfl, rfl⟩, fun h => absurd h (by omega)⟩
  · have hstep := (step_reset hin).trans (if_pos hp)
    rw [resetCore_of_gt p _ hgt] at hstep
    refine ⟨_, hstep, fun h => absurd h (by omega), fun _ => ⟨rfl, rfl, fun e ks b rest' hrest => ?_⟩⟩
    exact (step_advance hrest).trans (advance_notReady e ks b rfl)

end Sys2Proof.Machine
end
